-- ==== Sys2Proof/Word.lean ====
section
/-! DEFINITION. The word types of CANDRV and its one value type, the CAN frame (10_state.md R17, 20_memory.md R65). -/

namespace Sys2Proof

/-- A payload byte, a DLC, an error count: `u8` (00_scope.md R10). -/
abbrev Byte := BitVec 8

/-- A request word, an identifier, a data window: `u32` (R10). -/
abbrev Word := BitVec 32

/-- The "fixed 8-byte array" `data[0]` to `data[7]` of a frame (R17). -/
structure Payload where
  b0 : Byte
  b1 : Byte
  b2 : Byte
  b3 : Byte
  b4 : Byte
  b5 : Byte
  b6 : Byte
  b7 : Byte
deriving DecidableEq, Repr

/-- A CanFrame: identifier, data length code, payload (R17). It is a value type, copied by value. -/
structure CanFrame where
  id : Word
  dlc : Byte
  data : Payload
deriving DecidableEq, Repr

end Sys2Proof
end

