-- ==== Sys2Proof/Config.lean ====
section
/-! DEFINITION. CONFIG, the implementation parameters of CANDRV (00_scope.md R6 to R9), and the one free value. -/

namespace Sys2Proof

/-- An AcceptanceRule of the static filter table (10_state.md R28). -/
structure AcceptanceRule where
  id : Word
  mask : Word
deriving DecidableEq, Repr

/-- BUSERR_POLICY (42_state_machine.md R156). -/
inductive BusErrPolicy where
  | never
  | busOffFlag
deriving DecidableEq, Repr

/-- RECOVERY_POLICY, with its one value (R157). -/
inductive RecoveryPolicy where
  | reinitEachTick
deriving DecidableEq, Repr

/-- A line of REGMAP: where a controller register or field stands. No rule reads it (20_memory.md R62). -/
structure RegPlace where
  name : String
  address : Nat
  hi : Nat
  lo : Nat
deriving DecidableEq, Repr

/-- CONFIG, "constant over a run of the model" (20_memory.md R76). -/
structure Config where
  /-- C_TX (R6) -/
  cTx : Nat
  /-- C_RX (R7) -/
  cRx : Nat
  /-- RX_BURST (R8) -/
  rxBurst : Nat
  /-- FILTER_TABLE in rule order; its length is N_RULES (10_state.md R28) -/
  filterTable : List AcceptanceRule
  /-- RATES, by name, numbered from 0 (30_encoding.md R87) -/
  rates : List String
  /-- SUPPORTED with NBT_OF: a supported rate's number and its timing value (41_hri_ops.md R126) -/
  nbtOf : List (Byte × Word)
  /-- NBT_DEFAULT (R127) -/
  nbtDefault : Word
  /-- CFG_MODULE, CFG_RATE, CFG_FD (42_state_machine.md R152) -/
  cfgModule : Byte
  cfgRate : Byte
  cfgFd : Bool
  /-- N_MODULES (41_hri_ops.md R121) -/
  nModules : Nat
  /-- HWRX_DEPTH (10_state.md R44) -/
  hwrxDepth : Nat
  /-- CLK_WAIT_MAX, `none` for `inf` (41_hri_ops.md R122) -/
  clkWaitMax : Option Nat
  /-- BUSERR_POLICY (42_state_machine.md R156) -/
  busErrPolicy : BusErrPolicy
  /-- RECOVERY_POLICY (R157) -/
  recoveryPolicy : RecoveryPolicy
  /-- TICK_PERIOD in milliseconds, informational (60_exceptions.md R209): nothing reads it -/
  tickPeriod : Nat
  /-- REGMAP (20_memory.md R62): nothing reads it -/
  regMap : List RegPlace
deriving DecidableEq, Repr

/-- EXCFG, the example configuration of 95_test_vectors.md section 0, used by the tests. TICK_PERIOD and REGMAP, which
EXCFG does not list, hold 1 and nothing. -/
def Config.excfg : Config where
  cTx := 4
  cRx := 4
  rxBurst := 8
  filterTable := [⟨0x100#32, 0x7FF#32⟩, ⟨0x200#32, 0x700#32⟩]
  rates := ["R125K", "R250K", "R500K", "R1M"]
  nbtOf := [(0#8, 0x125#32), (1#8, 0x250#32), (2#8, 0x500#32)]
  nbtDefault := 0#32
  cfgModule := 0#8
  cfgRate := 2#8
  cfgFd := false
  nModules := 1
  hwrxDepth := 3
  clkWaitMax := some 3
  busErrPolicy := .busOffFlag
  recoveryPolicy := .reinitEachTick
  tickPeriod := 1
  regMap := []

/-- The CONFIG of `State.reset` (DESIGN CHOICE, unsafe, log 2): the defaults 80, 80 and 8 of R6 to R8, and EXCFG for every
field the spec leaves OPEN. No statement rests on it: a statement about every state is about every CONFIG. -/
def Config.atReset : Config := { Config.excfg with cTx := 80, cRx := 80 }

/-! The receive window CTL.RXW while CTL.HWRX is empty (10_state.md R46, 93_implementation_defined.md U9): FREE VALUES,
one per register and per number of HRI calls made so far. No operation reads the window then (DESIGN CHOICE, log 14). -/

opaque Config.emptyRxwId : Nat → Word
opaque Config.emptyRxwDlc : Nat → Byte
opaque Config.emptyRxwData0 : Nat → Word
opaque Config.emptyRxwData1 : Nat → Word

end Sys2Proof
end

