-- ==== Sys2Proof/Syntax.lean ====
section
/-! DEFINITION. The operations and events of CANDRV, one constructor per row of spec/opcode_table.json
(30_encoding.md R90). The operands are those of R93. -/

namespace Sys2Proof

inductive Instr where
  /-- 0x01 ENQTX, issued by APP (40_buffer_ops.md R100). -/
  | enqtx (f : CanFrame)
  /-- 0x02 DEQRX, issued by APP (R109). -/
  | deqrx
  /-- 0x10 TICK, issued by SCHED (42_state_machine.md R150). -/
  | tick
  /-- 0x11 REQSHUT, issued by HOST (R160). -/
  | reqshut
  /-- 0x20 DRAINTX, issued by DRV (R103). -/
  | draintx
  /-- 0x21 FILLRX, issued by DRV (R106). -/
  | fillrx
  /-- 0x22 BUFINIT, issued by DRV (R112). -/
  | bufinit
  /-- 0x23 DRVINIT, issued by DRV (R152). -/
  | drvinit
  /-- 0x30 HWINIT, issued by DRV (41_hri_ops.md R120). -/
  | hwinit (modSel rate : Byte) (fd : Bool)
  /-- 0x31 SETBAUD, issued by DRV (R126). -/
  | setbaud (rate : Byte)
  /-- 0x32 CFGFLT, issued by DRV (R129). -/
  | cfgflt
  /-- 0x33 TX1, issued by DRV (R132). -/
  | tx1 (f : CanFrame)
  /-- 0x34 RX1, issued by DRV (R136). -/
  | rx1
  /-- 0x35 GETERR, issued by DRV (R141). -/
  | geterr
  /-- 0x36 DEINIT, issued by DRV (R144). -/
  | deinit
  /-- 0x80 EV_CLK, taken by CLK (43_controller_events.md R170). -/
  | evClk (stable : Bool)
  /-- 0x81 EV_TXDONE, taken by CTRL (R172). -/
  | evTxdone
  /-- 0x82 EV_RXFRAME, taken by BUS (R174). -/
  | evRxframe (g : CanFrame)
  /-- 0x83 EV_ERRCNT, taken by BUS (R177). -/
  | evErrcnt (tec recCnt : Byte)
  /-- 0x84 EV_BUSOFF, taken by BUS (R178). -/
  | evBusoff
  /-- 0x85 EV_THL, taken by CTRL (R180). -/
  | evThl
  /-- 0x86 EV_DLCERR, taken by CTRL (R181). -/
  | evDlcerr
  /-- 0x90 ISR, one run of the interrupt context (60_exceptions.md R203). -/
  | isr
deriving DecidableEq, Repr

/-- The agents that take steps (00_scope.md R5). -/
inductive Agent where
  | app | sched | drv | ctrl | bus | clk | isr | host
deriving DecidableEq, Repr

end Sys2Proof
end

