-- ==== Sys2Proof/Decode.lean ====
section
/-! DEFINITION. The encodings of 30_encoding.md: the frame register image (R81 to R83), the request words (R89, R90, R93,
R95), the decoder and the encoder. -/

namespace Sys2Proof

/-- `pack(b0, b1, b2, b3)`: the first byte is the least significant (R82). -/
def pack (b0 b1 b2 b3 : Byte) : Word := b3 ++ b2 ++ b1 ++ b0

/-- `unpack(w)`: the four bytes of `w`, least significant first (R83). -/
def unpack (w : Word) : Byte × Byte × Byte × Byte :=
  (w.extractLsb' 0 8, w.extractLsb' 8 8, w.extractLsb' 16 8, w.extractLsb' 24 8)

/-- Payload bytes 0 to 3 as data window 0 (R63, R82). -/
def Payload.window0 (p : Payload) : Word := pack p.b0 p.b1 p.b2 p.b3

/-- Payload bytes 4 to 7 as data window 1 (R63, R82). -/
def Payload.window1 (p : Payload) : Word := pack p.b4 p.b5 p.b6 p.b7

/-- The payload whose two data windows are `w0` and `w1` (R83). -/
def Payload.ofWindows (w0 w1 : Word) : Payload :=
  match unpack w0, unpack w1 with
  | (b0, b1, b2, b3), (b4, b5, b6, b7) => ⟨b0, b1, b2, b3, b4, b5, b6, b7⟩

/-- The eight bytes of a payload in order. -/
def Payload.bytes (p : Payload) : List Byte := [p.b0, p.b1, p.b2, p.b3, p.b4, p.b5, p.b6, p.b7]

/-- The register image of a frame, W0 to W3 (R81). -/
def CanFrame.image (f : CanFrame) : List Word :=
  [f.id, f.dlc.setWidth 32, f.data.window0, f.data.window1]

/-- The frame operand of the words W0 to W3 (R93). -/
def CanFrame.ofImage (w0 w1 w2 w3 : Word) : CanFrame :=
  ⟨w0, w1.extractLsb' 0 8, Payload.ofWindows w2 w3⟩

/-- The six request formats (R89). -/
inductive Format where
  | n | f | b | i | c | q
deriving DecidableEq, Repr

/-- The bits of the first word that a format requires to be 0 (R89). -/
def Format.zeroBits (k : Format) : Word :=
  match k with
  | .n => 0xFFFFFF00#32
  | .f => 0xFFFFFF00#32
  | .b => 0xFFFF0000#32
  | .i => 0xFE000000#32
  | .c => 0xFFFFFE00#32
  | .q => 0xFF000000#32

/-- The format of a selector, or nothing where the selector is reserved (R90, R95). -/
def formatOf (op : Byte) : Option Format :=
  match op.toNat with
  | 0x01 => some .f
  | 0x02 => some .n
  | 0x10 => some .n
  | 0x11 => some .n
  | 0x20 => some .n
  | 0x21 => some .n
  | 0x22 => some .n
  | 0x23 => some .n
  | 0x30 => some .i
  | 0x31 => some .b
  | 0x32 => some .n
  | 0x33 => some .f
  | 0x34 => some .n
  | 0x35 => some .n
  | 0x36 => some .n
  | 0x80 => some .c
  | 0x81 => some .n
  | 0x82 => some .f
  | 0x83 => some .q
  | 0x84 => some .n
  | 0x85 => some .n
  | 0x86 => some .n
  | 0x90 => some .n
  | _ => none

/-- The selector `OP`, bits 7:0 of a request word (R89). -/
def opOf (w : Word) : Byte := w.extractLsb' 0 8

/-- Why words spell no operation (R95); `truncated` and `noWord` are the decoder's own (log 6). -/
inductive DecodeError where
  /-- the selector is not in the table of R90 -/
  | reservedSelector
  /-- a bit its format requires to be 0 is 1 -/
  | reservedBitSet
  /-- W1 of a frame operand has a bit of 31:8 set -/
  | dlcWordHighBits
  /-- fewer than four operand words follow a format F selector -/
  | truncated
  /-- there is no word -/
  | noWord
deriving DecidableEq, Repr

/-- What the decoder reads: an instruction and the words after it, or why there is none. -/
inductive DecodeResult where
  | ok (i : Instr) (rest : List Word)
  | bad (e : DecodeError)
deriving DecidableEq, Repr

/-- The frame operand that the words after the selector word begin with (R81, R93, R95). -/
def decodeFrame (ws : List Word) (k : CanFrame → Instr) : DecodeResult :=
  match ws with
  | w0 :: w1 :: w2 :: w3 :: rest =>
    if w1.extractLsb' 8 24 = 0#24 then .ok (k (CanFrame.ofImage w0 w1 w2 w3)) rest
    else .bad .dlcWordHighBits
  | _ => .bad .truncated

/-- The operation of a first word `w` whose must-be-zero bits are 0, with the words after it (R90, R93). -/
def decodeOperands (w : Word) (ws : List Word) : DecodeResult :=
  match (opOf w).toNat with
  | 0x01 => decodeFrame ws .enqtx
  | 0x02 => .ok .deqrx ws
  | 0x10 => .ok .tick ws
  | 0x11 => .ok .reqshut ws
  | 0x20 => .ok .draintx ws
  | 0x21 => .ok .fillrx ws
  | 0x22 => .ok .bufinit ws
  | 0x23 => .ok .drvinit ws
  | 0x30 => .ok (.hwinit (w.extractLsb' 16 8) (w.extractLsb' 8 8) (w.getLsbD 24)) ws
  | 0x31 => .ok (.setbaud (w.extractLsb' 8 8)) ws
  | 0x32 => .ok .cfgflt ws
  | 0x33 => decodeFrame ws .tx1
  | 0x34 => .ok .rx1 ws
  | 0x35 => .ok .geterr ws
  | 0x36 => .ok .deinit ws
  | 0x80 => .ok (.evClk (w.getLsbD 8)) ws
  | 0x81 => .ok .evTxdone ws
  | 0x82 => decodeFrame ws .evRxframe
  | 0x83 => .ok (.evErrcnt (w.extractLsb' 8 8) (w.extractLsb' 16 8)) ws
  | 0x84 => .ok .evBusoff ws
  | 0x85 => .ok .evThl ws
  | 0x86 => .ok .evDlcerr ws
  | 0x90 => .ok .isr ws
  | _ => .bad .reservedSelector

/-- The decoder: total on any words, "the decoder reports it invalid" by name (R95). -/
def decode (ws : List Word) : DecodeResult :=
  match ws with
  | [] => .bad .noWord
  | w :: rest =>
    match formatOf (opOf w) with
    | none => .bad .reservedSelector
    | some k => if w &&& k.zeroBits = 0#32 then decodeOperands w rest else .bad .reservedBitSet

/-- The selector of an instruction (R90). -/
def Instr.selector (i : Instr) : Byte :=
  match i with
  | .enqtx _ => 0x01#8
  | .deqrx => 0x02#8
  | .tick => 0x10#8
  | .reqshut => 0x11#8
  | .draintx => 0x20#8
  | .fillrx => 0x21#8
  | .bufinit => 0x22#8
  | .drvinit => 0x23#8
  | .hwinit _ _ _ => 0x30#8
  | .setbaud _ => 0x31#8
  | .cfgflt => 0x32#8
  | .tx1 _ => 0x33#8
  | .rx1 => 0x34#8
  | .geterr => 0x35#8
  | .deinit => 0x36#8
  | .evClk _ => 0x80#8
  | .evTxdone => 0x81#8
  | .evRxframe _ => 0x82#8
  | .evErrcnt _ _ => 0x83#8
  | .evBusoff => 0x84#8
  | .evThl => 0x85#8
  | .evDlcerr => 0x86#8
  | .isr => 0x90#8

/-- A first word: a selector under 24 operand bits. -/
def firstWord (operands : BitVec 24) (op : Byte) : Word := operands ++ op

/-- The request words of an instruction (R89). -/
def encode (i : Instr) : List Word :=
  match i with
  | .hwinit m r fd => [firstWord (BitVec.setWidth 8 (BitVec.ofBool fd) ++ m ++ r) 0x30#8]
  | .setbaud r => [firstWord (r.setWidth 24) 0x31#8]
  | .evClk b => [firstWord (BitVec.setWidth 24 (BitVec.ofBool b)) 0x80#8]
  | .evErrcnt t r => [firstWord (0#8 ++ r ++ t) 0x83#8]
  | .enqtx f => firstWord 0#24 0x01#8 :: f.image
  | .tx1 f => firstWord 0#24 0x33#8 :: f.image
  | .evRxframe g => firstWord 0#24 0x82#8 :: g.image
  | .deqrx => [firstWord 0#24 0x02#8]
  | .tick => [firstWord 0#24 0x10#8]
  | .reqshut => [firstWord 0#24 0x11#8]
  | .draintx => [firstWord 0#24 0x20#8]
  | .fillrx => [firstWord 0#24 0x21#8]
  | .bufinit => [firstWord 0#24 0x22#8]
  | .drvinit => [firstWord 0#24 0x23#8]
  | .cfgflt => [firstWord 0#24 0x32#8]
  | .rx1 => [firstWord 0#24 0x34#8]
  | .geterr => [firstWord 0#24 0x35#8]
  | .deinit => [firstWord 0#24 0x36#8]
  | .evTxdone => [firstWord 0#24 0x81#8]
  | .evBusoff => [firstWord 0#24 0x84#8]
  | .evThl => [firstWord 0#24 0x85#8]
  | .evDlcerr => [firstWord 0#24 0x86#8]
  | .isr => [firstWord 0#24 0x90#8]

/-- The agent that issues or takes an operation (R90). -/
def Instr.agent (i : Instr) : Agent :=
  match i with
  | .enqtx _ => .app
  | .deqrx => .app
  | .tick => .sched
  | .reqshut => .host
  | .draintx => .drv
  | .fillrx => .drv
  | .bufinit => .drv
  | .drvinit => .drv
  | .hwinit _ _ _ => .drv
  | .setbaud _ => .drv
  | .cfgflt => .drv
  | .tx1 _ => .drv
  | .rx1 => .drv
  | .geterr => .drv
  | .deinit => .drv
  | .evClk _ => .clk
  | .evTxdone => .ctrl
  | .evRxframe _ => .bus
  | .evErrcnt _ _ => .bus
  | .evBusoff => .bus
  | .evThl => .ctrl
  | .evDlcerr => .ctrl
  | .isr => .isr

/-- The length of a request, "fixed by its selector: five words for the selectors of format F, one word otherwise" (R89). -/
def requestLength (op : Byte) : Nat := if formatOf op = some .f then 5 else 1

/-- Word `k` of an instruction whose bits are `w`, bit 0 the least significant bit of the first word. -/
def wordAt (w k : Nat) : Word := BitVec.ofNat 32 (w >>> (32 * k))

/-- The request words of an instruction whose low `nbits` bits are those of `w` and whose other bits are 0. -/
def requestWords (nbits w : Nat) : List Word :=
  (List.range (requestLength (opOf (wordAt (w % 2 ^ nbits) 0)))).map (wordAt (w % 2 ^ nbits))

/-- The instruction the decoder reads from an opcode-table row's bits. -/
def decodeTableWord (nbits w : Nat) : Option Instr :=
  match decode (requestWords nbits w) with
  | .ok i [] => some i
  | .ok _ (_ :: _) => none
  | .bad _ => none

end Sys2Proof
end

