-- ==== Sys2Proof/Machine/State.lean ====
section
/-! DEFINITION. The state of CANDRV (10_state.md), the reasons a request ends without a next state, and power-on reset
(10_state.md R58, 70_reset_and_hazards.md R220). -/

namespace Sys2Proof.Machine

/-- DriverState (10_state.md R16). -/
inductive DriverState where
  | init | activeOperation | errorHandling | shutdown
deriving DecidableEq, Repr

/-- CTL.MODE (R32). -/
inductive CtlMode where
  | reset | configuration | normal
deriving DecidableEq, Repr

/-- The results of the buffer operations (30_encoding.md R85). -/
inductive Status where
  | success | full | empty | hardwareNotReady
deriving DecidableEq, Repr

/-- One bit per interrupt source: transmit-history, FIFO-message-lost, DLC-error. CTL.IE, CTL.IF and ERRLOG have this
shape (R29, R37, R38). -/
structure IrqBits where
  th : Bool
  ml : Bool
  de : Bool
deriving DecidableEq, Repr

/-- The receive FIFO a filter rule feeds: `dst` has one legal value (R36). -/
inductive RxDest where
  | rxFifo0
deriving DecidableEq, Repr

/-- The rule registers CTL.FLT[i] (R36). -/
structure FilterReg where
  id : Word
  mask : Word
  dst : RxDest
deriving DecidableEq, Repr

/-- The transmit mailbox CTL.TXMB (R40 to R42). -/
structure Mailbox where
  id : Word
  dlc : Byte
  data0 : Word
  data1 : Word
deriving DecidableEq, Repr

/-- The controller's registers (R30 to R49). CTL.RXEMPTY and CTL.RXW are derived (Flags.lean, Operands.lean) and CTL.RXPC
holds nothing (Ops.lean). -/
structure Ctl where
  /-- CTL.MODSEL (R30) -/
  modSel : Byte
  /-- CTL.CLKSTABLE (R31) -/
  clkStable : Bool
  /-- CTL.MODE (R32) -/
  mode : CtlMode
  /-- CTL.FDEN (R33) -/
  fdEn : Bool
  /-- CTL.NBT (R34) -/
  nbt : Word
  /-- CTL.FLT_WE (R35) -/
  fltWe : Bool
  /-- CTL.FLT_N (R36) -/
  fltN : Nat
  /-- CTL.FLT[0], CTL.FLT[1], ...: the rule registers that hold a value (R36, log 13) -/
  flt : List FilterReg
  /-- CTL.IE (R37) -/
  ie : IrqBits
  /-- CTL.IF (R38) -/
  ifl : IrqBits
  /-- CTL.RXIP (R39) -/
  rxip : Bool
  /-- CTL.TXMB (R40 to R42) -/
  txmb : Mailbox
  /-- CTL.TXREQ (R43) -/
  txReq : Bool
  /-- CTL.HWRX, oldest first (R44) -/
  hwrx : List CanFrame
  /-- CTL.BO (R48) -/
  bo : Bool
  /-- CTL.TEC (R49) -/
  tec : Byte
  /-- CTL.REC (R49) -/
  recCnt : Byte
deriving DecidableEq, Repr

/-- A slot space: (slot index, cell) pairs, indices strictly rising, no cell equal to what an unlisted slot reads as
(20_memory.md R60; Memory.lean, log 4). -/
abbrev SlotMem := List (Nat × CanFrame)

/-- A circular buffer: TXF (R20) or RXR (R24). -/
structure Ring where
  slots : SlotMem
  wr : Nat
  rd : Nat
deriving DecidableEq, Repr

/-- A frame the controller has put on the bus: `data` holds only its first `dlc` bytes (R56). -/
structure BusFrame where
  id : Word
  dlc : Byte
  data : List Byte
deriving DecidableEq, Repr

/-- The error record of GETERR (41_hri_ops.md R141). -/
structure ErrRecord where
  busOff : Bool
  txErrorCount : Byte
  rxErrorCount : Byte
deriving DecidableEq, Repr

/-- An entry of HRI_LOG: a call with its arguments and result (10_state.md R57). The frame of a TX1 or RX1 stands in it whole,
all eight payload bytes, those at positions `dlc` and above too (DESIGN CHOICE, unsafe, log 23). -/
inductive HriCall where
  | tx1 (f : CanFrame) (ok : Bool)
  /-- `none` for `RX1() = false`, the delivered frame for `RX1() = true, f` -/
  | rx1 (out : Option CanFrame)
  | hwinit (modSel rate : Byte) (fd : Bool) (ok : Bool)
  | setbaud (rate : Byte) (ok : Bool)
  | cfgflt (ok : Bool)
  | geterr (e : ErrRecord)
  | deinit
deriving DecidableEq, Repr

/-- The answer to a request: its selector and the response words (30_encoding.md R91). -/
structure Response where
  op : Byte
  words : List Word
deriving DecidableEq, Repr

/-- The requests that call HWINIT, and so can be inside its clock wait (41_hri_ops.md R122; 42_state_machine.md R151,
R152, R157). -/
inductive DrvCall where
  | hwinit (modSel rate : Byte) (fd : Bool)
  | drvinit
  | tick
deriving DecidableEq, Repr

/-- The state of CANDRV. Plain data. -/
structure State where
  /-- CONFIG, constant over a run (00_scope.md R9, 20_memory.md R76; log 2) -/
  cfg : Config
  /-- DS (10_state.md R16) -/
  ds : DriverState
  /-- SHUTREQ (R27) -/
  shutReq : Bool
  /-- TXF (R20, R21) -/
  txf : Ring
  /-- RXR (R24, R25) -/
  rxr : Ring
  /-- ERRLOG (R29) -/
  errLog : IrqBits
  /-- CTL.* (R30 to R49) -/
  ctl : Ctl
  /-- BUS_OUT, oldest first (R56) -/
  busOut : List BusFrame
  /-- HRI_LOG, oldest first (R57) -/
  hriLog : List HriCall
  /-- the answers given so far, oldest first (R13, 30_encoding.md R91; log 7) -/
  respLog : List Response
  /-- the output buffer APP hands to DEQRX (40_buffer_ops.md R109; log 5) -/
  appOut : CanFrame
  /-- the output cell of an RX1 issued by its own selector (41_hri_ops.md R136; log 5) -/
  hriOut : CanFrame
  /-- the output record of a GETERR issued by its own selector (R141; log 5) -/
  errOut : ErrRecord
  /-- the request words not yet served (30_encoding.md R89; log 6) -/
  inbox : List Word
  /-- the request DRV is inside while it waits in HWINIT's clock wait under `CLK_WAIT_MAX = inf` (00_scope.md R12,
  41_hri_ops.md R122; log 9) -/
  drvWait : Option DrvCall
  /-- for each coming boundary inside a request, the steps other agents take there (20_memory.md R71; log 1) -/
  sched : List (List Instr)
deriving DecidableEq, Repr

/-- The three storage spaces' slot part (20_memory.md R60). -/
inductive SlotSpace where
  | transmit | receive
deriving DecidableEq, Repr

/-- Reasons the machine stops. "No operation faults or traps" (00_scope.md R12): the one reason is the model's. -/
inductive Fault where
  /-- Raised by a slot access whose index is not below the capacity: there is no such slot (20_memory.md R60, R64). No
  sound state reaches it. Safe: the machine stops where the spec gives no access (log 10). -/
  | noSuchSlot (space : SlotSpace) (index : Nat)
deriving DecidableEq, Repr

/-- Reasons a request, or the run that contains it, has no meaning in the spec (00_scope.md R12). All are safe: nothing
can be concluded of a run that contains one. -/
inductive Refusal where
  /-- Raised by `exec` for an instruction that has no meaning in this model yet. -/
  | notModelled (mnemonic : String)
  /-- Raised by `step`: the words spell no operation (30_encoding.md R95). -/
  | invalidRequest (e : DecodeError)
  /-- Raised by HWINIT with `fdEnable = true` (41_hri_ops.md R121). -/
  | canFdRequested
  /-- Raised by HWINIT with a module selector not below N_MODULES (R121). -/
  | noSuchModule
  /-- Raised by SETBAUD when CTL.MODE is not Configuration (R128). -/
  | setbaudOutsideConfiguration
  /-- Raised by CFGFLT when CTL.MODE is not Configuration (R130). -/
  | cfgfltOutsideConfiguration
  /-- Raised by CFGFLT when CTL.FLT_WE is 0 (R130). -/
  | filterTableLocked
  /-- Raised by a write of CTL.RXPC with CTL.HWRX empty (10_state.md R47). No operation does it. -/
  | advanceOnEmptyFifo
  /-- Raised when an APP or HOST step is scheduled at a boundary inside an operation, or a DEQRX or REQSHUT arrives
  while DRV is stuck inside one (20_memory.md R71 (h), R73). -/
  | taskStepInsideOperation
  /-- Raised when a SCHED or DRV request is scheduled inside another, or arrives while DRV waits inside one (R73,
  41_hri_ops.md R146, 70_reset_and_hazards.md R241). -/
  | overlappingRequest
deriving DecidableEq, Repr

/-- The all-zero frame. -/
def zeroFrame : CanFrame := ⟨0#32, 0#8, ⟨0#8, 0#8, 0#8, 0#8, 0#8, 0#8, 0#8, 0#8⟩⟩

/-- The values that power-on reset leaves unspecified (10_state.md R58; 93_implementation_defined.md U1 to U3), and the
model's own fields. "the model draws a value and no rule may depend on it" (R58). -/
structure ResetDraws where
  txSlots : SlotMem
  rxSlots : SlotMem
  modSel : Byte
  clkStable : Bool
  nbt : Word
  flt : List FilterReg
  txmb : Mailbox
  appOut : CanFrame
  hriOut : CanFrame
  errOut : ErrRecord
deriving DecidableEq, Repr

/-- The draw that `State.reset` takes: zero everywhere (DESIGN CHOICE, unsafe, log 3). -/
def ResetDraws.zero : ResetDraws where
  txSlots := []
  rxSlots := []
  modSel := 0#8
  clkStable := false
  nbt := 0#32
  flt := []
  txmb := ⟨0#32, 0#8, 0#32, 0#32⟩
  appOut := zeroFrame
  hriOut := zeroFrame
  errOut := ⟨false, 0#8, 0#8⟩

/-- The controller after power-on reset (R58). -/
def Ctl.resetWith (d : ResetDraws) : Ctl where
  modSel := d.modSel
  clkStable := d.clkStable
  mode := .reset
  fdEn := false
  nbt := d.nbt
  fltWe := true
  fltN := 0
  flt := d.flt
  ie := ⟨false, false, false⟩
  ifl := ⟨false, false, false⟩
  rxip := false
  txmb := d.txmb
  txReq := false
  hwrx := []
  bo := false
  tec := 0#8
  recCnt := 0#8

/-- Power-on reset under CONFIG `c`, with the unspecified values `d` (R58, 70_reset_and_hazards.md R220). -/
def State.resetWith (c : Config) (d : ResetDraws) : State where
  cfg := c
  ds := .init
  shutReq := false
  txf := ⟨d.txSlots, 0, 0⟩
  rxr := ⟨d.rxSlots, 0, 0⟩
  errLog := ⟨false, false, false⟩
  ctl := Ctl.resetWith d
  busOut := []
  hriLog := []
  respLog := []
  appOut := d.appOut
  hriOut := d.hriOut
  errOut := d.errOut
  inbox := []
  drvWait := none
  sched := []

/-- The machine right after power-on reset. -/
def State.reset : State := State.resetWith Config.atReset ResetDraws.zero

end Sys2Proof.Machine
end

