-- ==== Sys2Proof/Machine/Memory.lean ====
section
/-! DEFINITION. The slot spaces as stored data: reading and writing one cell of a `SlotMem`, and its canonical form
(20_memory.md R60; log 4). -/

namespace Sys2Proof.Machine

/-- What a slot that is not listed reads as: "an unspecified value" in the spec (10_state.md R19), the all-zero cell in this
model (DESIGN CHOICE, unsafe, log 4). -/
def Memory.unlisted : CanFrame := zeroFrame

/-- The cell at slot index `i` (`SlotRead` of 00_scope.md R11). -/
def Memory.read (m : SlotMem) (i : Nat) : CanFrame :=
  match m with
  | [] => Memory.unlisted
  | (j, c) :: rest => if j = i then c else Memory.read rest i

/-- `m` without an entry for slot `i`. -/
def Memory.erase (m : SlotMem) (i : Nat) : SlotMem :=
  match m with
  | [] => []
  | (j, c) :: rest => if j = i then Memory.erase rest i else (j, c) :: Memory.erase rest i

/-- `m` with the entry `(i, c)` before the first entry of a larger index. -/
def Memory.insert (m : SlotMem) (i : Nat) (c : CanFrame) : SlotMem :=
  match m with
  | [] => [(i, c)]
  | (j, d) :: rest => if i < j then (i, c) :: (j, d) :: rest else (j, d) :: Memory.insert rest i c

/-- `m` with cell `c` at slot index `i` (`SlotWrite` of R11, all fields at once). -/
def Memory.write (m : SlotMem) (i : Nat) (c : CanFrame) : SlotMem :=
  if c = Memory.unlisted then Memory.erase m i else Memory.insert (Memory.erase m i) i c

/-- Every index of `m` is above `lo`, indices rise strictly, and no cell is the unlisted one. -/
def Memory.wfAbove (lo : Nat) (m : SlotMem) : Bool :=
  match m with
  | [] => true
  | (j, c) :: rest => decide (lo ≤ j) && decide (c ≠ Memory.unlisted) && Memory.wfAbove (j + 1) rest

/-- The canonical form: two slot spaces in it with equal cells are equal data. -/
def Memory.wf (m : SlotMem) : Bool := Memory.wfAbove 0 m

/-- Every listed index names one of `cap` slots. -/
def Memory.below (cap : Nat) (m : SlotMem) : Bool := m.all (fun e => decide (e.1 < cap))

end Sys2Proof.Machine
end

