-- ==== Sys2Proof/Machine/Flags.lean ====
section
/-! DEFINITION. The derived flags and counts that operations test (10_state.md R22, R26, R45, R50), the interrupt line
(60_exceptions.md R200) and the enabling conditions of the events (43_controller_events.md R183). -/

namespace Sys2Proof.Machine

/-- The pointer advance `(p + 1) mod C` (10_state.md R21, R25; 40_buffer_ops.md R114 (1)). -/
def nextIndex (cap p : Nat) : Nat := (p + 1) % cap

/-- TxEmpty, RxEmpty: `rd = wr` (R22, R26). -/
def Ring.isEmpty (r : Ring) : Bool := decide (r.rd = r.wr)

/-- TxFull, RxFull: `(wr + 1) mod C = rd` (R22, R26). -/
def Ring.isFull (cap : Nat) (r : Ring) : Bool := decide (nextIndex cap r.wr = r.rd)

/-- TxCount, RxCount: `(wr - rd) mod C` (R22, R26; 40_buffer_ops.md R114 (2)). -/
def Ring.count (cap : Nat) (r : Ring) : Nat := if r.rd ≤ r.wr then r.wr - r.rd else r.wr + cap - r.rd

/-- CTL.RXEMPTY (R45). -/
def Ctl.rxEmpty (c : Ctl) : Bool := c.hwrx.isEmpty

/-- The flag of the first record that is set and enabled, source by source. -/
def IrqBits.both (a b : IrqBits) : IrqBits := ⟨a.th && b.th, a.ml && b.ml, a.de && b.de⟩

/-- At least one bit is set. -/
def IrqBits.any (a : IrqBits) : Bool := a.th || a.ml || a.de

/-- The one interrupt line from the controller to the ISR (60_exceptions.md R200). -/
def Ctl.irqLine (c : Ctl) : Bool := (c.ifl.both c.ie).any

/-- The controller takes part in bus traffic: `Normal` mode and not bus-off (10_state.md R32, R48). -/
def Ctl.onBus (c : Ctl) : Bool := decide (c.mode = .normal) && !c.bo

/-- EV_TXDONE has a step (43_controller_events.md R172). -/
def Ctl.txDoneEnabled (c : Ctl) : Bool := c.onBus && c.txReq

/-- EV_ERRCNT, EV_THL and EV_DLCERR have a step (R177, R180, R181). -/
def Ctl.inNormal (c : Ctl) : Bool := decide (c.mode = .normal)

/-- One rule register accepts an identifier: "a mask bit 1 means this identifier bit must equal the rule's" (R175). -/
def FilterReg.accepts (r : FilterReg) (x : Word) : Bool := decide (x &&& r.mask = r.id &&& r.mask)

/-- The filter match over the installed rules CTL.FLT[0 .. FLT_N-1] (R175). -/
def Ctl.accepts (c : Ctl) (x : Word) : Bool := (c.flt.take c.fltN).any (fun r => r.accepts x)

/-- DriverState numbers (30_encoding.md R84). -/
def DriverState.code (d : DriverState) : BitVec 2 :=
  match d with
  | .init => 0#2
  | .activeOperation => 1#2
  | .errorHandling => 2#2
  | .shutdown => 3#2

/-- Controller mode numbers; 3 is reserved and never written (R86). -/
def CtlMode.code (m : CtlMode) : BitVec 2 :=
  match m with
  | .reset => 0#2
  | .configuration => 1#2
  | .normal => 2#2

end Sys2Proof.Machine
end

