-- ==== Sys2Proof/Machine/Operands.lean ====
section
/-! DEFINITION. The operand and result forms of the operations: DLC clamp and byte copy (40_buffer_ops.md R100, R101),
mailbox and receive window (10_state.md R40 to R46), baud-rate lookup (41_hri_ops.md R126), response words
(30_encoding.md R85, R88, R91, R92). -/

namespace Sys2Proof.Machine

/-- `min(dlc, 8)` (40_buffer_ops.md R101, 41_hri_ops.md R138). -/
def clampDlc (d : Byte) : Byte := if d.toNat ≤ 8 then d else 8#8

/-- `dst` with its bytes at positions below `n` taken from `src` (R100, R109). -/
def copyBytes (n : Nat) (src dst : Payload) : Payload where
  b0 := if 0 < n then src.b0 else dst.b0
  b1 := if 1 < n then src.b1 else dst.b1
  b2 := if 2 < n then src.b2 else dst.b2
  b3 := if 3 < n then src.b3 else dst.b3
  b4 := if 4 < n then src.b4 else dst.b4
  b5 := if 5 < n then src.b5 else dst.b5
  b6 := if 6 < n then src.b6 else dst.b6
  b7 := if 7 < n then src.b7 else dst.b7

/-- What ENQTX leaves in the cell: `id`, the clamped `dlc` and that many payload bytes, the cell's other bytes kept
(40_buffer_ops.md R100, R101). -/
def enqueuedCell (f old : CanFrame) : CanFrame :=
  ⟨f.id, clampDlc f.dlc, copyBytes (clampDlc f.dlc).toNat f.data old.data⟩

/-- What DEQRX leaves in the caller's output: `id`, `dlc` and `dlc` payload bytes of the cell, the output's other bytes
kept (R109, R110). -/
def dequeuedFrame (cell out : CanFrame) : CanFrame :=
  ⟨cell.id, cell.dlc, copyBytes cell.dlc.toNat cell.data out.data⟩

/-- The mailbox after TX1 of `f` (41_hri_ops.md R132; 10_state.md R40 to R42). -/
def Mailbox.ofFrame (f : CanFrame) : Mailbox := ⟨f.id, f.dlc, f.data.window0, f.data.window1⟩

/-- The frame the mailbox puts on the bus: `min(dlc, 8)` bytes (43_controller_events.md R172). -/
def Mailbox.busFrame (m : Mailbox) : BusFrame :=
  ⟨m.id, clampDlc m.dlc, (Payload.ofWindows m.data0 m.data1).bytes.take (clampDlc m.dlc).toNat⟩

/-- CTL.RXW.ID (10_state.md R46). -/
def State.rxwId (s : State) : Word :=
  match s.ctl.hwrx with
  | h :: _ => h.id
  | [] => Config.emptyRxwId s.hriLog.length

/-- CTL.RXW.DLC (R46). -/
def State.rxwDlc (s : State) : Byte :=
  match s.ctl.hwrx with
  | h :: _ => h.dlc
  | [] => Config.emptyRxwDlc s.hriLog.length

/-- CTL.RXW.DATA0 (R46). -/
def State.rxwData0 (s : State) : Word :=
  match s.ctl.hwrx with
  | h :: _ => h.data.window0
  | [] => Config.emptyRxwData0 s.hriLog.length

/-- CTL.RXW.DATA1 (R46). -/
def State.rxwData1 (s : State) : Word :=
  match s.ctl.hwrx with
  | h :: _ => h.data.window1
  | [] => Config.emptyRxwData1 s.hriLog.length

/-- The frame RX1 copies out of the window: `id`, the clamped `dlc`, all eight bytes (41_hri_ops.md R136 to R138). -/
def State.windowFrame (s : State) : CanFrame :=
  ⟨s.rxwId, clampDlc s.rxwDlc, Payload.ofWindows s.rxwData0 s.rxwData1⟩

/-- The timing value that stands first under `rate` in a list of supported rates. -/
def lookupRate (rate : Byte) (table : List (Byte × Word)) : Option Word :=
  match table with
  | [] => none
  | (r, v) :: rest => if r = rate then some v else lookupRate rate rest

/-- NBT_OF(rate) for a rate in SUPPORTED; none for any other number, a member of RATES or not (41_hri_ops.md R126,
R127; 30_encoding.md R93). -/
def timingOf (c : Config) (rate : Byte) : Option Word :=
  if rate.toNat < c.rates.length then lookupRate rate c.nbtOf else none

/-- The rule register that CFGFLT writes for an AcceptanceRule (41_hri_ops.md R129). -/
def FilterReg.ofRule (r : AcceptanceRule) : FilterReg := ⟨r.id, r.mask, .rxFifo0⟩

/-- The rule registers that CFGFLT writes, in rule order (R129). -/
def filterRegs (c : Config) : List FilterReg := c.filterTable.map FilterReg.ofRule

/-- The error record GETERR reads (R141). -/
def Ctl.errRecord (c : Ctl) : ErrRecord := ⟨c.bo, c.tec, c.recCnt⟩

/-- Status numbers (30_encoding.md R85). -/
def Status.code (r : Status) : Word :=
  match r with
  | .success => 0#32
  | .full => 1#32
  | .empty => 2#32
  | .hardwareNotReady => 3#32

/-- Boolean numbers (R88). -/
def boolCode (b : Bool) : Word := if b then 1#32 else 0#32

/-- "A void operation ... reports the result code 0" (R88). -/
def voidCode : Word := 0#32

/-- GETERR's response word (R92). -/
def ErrRecord.word (e : ErrRecord) : Word :=
  0#8 ++ e.rxErrorCount ++ e.txErrorCount ++ BitVec.setWidth 8 (BitVec.ofBool e.busOff)

end Sys2Proof.Machine
end

