-- ==== Sys2Proof/Machine/Ops.lean ====
section
/-! DEFINITION. The named operations over State: one update per field, slot and register accesses (00_scope.md R11,
20_memory.md R61), entry into Reset mode (41_hri_ops.md R123), taking an interrupt and returning from it
(60_exceptions.md R203, R205, R206), the histories and the answer to a request. -/

namespace Sys2Proof.Machine

/-- An outcome of this machine with a result of any type. -/
abbrev Res (α : Type) := Host.Outcome α Fault Refusal

/-- Go on with `f` after `x`; a fault or a refusal ends the request. -/
def andThen {α β : Type} (x : Res α) (f : α → Res β) : Res β :=
  match x with
  | .next a => f a
  | .fault r => .fault r
  | .refused r => .refused r

/-! One update per field. -/

def State.setDs (s : State) (d : DriverState) : State := { s with ds := d }
def State.setShutReq (s : State) (b : Bool) : State := { s with shutReq := b }
def State.setTxf (s : State) (r : Ring) : State := { s with txf := r }
def State.setRxr (s : State) (r : Ring) : State := { s with rxr := r }
def State.setErrLog (s : State) (e : IrqBits) : State := { s with errLog := e }
def State.setCtl (s : State) (c : Ctl) : State := { s with ctl := c }
def State.setAppOut (s : State) (f : CanFrame) : State := { s with appOut := f }
def State.setHriOut (s : State) (f : CanFrame) : State := { s with hriOut := f }
def State.setErrOut (s : State) (e : ErrRecord) : State := { s with errOut := e }
def State.setInbox (s : State) (ws : List Word) : State := { s with inbox := ws }
def State.setDrvWait (s : State) (c : Option DrvCall) : State := { s with drvWait := c }
def State.setSched (s : State) (xs : List (List Instr)) : State := { s with sched := xs }

/-- Append to BUS_OUT (10_state.md R56). -/
def State.pushBus (s : State) (f : BusFrame) : State := { s with busOut := s.busOut ++ [f] }

/-- Append to HRI_LOG (10_state.md R57, 41_hri_ops.md R147). -/
def State.pushHri (s : State) (c : HriCall) : State := { s with hriLog := s.hriLog ++ [c] }

/-- Answer a request (30_encoding.md R91). -/
def State.respond (s : State) (op : Byte) (ws : List Word) : State :=
  { s with respLog := s.respLog ++ [⟨op, ws⟩] }

/-! Slots (20_memory.md R60, R61). -/

/-- The capacity of a slot space (00_scope.md R6, R7). -/
def capacity (c : Config) (sp : SlotSpace) : Nat :=
  match sp with
  | .transmit => c.cTx
  | .receive => c.cRx

/-- The buffer of a slot space. -/
def State.ring (s : State) (sp : SlotSpace) : Ring :=
  match sp with
  | .transmit => s.txf
  | .receive => s.rxr

/-- Replace the buffer of a slot space. -/
def State.setRing (s : State) (sp : SlotSpace) (r : Ring) : State :=
  match sp with
  | .transmit => s.setTxf r
  | .receive => s.setRxr r

/-- The cell at slot index `i`, whether or not there is such a slot: the model's read of one cell. -/
def State.cell (s : State) (sp : SlotSpace) (i : Nat) : CanFrame := Memory.read (s.ring sp).slots i

/-- `SlotRead(buf, i)` (00_scope.md R11). -/
def slotRead (sp : SlotSpace) (i : Nat) (s : State) : Res CanFrame :=
  if i < capacity s.cfg sp then .next (s.cell sp i) else .fault (.noSuchSlot sp i)

/-- `SlotWrite(buf, i, ...)` of all fields of a cell (R11). -/
def slotWrite (sp : SlotSpace) (i : Nat) (c : CanFrame) (s : State) : Res State :=
  if i < capacity s.cfg sp then
    .next (s.setRing sp { s.ring sp with slots := Memory.write (s.ring sp).slots i c })
  else .fault (.noSuchSlot sp i)

/-- `wr <- p` (10_state.md R21, R25). -/
def State.setWr (s : State) (sp : SlotSpace) (p : Nat) : State := s.setRing sp { s.ring sp with wr := p }

/-- `rd <- p` (R21, R25). -/
def State.setRd (s : State) (sp : SlotSpace) (p : Nat) : State := s.setRing sp { s.ring sp with rd := p }

/-! Controller registers (10_state.md R30 to R49). -/

def State.setModSel (s : State) (m : Byte) : State := s.setCtl { s.ctl with modSel := m }
def State.setClkStable (s : State) (b : Bool) : State := s.setCtl { s.ctl with clkStable := b }
def State.setMode (s : State) (m : CtlMode) : State := s.setCtl { s.ctl with mode := m }
def State.setFdEn (s : State) (b : Bool) : State := s.setCtl { s.ctl with fdEn := b }
def State.setNbt (s : State) (v : Word) : State := s.setCtl { s.ctl with nbt := v }
def State.setIe (s : State) (e : IrqBits) : State := s.setCtl { s.ctl with ie := e }
def State.setIfl (s : State) (e : IrqBits) : State := s.setCtl { s.ctl with ifl := e }
def State.setRxip (s : State) (b : Bool) : State := s.setCtl { s.ctl with rxip := b }
def State.setHwrx (s : State) (l : List CanFrame) : State := s.setCtl { s.ctl with hwrx := l }
def State.setTxReq (s : State) (b : Bool) : State := s.setCtl { s.ctl with txReq := b }
def State.setBo (s : State) (b : Bool) : State := s.setCtl { s.ctl with bo := b }
def State.setCounters (s : State) (t r : Byte) : State := s.setCtl { s.ctl with tec := t, recCnt := r }

/-- Load the mailbox and assert the transmit-request bit (41_hri_ops.md R132). -/
def State.loadMailbox (s : State) (f : CanFrame) : State :=
  s.setCtl { s.ctl with txmb := Mailbox.ofFrame f, txReq := true }

/-- Install the filter rules in rule order, then FLT_N, then lock the table (R129). Registers above N_RULES keep what they
held (log 13). -/
def State.installFilters (s : State) (rs : List FilterReg) : State :=
  s.setCtl { s.ctl with flt := rs ++ s.ctl.flt.drop rs.length, fltN := rs.length, fltWe := false }

/-- `RegWrite(CTL.RXPC, ADVANCE)`: the receive FIFO steps to its next element; "the model refuses it" on an empty FIFO
(10_state.md R47). -/
def advanceRx (s : State) : Res State :=
  match s.ctl.hwrx with
  | _ :: rest => .next (s.setHwrx rest)
  | [] => .refused .advanceOnEmptyFifo

/-- `CTL.MODE <- Reset` with its side effects (41_hri_ops.md R123). -/
def Ctl.enterReset (c : Ctl) : Ctl :=
  { c with
    mode := .reset
    txReq := false
    hwrx := []
    rxip := false
    ifl := ⟨false, false, false⟩
    ie := ⟨false, false, false⟩
    bo := false
    tec := 0#8
    recCnt := 0#8
    fltWe := true }

/-- Entry into Reset mode (R123). It touches the controller only (70_reset_and_hazards.md R221). -/
def State.enterReset (s : State) : State := s.setCtl s.ctl.enterReset

/-! The exception of CANDRV: the interrupt (60_exceptions.md R200 to R206). -/

/-- Latch in `log` each source of `active` (R203). -/
def IrqBits.latch (log active : IrqBits) : IrqBits :=
  ⟨log.th || active.th, log.ml || active.ml, log.de || active.de⟩

/-- Clear in `flags` each source of `active` (R203). -/
def IrqBits.clear (flags active : IrqBits) : IrqBits :=
  ⟨flags.th && !active.th, flags.ml && !active.ml, flags.de && !active.de⟩

/-- Taking the interrupt: "saves no state that any rule of this spec can see and changes none but what rule R203 lists"
(R205): every source that is set and enabled is latched in ERRLOG and cleared in CTL.IF. -/
def takeInterrupt (s : State) : State :=
  (s.setErrLog (s.errLog.latch (s.ctl.ifl.both s.ctl.ie))).setIfl (s.ctl.ifl.clear (s.ctl.ifl.both s.ctl.ie))

/-- Returning from the interrupt: "nothing is restored because nothing was saved" (R206). -/
def returnFromInterrupt (s : State) : State := s

end Sys2Proof.Machine
end

