-- ==== Sys2Proof/Machine/Events.lean ====
section
/-! DEFINITION. The steps of the controller, the bus, the clock and the interrupt context: EV_CLK, EV_TXDONE, EV_RXFRAME,
EV_ERRCNT, EV_BUSOFF, EV_THL, EV_DLCERR (43_controller_events.md) and ISR (60_exceptions.md R203). Each is one micro-step
(20_memory.md R71 (g)). "an event offered while it is disabled ... changes nothing" (43_controller_events.md R171). -/

namespace Sys2Proof.Machine

/-- The answer `ws` to the request `i` (30_encoding.md R91). -/
def answer (i : Instr) (ws : List Word) (s : State) : State := s.respond i.selector ws

/-- Storing an accepted frame, or losing it on a full FIFO (R176). -/
def storeReceived (g : CanFrame) (s : State) : State :=
  if s.ctl.hwrx.length < s.cfg.hwrxDepth then (s.setHwrx (s.ctl.hwrx ++ [g])).setRxip true
  else s.setIfl { s.ctl.ifl with ml := true }

/-- A frame arrives from the bus (R174): ignored off the bus, dropped where no installed rule matches, else stored. -/
def frameArrives (g : CanFrame) (s : State) : State :=
  if s.ctl.onBus && s.ctl.accepts g.id then storeReceived g s else s

/-- The controller sends the mailbox frame (R172). -/
def mailboxSent (s : State) : State := (s.pushBus s.ctl.txmb.busFrame).setTxReq false

/-- EV_CLK (R170). -/
def execEvClk (stable : Bool) (s : State) : Host.Outcome State Fault Refusal :=
  .next (answer (.evClk stable) [voidCode] (s.setClkStable stable))

/-- EV_TXDONE (R172, R173). -/
def execEvTxdone (s : State) : Host.Outcome State Fault Refusal :=
  if s.ctl.txDoneEnabled then .next (answer .evTxdone [voidCode] (mailboxSent s)) else .next s

/-- EV_RXFRAME (R174 to R176): always enabled, "it has an effect only if `CTL.MODE = Normal` and `CTL.BO = 0`". -/
def execEvRxframe (g : CanFrame) (s : State) : Host.Outcome State Fault Refusal :=
  .next (answer (.evRxframe g) [voidCode] (frameArrives g s))

/-- EV_ERRCNT (R177). -/
def execEvErrcnt (tec recCnt : Byte) (s : State) : Host.Outcome State Fault Refusal :=
  if s.ctl.inNormal then .next (answer (.evErrcnt tec recCnt) [voidCode] (s.setCounters tec recCnt)) else .next s

/-- EV_BUSOFF (R178). -/
def execEvBusoff (s : State) : Host.Outcome State Fault Refusal :=
  if s.ctl.onBus then .next (answer .evBusoff [voidCode] (s.setBo true)) else .next s

/-- EV_THL (R180). -/
def execEvThl (s : State) : Host.Outcome State Fault Refusal :=
  if s.ctl.inNormal then .next (answer .evThl [voidCode] (s.setIfl { s.ctl.ifl with th := true })) else .next s

/-- EV_DLCERR (R181). -/
def execEvDlcerr (s : State) : Host.Outcome State Fault Refusal :=
  if s.ctl.inNormal then .next (answer .evDlcerr [voidCode] (s.setIfl { s.ctl.ifl with de := true })) else .next s

/-- ISR (60_exceptions.md R203): enabled while the interrupt line is asserted; entry, body and return in one micro-step
(R205, R206). -/
def execIsr (s : State) : Host.Outcome State Fault Refusal :=
  if s.ctl.irqLine then .next (answer .isr [voidCode] (returnFromInterrupt (takeInterrupt s))) else .next s

end Sys2Proof.Machine
end

