-- ==== Sys2Proof/Machine/AppOps.lean ====
section
/-! DEFINITION. The requests of APP and HOST: ENQTX, DEQRX (40_buffer_ops.md R100 to R102, R109 to R111) and REQSHUT
(42_state_machine.md R160). Each is one micro-step (20_memory.md R71 (a)). None reads DS (40_buffer_ops.md R113). -/

namespace Sys2Proof.Machine

/-- `enqueueTransmit(frame)` (R100): the slot first, the write-pointer last (20_memory.md R72). -/
def enqueueTransmit (f : CanFrame) (s : State) : Res (State × Status) :=
  if s.txf.isFull s.cfg.cTx then .next (s, .full)
  else
    andThen (slotRead .transmit s.txf.wr s) fun old =>
      andThen (slotWrite .transmit s.txf.wr (enqueuedCell f old) s) fun s' =>
        .next (s'.setWr .transmit (nextIndex s.cfg.cTx s.txf.wr), .success)

/-- `dequeueReceive(out)` (R109, R110): the copy first, the read-pointer last (20_memory.md R72). -/
def dequeueReceive (s : State) : Res (State × Status) :=
  if s.rxr.isEmpty then .next (s, .empty)
  else
    andThen (slotRead .receive s.rxr.rd s) fun cell =>
      .next ((s.setAppOut (dequeuedFrame cell s.appOut)).setRd .receive (nextIndex s.cfg.cRx s.rxr.rd), .success)

/-- DEQRX's response: the status, then on Success the image of the output buffer (30_encoding.md R91). -/
def dequeueWords (out : CanFrame) (r : Status) : List Word :=
  match r with
  | .success => r.code :: out.image
  | .full => [r.code]
  | .empty => [r.code]
  | .hardwareNotReady => [r.code]

/-- ENQTX (R100). -/
def execEnqtx (f : CanFrame) (s : State) : Host.Outcome State Fault Refusal :=
  andThen (enqueueTransmit f s) fun r => .next (answer (.enqtx f) [r.2.code] r.1)

/-- DEQRX (R109). -/
def execDeqrx (s : State) : Host.Outcome State Fault Refusal :=
  andThen (dequeueReceive s) fun r => .next (answer .deqrx (dequeueWords r.1.appOut r.2) r.1)

/-- REQSHUT (42_state_machine.md R160). -/
def execReqshut (s : State) : Host.Outcome State Fault Refusal :=
  .next (answer .reqshut [voidCode] (s.setShutReq true))

end Sys2Proof.Machine
end

