-- ==== Sys2Proof/Machine/Interleave.lean ====
section
/-! DEFINITION. The micro-step boundaries inside a request (20_memory.md R70, R71): what the other agents do there stands
in `State.sched`, one list of steps per boundary, so that every interleaving of R70 is the run of some state (log 1). -/

namespace Sys2Proof.Machine

/-- Where a boundary lies: between two operation calls, or between the micro-steps of one operation (R71 (f), (h)). -/
inductive Boundary where
  | betweenCalls
  | insideOperation
deriving DecidableEq, Repr

/-- APP and HOST "may step at every boundary that is not inside an operation" (R71 (h)): the place alone decides. -/
def taskStep (k : Boundary) (r : Res State) : Res State :=
  match k with
  | .betweenCalls => r
  | .insideOperation => .refused .taskStepInsideOperation

/-- One step of another agent at a boundary: "CTRL, BUS, CLK and ISR may step at every boundary" (R71 (h)); no SCHED or
DRV request overlaps another (R73, 41_hri_ops.md R146, 70_reset_and_hazards.md R241). -/
def interject (k : Boundary) (i : Instr) (s : State) : Res State :=
  match i with
  | .evClk stable => execEvClk stable s
  | .evTxdone => execEvTxdone s
  | .evRxframe g => execEvRxframe g s
  | .evErrcnt tec recCnt => execEvErrcnt tec recCnt s
  | .evBusoff => execEvBusoff s
  | .evThl => execEvThl s
  | .evDlcerr => execEvDlcerr s
  | .isr => execIsr s
  | .enqtx f => taskStep k (execEnqtx f s)
  | .deqrx => taskStep k (execDeqrx s)
  | .reqshut => taskStep k (execReqshut s)
  | .tick => .refused .overlappingRequest
  | .draintx => .refused .overlappingRequest
  | .fillrx => .refused .overlappingRequest
  | .bufinit => .refused .overlappingRequest
  | .drvinit => .refused .overlappingRequest
  | .hwinit _ _ _ => .refused .overlappingRequest
  | .setbaud _ => .refused .overlappingRequest
  | .cfgflt => .refused .overlappingRequest
  | .tx1 _ => .refused .overlappingRequest
  | .rx1 => .refused .overlappingRequest
  | .geterr => .refused .overlappingRequest
  | .deinit => .refused .overlappingRequest

/-- The steps taken at one boundary, in order. -/
def interjectAll (k : Boundary) (steps : List Instr) (s : State) : Res State :=
  match steps with
  | [] => .next s
  | i :: rest => andThen (interject k i s) (interjectAll k rest)

/-- A boundary: the steps scheduled for it are taken; with none scheduled nothing happens. -/
def boundary (k : Boundary) (s : State) : Res State :=
  match s.sched with
  | [] => .next s
  | steps :: later => interjectAll k steps (s.setSched later)

/-- A SCHED or DRV request: it has no meaning while DRV is still inside an earlier one (R73, 41_hri_ops.md R146,
70_reset_and_hazards.md R241). -/
def drvRequest (s : State) (r : Res State) : Res State :=
  if s.drvWait.isSome then .refused .overlappingRequest else r

end Sys2Proof.Machine
end

