-- ==== Sys2Proof/Machine/Hri.lean ====
section
/-! DEFINITION. The Hardware Register Interface (41_hri_ops.md): HWINIT, SETBAUD, CFGFLT, TX1, RX1, GETERR, DEINIT. An
operation that DRV's own operations call directly logs itself in HRI_LOG (R147). -/

namespace Sys2Proof.Machine

/-- `setBaudRate(rate)` (R126 to R128): it writes CTL.NBT even when it fails. -/
def setBaudRate (rate : Byte) (s : State) : Res (State × Bool) :=
  if s.ctl.mode = .configuration then
    match timingOf s.cfg rate with
    | some v => .next (s.setNbt v, true)
    | none => .next (s.setNbt s.cfg.nbtDefault, false)
  else .refused .setbaudOutsideConfiguration

/-- `configureAcceptanceFilters()` (R129, R130): it never returns false. -/
def configureFilters (s : State) : Res State :=
  if s.ctl.mode = .configuration then
    if s.ctl.fltWe then .next (s.installFilters (filterRegs s.cfg))
    else .refused .filterTableLocked
  else .refused .cfgfltOutsideConfiguration

/-- `transmitOne(frame)` (R132 to R134), with its log entry (R147), which holds the whole frame (DESIGN CHOICE, log 23). -/
def transmitOne (f : CanFrame) (s : State) : State × Bool :=
  if s.ctl.txReq then (s.pushHri (.tx1 f false), false)
  else ((s.loadMailbox f).pushHri (.tx1 f true), true)

/-- Micro-step b of `receiveOne` (R136): the delivered frame, or none on an empty FIFO. The log entry holds the whole frame
(DESIGN CHOICE, log 23). -/
def receiveFromFifo (s : State) : Res (State × Option CanFrame) :=
  if s.ctl.rxEmpty then .next (s.pushHri (.rx1 none), none)
  else
    andThen (advanceRx s) fun s' => .next (s'.pushHri (.rx1 (some s.windowFrame)), some s.windowFrame)

/-- `receiveOne(out)` (R136 to R139): micro-step a clears CTL.RXIP; other agents may step; micro-step b (20_memory.md
R71 (b)). -/
def receiveOne (s : State) : Res (State × Option CanFrame) :=
  andThen (boundary .insideOperation (s.setRxip false)) receiveFromFifo

/-- `getErrorFlags(out)` (R141), with its log entry (R147). -/
def getErrorFlags (s : State) : State × ErrRecord := (s.pushHri (.geterr s.ctl.errRecord), s.ctl.errRecord)

/-- "de-initialize hardware" (R144), with its log entry (R147). -/
def deinitHardware (s : State) : State :=
  ((s.setIe ⟨false, false, false⟩).enterReset).pushHri .deinit

/-- How an initialization ends: with true, with false, or not at all while DRV waits (00_scope.md R12). -/
inductive Progress where
  | succeeded | failed | waiting
deriving DecidableEq, Repr

/-- At most `n + 1` reads of CTL.CLKSTABLE, one micro-step each (R122; 20_memory.md R71 (e)); whether one saw it set. -/
def pollClock (n : Nat) (s : State) : Res (State × Bool) :=
  match n with
  | 0 => .next (s, s.ctl.clkStable)
  | m + 1 =>
    if s.ctl.clkStable then .next (s, true)
    else andThen (boundary .insideOperation s) (pollClock m)

/-- The clock wait (R122): "at most `CLK_WAIT_MAX` reads are made", none with `CLK_WAIT_MAX = 0` (42_state_machine.md R162,
92_eei_decisions.md D11; log 17). With `inf` HWINIT "has no enabled step while `CTL.CLKSTABLE = 0`": it reads a flag
that is 1, or DRV is stuck (R122, 00_scope.md R12; log 9). -/
def clockWait (s : State) : Res (State × Progress) :=
  match s.cfg.clkWaitMax with
  | some 0 => .next (s, .failed)
  | some (m + 1) =>
    andThen (pollClock m s) fun r =>
      .next (r.1, if r.2 then .succeeded else .failed)
  | none => .next (s, if s.ctl.clkStable then .succeeded else .waiting)

/-- Steps 3 to 10 of HWINIT, one micro-step (R120, R124; 20_memory.md R71 (e)). -/
def configureController (rate : Byte) (fd : Bool) (s : State) : Res (State × Bool) :=
  andThen (setBaudRate rate ((s.enterReset.setMode .configuration).setFdEn fd)) fun b =>
    if b.2 then
      andThen (configureFilters b.1) fun s' =>
        .next ((s'.setIe ⟨true, true, true⟩).setMode .normal, true)
    else .next (b.1, false)

/-- HWINIT after its clock wait: steps 3 to 10, with the log entry of the call (R120, R147). -/
def finishInit (modSel rate : Byte) (fd : Bool) (s : State) : Res (State × Progress) :=
  andThen (configureController rate fd s) fun r =>
    .next (r.1.pushHri (.hwinit modSel rate fd r.2), if r.2 then .succeeded else .failed)

/-- HWINIT from the end `w` of its clock wait on (R120, R122). Where the wait has no end yet, DRV is inside this HWINIT. -/
def afterClock (modSel rate : Byte) (fd : Bool) (w : State × Progress) : Res (State × Progress) :=
  match w.2 with
  | .succeeded => andThen (boundary .insideOperation w.1) (finishInit modSel rate fd)
  | .failed => .next (w.1.pushHri (.hwinit modSel rate fd false), .failed)
  | .waiting => .next (w.1.setDrvWait (some (.hwinit modSel rate fd)), .waiting)

/-- `initialize(module, baudRate, fdEnable)` (R120 to R125), with its log entry (R147). -/
def initHardware (modSel rate : Byte) (fd : Bool) (s : State) : Res (State × Progress) :=
  if fd then .refused .canFdRequested
  else if s.cfg.nModules ≤ modSel.toNat then .refused .noSuchModule
  else andThen (clockWait (s.setModSel modSel)) (afterClock modSel rate fd)

/-- HWINIT taken up again when DRV's wait has ended: a read saw CTL.CLKSTABLE set (R122). -/
def resumeHardware (modSel rate : Byte) (fd : Bool) (s : State) : Res (State × Progress) :=
  afterClock modSel rate fd (s.setDrvWait none, .succeeded)

/-- The request that a call is. -/
def DrvCall.request (c : DrvCall) : Instr :=
  match c with
  | .hwinit modSel rate fd => .hwinit modSel rate fd
  | .drvinit => .drvinit
  | .tick => .tick

/-- The answer to the request `c` that reports how an initialization ended; while DRV waits there is none, and DRV is
inside `c`. -/
def answerProgress (c : DrvCall) (p : Progress) (s : State) : State :=
  match p with
  | .succeeded => answer c.request [boolCode true] s
  | .failed => answer c.request [boolCode false] s
  | .waiting => s.setDrvWait (some c)

/-- HWINIT (R120). -/
def execHwinit (modSel rate : Byte) (fd : Bool) (s : State) : Host.Outcome State Fault Refusal :=
  drvRequest s (andThen (initHardware modSel rate fd s) fun r =>
    .next (answerProgress (.hwinit modSel rate fd) r.2 r.1))

/-- SETBAUD issued by its own selector: "it is logged as itself" (R126, R147). -/
def execSetbaud (rate : Byte) (s : State) : Host.Outcome State Fault Refusal :=
  drvRequest s (andThen (setBaudRate rate s) fun r =>
    .next (answer (.setbaud rate) [boolCode r.2] (r.1.pushHri (.setbaud rate r.2))))

/-- CFGFLT issued by its own selector (R129, R147). -/
def execCfgflt (s : State) : Host.Outcome State Fault Refusal :=
  drvRequest s (andThen (configureFilters s) fun s' =>
    .next (answer .cfgflt [boolCode true] (s'.pushHri (.cfgflt true))))

/-- TX1 (R132). -/
def execTx1 (f : CanFrame) (s : State) : Host.Outcome State Fault Refusal :=
  drvRequest s (.next (answer (.tx1 f) [boolCode (transmitOne f s).2] (transmitOne f s).1))

/-- What an RX1 issued by its own selector leaves in its output cell, and its answer (R136, 30_encoding.md R91). -/
def deliverHri (out : Option CanFrame) (s : State) : State :=
  match out with
  | some f => answer .rx1 (boolCode true :: f.image) (s.setHriOut f)
  | none => answer .rx1 [boolCode false] s

/-- RX1 (R136). -/
def execRx1 (s : State) : Host.Outcome State Fault Refusal :=
  drvRequest s (andThen (receiveOne s) fun r => .next (deliverHri r.2 r.1))

/-- GETERR (R141); its response word is the record (30_encoding.md R92). -/
def execGeterr (s : State) : Host.Outcome State Fault Refusal :=
  drvRequest s
    (.next (answer .geterr [(getErrorFlags s).2.word] ((getErrorFlags s).1.setErrOut (getErrorFlags s).2)))

/-- DEINIT (R144). -/
def execDeinit (s : State) : Host.Outcome State Fault Refusal :=
  drvRequest s (.next (answer .deinit [voidCode] (deinitHardware s)))

end Sys2Proof.Machine
end

