-- ==== Sys2Proof/Machine/Buffer.lean ====
section
/-! DEFINITION. The buffer operations of DRV: DRAINTX (40_buffer_ops.md R103 to R105), FILLRX (R106 to R108) and BUFINIT
(R112). -/

namespace Sys2Proof.Machine

/-- `drainTransmit()` (R103, R104), one micro-step with its TX1 (20_memory.md R71 (c)). -/
def drainTransmit (s : State) : Res (State × Status) :=
  if s.txf.isEmpty then .next (s, .empty)
  else
    andThen (slotRead .transmit s.txf.rd s) fun f =>
      if (transmitOne f s).2 then
        .next ((transmitOne f s).1.setRd .transmit (nextIndex s.cfg.cTx s.txf.rd), .success)
      else .next ((transmitOne f s).1, .hardwareNotReady)

/-- `fillReceive()` (R106, R107): the full test with RX1's micro-step a, then micro-step b with the index advance
(20_memory.md R71 (d)). The output of RX1 is the slot at the write-pointer. -/
def fillReceive (s : State) : Res (State × Status) :=
  if s.rxr.isFull s.cfg.cRx then .next (s, .full)
  else
    andThen (receiveOne s) fun r =>
      match r.2 with
      | none => .next (r.1, .empty)
      | some f =>
        andThen (slotWrite .receive s.rxr.wr f r.1) fun s' =>
          .next (s'.setWr .receive (nextIndex s.cfg.cRx s.rxr.wr), .success)

/-- Both buffers emptied by resetting the four indices; slots are not cleared (R112). -/
def initBuffers (s : State) : State :=
  (s.setTxf { s.txf with wr := 0, rd := 0 }).setRxr { s.rxr with wr := 0, rd := 0 }

/-- DRAINTX (R103). -/
def execDraintx (s : State) : Host.Outcome State Fault Refusal :=
  drvRequest s (andThen (drainTransmit s) fun r => .next (answer .draintx [r.2.code] r.1))

/-- FILLRX (R106). -/
def execFillrx (s : State) : Host.Outcome State Fault Refusal :=
  drvRequest s (andThen (fillReceive s) fun r => .next (answer .fillrx [r.2.code] r.1))

/-- BUFINIT (R112). -/
def execBufinit (s : State) : Host.Outcome State Fault Refusal :=
  drvRequest s (.next (answer .bufinit [voidCode] (initBuffers s)))

end Sys2Proof.Machine
end

