-- ==== Sys2Proof/Machine/Task.lean ====
section
/-! DEFINITION. The periodic task (42_state_machine.md): DRVINIT (R152) and TICK (R150 to R159). Other agents may step at
every boundary between two calls (20_memory.md R71 (f), (h)). -/

namespace Sys2Proof.Machine

/-- DRVINIT from the end of its HWINIT on: BUFINIT, whatever HWINIT returned (R152). -/
def afterHardware (r : State × Progress) : Res (State × Progress) :=
  match r.2 with
  | .waiting => .next r
  | .succeeded => andThen (boundary .betweenCalls r.1) fun s' => .next (initBuffers s', .succeeded)
  | .failed => andThen (boundary .betweenCalls r.1) fun s' => .next (initBuffers s', .failed)

/-- DRVINIT (R152): HWINIT with the configured arguments, then BUFINIT. -/
def initDriver (s : State) : Res (State × Progress) :=
  andThen (initHardware s.cfg.cfgModule s.cfg.cfgRate s.cfg.cfgFd s) afterHardware

/-- "on success moves to ActiveOperation; on failure remains" (R151, R157). -/
def enterActiveOn (p : Progress) (s : State) : State :=
  match p with
  | .succeeded => s.setDs .activeOperation
  | .failed => s
  | .waiting => s

/-- The burst (R150, R154): at most `n` FILLRX calls, "stopping at the first non-success". -/
def fillBurst (n : Nat) (s : State) : Res State :=
  match n with
  | 0 => .next s
  | m + 1 =>
    andThen (boundary .betweenCalls s) fun s' =>
      andThen (fillReceive s') fun r =>
        if r.2 = .success then fillBurst m r.1 else .next r.1

/-- `BusError()` (R156). -/
def busError (s : State) : Res (State × Bool) :=
  match s.cfg.busErrPolicy with
  | .never => .next (s, false)
  | .busOffFlag =>
    andThen (boundary .betweenCalls s) fun s' =>
      .next ((getErrorFlags s').1, (getErrorFlags s').2.busOff)

/-- A cycle in Init (R151). -/
def cycleInit (s : State) : Res State :=
  andThen (initDriver s) fun r => .next (enterActiveOn r.2 r.1)

/-- A cycle in ActiveOperation (R154, R155): one drain, the burst, the bus-error hook. -/
def cycleActive (s : State) : Res State :=
  andThen (drainTransmit s) fun d =>
    andThen (fillBurst s.cfg.rxBurst d.1) fun s' =>
      andThen (busError s') fun e => .next (if e.2 then e.1.setDs .errorHandling else e.1)

/-- A cycle in ErrorHandling (R157): the configured recovery. -/
def cycleErrorHandling (s : State) : Res State :=
  match s.cfg.recoveryPolicy with
  | .reinitEachTick =>
    andThen (initHardware s.cfg.cfgModule s.cfg.cfgRate s.cfg.cfgFd s) fun r =>
      .next (enterActiveOn r.2 r.1)

/-- The work of a cycle in the current state (R150). "In state Shutdown a TICK does nothing" (R158). -/
def cycleWork (s : State) : Res State :=
  match s.ds with
  | .init => cycleInit s
  | .activeOperation => cycleActive s
  | .errorHandling => cycleErrorHandling s
  | .shutdown => .next s

/-- The shutdown step (R158). -/
def shutDown (s : State) : State := (deinitHardware s).setDs .shutdown

/-- One TICK (R150): "a pending `SHUTREQ` wins over the work of the current state" (60_exceptions.md R202 (d)). -/
def periodicTask (s : State) : Res State :=
  if s.shutReq = true ∧ s.ds ≠ .shutdown then .next (shutDown s) else cycleWork s

/-- DRVINIT (R152). -/
def execDrvinit (s : State) : Host.Outcome State Fault Refusal :=
  drvRequest s (andThen (initDriver s) fun r => .next (answerProgress .drvinit r.2 r.1))

/-- The end of a TICK; there is none, and no answer, while DRV waits inside it (70_reset_and_hazards.md R232). -/
def finishTick (s : State) : State :=
  match s.drvWait with
  | none => answer .tick [voidCode] s
  | some _ => s.setDrvWait (some .tick)

/-- TICK (R150). -/
def execTick (s : State) : Host.Outcome State Fault Refusal :=
  drvRequest s (andThen (periodicTask s) fun s' => .next (finishTick s'))

/-- DRV goes on inside the request `c` after its clock wait: in HWINIT, in DRVINIT, or in the Init or ErrorHandling cycle
of a TICK, which alone call them (R151, R157). -/
def resumeRequest (c : DrvCall) (s : State) : Res State :=
  match c with
  | .hwinit modSel rate fd =>
    andThen (resumeHardware modSel rate fd s) fun r => .next (answerProgress c r.2 r.1)
  | .drvinit =>
    andThen (resumeHardware s.cfg.cfgModule s.cfg.cfgRate s.cfg.cfgFd s) fun r =>
      andThen (afterHardware r) fun d => .next (answerProgress c d.2 d.1)
  | .tick =>
    match s.ds with
    | .init =>
      andThen (resumeHardware s.cfg.cfgModule s.cfg.cfgRate s.cfg.cfgFd s) fun r =>
        andThen (afterHardware r) fun d => .next (finishTick (enterActiveOn d.2 d.1))
    | .errorHandling =>
      andThen (resumeHardware s.cfg.cfgModule s.cfg.cfgRate s.cfg.cfgFd s) fun r =>
        .next (finishTick (enterActiveOn r.2 r.1))
    | .activeOperation => .next s
    | .shutdown => .next s

end Sys2Proof.Machine
end

