-- ==== Sys2Proof/Machine/Dispatch.lean ====
section
/-! DEFINITION. The dispatch of the operations and events to their meanings, one arm per constructor of Instr. -/

namespace Sys2Proof.Machine

def exec (i : Instr) (s : State) : Host.Outcome State Fault Refusal :=
  match i with
  | .enqtx f => Sys2Proof.Machine.execEnqtx f s
  | .deqrx => Sys2Proof.Machine.execDeqrx s
  | .tick => Sys2Proof.Machine.execTick s
  | .reqshut => Sys2Proof.Machine.execReqshut s
  | .draintx => Sys2Proof.Machine.execDraintx s
  | .fillrx => Sys2Proof.Machine.execFillrx s
  | .bufinit => Sys2Proof.Machine.execBufinit s
  | .drvinit => Sys2Proof.Machine.execDrvinit s
  | .hwinit modSel rate fd => Sys2Proof.Machine.execHwinit modSel rate fd s
  | .setbaud rate => Sys2Proof.Machine.execSetbaud rate s
  | .cfgflt => Sys2Proof.Machine.execCfgflt s
  | .tx1 f => Sys2Proof.Machine.execTx1 f s
  | .rx1 => Sys2Proof.Machine.execRx1 s
  | .geterr => Sys2Proof.Machine.execGeterr s
  | .deinit => Sys2Proof.Machine.execDeinit s
  | .evClk stable => Sys2Proof.Machine.execEvClk stable s
  | .evTxdone => Sys2Proof.Machine.execEvTxdone s
  | .evRxframe g => Sys2Proof.Machine.execEvRxframe g s
  | .evErrcnt tec recCnt => Sys2Proof.Machine.execEvErrcnt tec recCnt s
  | .evBusoff => Sys2Proof.Machine.execEvBusoff s
  | .evThl => Sys2Proof.Machine.execEvThl s
  | .evDlcerr => Sys2Proof.Machine.execEvDlcerr s
  | .isr => Sys2Proof.Machine.execIsr s

end Sys2Proof.Machine
end

