-- ==== Sys2Proof/Machine/Fetch.lean ====
section
/-! DEFINITION. Where requests come from: the words in `inbox` (30_encoding.md R89; log 6). -/

namespace Sys2Proof.Machine

/-- The first request of `inbox`, and the state with its words taken out. -/
def fetch (s : State) : Res (Instr × State) :=
  match decode s.inbox with
  | .ok i rest => .next (i, s.setInbox rest)
  | .bad e => .refused (.invalidRequest e)

/-- Put the words of an instruction, as an opcode-table row's bits give them, before the words of `inbox`. -/
def placeRequest (s : State) (nbits w : Nat) : State := s.setInbox (requestWords nbits w ++ s.inbox)

end Sys2Proof.Machine
end

