-- ==== Sys2Proof/Machine/Serve.lean ====
section
/-! DEFINITION. What the machine does next: a DRV that is stuck inside a request goes on with it once the clock is stable
(log 9); else the next request of `inbox` is served (20_memory.md R70; log 1, log 6). -/

namespace Sys2Proof.Machine

/-- The request that DRV is inside and can go on with: stuck in the unbounded clock wait, it has an enabled step again once
CTL.CLKSTABLE is 1 (41_hri_ops.md R122, 00_scope.md R12; log 9). -/
def readyCall (s : State) : Option DrvCall := if s.ctl.clkStable then s.drvWait else none

/-- A request of APP or HOST that is not admitted while DRV is inside an operation (20_memory.md R71 (h)). ENQTX is not one:
"DRV is stuck inside HWINIT ... ENQTX fills `TXF` and then returns Full for ever" (70_reset_and_hazards.md R232; log 9). -/
def barredInside (i : Instr) : Bool :=
  match i with
  | .deqrx => true
  | .reqshut => true
  | .enqtx _ => false
  | .tick => false
  | .draintx => false
  | .fillrx => false
  | .bufinit => false
  | .drvinit => false
  | .hwinit _ _ _ => false
  | .setbaud _ => false
  | .cfgflt => false
  | .tx1 _ => false
  | .rx1 => false
  | .geterr => false
  | .deinit => false
  | .evClk _ => false
  | .evTxdone => false
  | .evRxframe _ => false
  | .evErrcnt _ _ => false
  | .evBusoff => false
  | .evThl => false
  | .evDlcerr => false
  | .isr => false

/-- One request served: it runs, but for a step of APP or HOST that falls inside HWINIT, where DRV is stuck. -/
def serveRequest (i : Instr) (s : State) : Res State :=
  if s.drvWait.isSome && barredInside i then .refused .taskStepInsideOperation else exec i s

/-- The next request of `inbox` is served whole; with none there "CANDRV waits for requests and events"
(70_reset_and_hazards.md R220). -/
def serveInbox (s : State) : Res State :=
  match s.inbox with
  | [] => .next s
  | _ :: _ => andThen (fetch s) fun p => serveRequest p.1 p.2

/-- DRV, no longer stuck, is inside the operation HWINIT before its read of CTL.CLKSTABLE: a boundary of R71 (e), where CLK
may still clear the flag (R122). A read that finds it set lets the request go on; else DRV is stuck again. -/
def goOn (c : DrvCall) (s : State) : Res State :=
  andThen (boundary .insideOperation s) fun u =>
    if u.ctl.clkStable then resumeRequest c u else .next u

/-- DRV's own next move where it has one inside a request, else the next request. -/
def serveNext (s : State) : Res State :=
  match readyCall s with
  | some c => goOn c s
  | none => serveInbox s

end Sys2Proof.Machine
end

