-- ==== Sys2Proof/Machine/Step.lean ====
section
/-! DEFINITION. One step of CANDRV, and where its next request is placed. -/

namespace Sys2Proof.Machine

def step (s : State) : Host.Outcome State Fault Refusal := serveNext s

/-- `s` with the given instruction as its next request. -/
def State.withFetchWord (s : State) (nbits w : Nat) : State := placeRequest s nbits w

end Sys2Proof.Machine
end

