-- ==== Sys2Proof/WellFormed.lean ====
section
/-! DEFINITION. Which CONFIG is sound (00_scope.md R6 to R9) and which instruction a sound CONFIG gives a meaning to
whatever the state (41_hri_ops.md R121). Every instruction term has an encoding: its operands are bit vectors of the width
of their field (30_encoding.md R93). -/

namespace Sys2Proof

/-- "`C_TX >= 2` is required for the FIFO to hold any frame" (R6). -/
def Config.cTxOk (c : Config) : Bool := decide (2 ≤ c.cTx)

/-- `C_RX >= 2` (R7). -/
def Config.cRxOk (c : Config) : Bool := decide (2 ≤ c.cRx)

/-- RX_BURST is a natural `>= 1` (R9). -/
def Config.rxBurstOk (c : Config) : Bool := decide (1 ≤ c.rxBurst)

/-- N_MODULES is a natural `>= 1` (R9). -/
def Config.nModulesOk (c : Config) : Bool := decide (1 ≤ c.nModules)

/-- HWRX_DEPTH is a natural `>= 1` (R9). -/
def Config.hwrxDepthOk (c : Config) : Bool := decide (1 ≤ c.hwrxDepth)

/-- "`RATES` has at most 256 members" (30_encoding.md R87), and it is a set: no name stands twice. -/
def Config.ratesOk (c : Config) : Bool := decide (c.rates.length ≤ 256) && decide c.rates.Nodup

/-- SUPPORTED is a subset of RATES (R9), and NBT_OF gives each supported rate one value. -/
def Config.supportedOk (c : Config) : Bool :=
  c.nbtOf.all (fun e => decide (e.1.toNat < c.rates.length)) && decide (c.nbtOf.map Prod.fst).Nodup

/-- CFG_MODULE is a module selector and CFG_RATE a member of RATES (R9); `CFG_FD = false` (92_eei_decisions.md D12). -/
def Config.initArgsOk (c : Config) : Bool :=
  decide (c.cfgModule.toNat < c.nModules) && decide (c.cfgRate.toNat < c.rates.length) && !c.cfgFd

/-- The storage parameters are as R6 to R9 require: enough for every operation's arithmetic. -/
def Config.sizesOk (c : Config) : Bool :=
  c.cTxOk && c.cRxOk && c.rxBurstOk && c.nModulesOk && c.hwrxDepthOk

/-- CONFIG is as the table of R9 requires. -/
def Config.wellFormed (c : Config) : Bool :=
  c.sizesOk && c.ratesOk && c.supportedOk && c.initArgsOk

/-- The instruction is one the spec gives a meaning under `c`: HWINIT with a module below N_MODULES and without CAN-FD
(41_hri_ops.md R121); every other instruction. -/
def Instr.wellFormed (c : Config) (i : Instr) : Bool :=
  match i with
  | .hwinit m _ fd => decide (m.toNat < c.nModules) && !fd
  | .enqtx _ => true
  | .deqrx => true
  | .tick => true
  | .reqshut => true
  | .draintx => true
  | .fillrx => true
  | .bufinit => true
  | .drvinit => true
  | .setbaud _ => true
  | .cfgflt => true
  | .tx1 _ => true
  | .rx1 => true
  | .geterr => true
  | .deinit => true
  | .evClk _ => true
  | .evTxdone => true
  | .evRxframe _ => true
  | .evErrcnt _ _ => true
  | .evBusoff => true
  | .evThl => true
  | .evDlcerr => true
  | .isr => true

end Sys2Proof
end

