-- ==== Sys2Proof/Safety.lean ====
section
/-! DEFINITION. What a sound state and a safe step are: the invariants the spec states of the state (10_state.md R18, R21,
R22, R25, R26, R36, R44) and of the state machine (42_state_machine.md R161), and the queues the two buffers hold. -/

namespace Sys2Proof.Machine

/-- The frames a buffer holds, oldest first: `slot[(rd + k) mod C]` for `k = 0 .. count-1` (10_state.md R22, R26). -/
def Ring.queue (cap : Nat) (r : Ring) : List CanFrame :=
  (List.range (r.count cap)).map (fun k => Memory.read r.slots ((r.rd + k) % cap))

/-- The frames queued in TXF (R22). -/
def State.txQueue (s : State) : List CanFrame := s.txf.queue s.cfg.cTx

/-- The unread frames in RXR (R26). -/
def State.rxQueue (s : State) : List CanFrame := s.rxr.queue s.cfg.cRx

/-- Both indices name a slot (R21, R25), the cells are in canonical form, each in a slot there is, and "every frame stored
in a buffer slot ... satisfies `dlc <= 8`" (R18). -/
abbrev Ring.Sound (cap : Nat) (r : Ring) : Prop :=
  r.wr < cap ∧ r.rd < cap ∧ Memory.wf r.slots = true ∧ Memory.below cap r.slots = true ∧
    ∀ e ∈ r.slots, e.2.dlc.toNat ≤ 8

/-- The state invariants of 10_state.md: sound sizes, sound buffers, the receive FIFO within its depth (R44), a rule
register for each installed rule (R36). -/
abbrev State.Sound (s : State) : Prop :=
  s.cfg.sizesOk = true ∧ s.txf.Sound s.cfg.cTx ∧ s.rxr.Sound s.cfg.cRx ∧
    s.ctl.hwrx.length ≤ s.cfg.hwrxDepth ∧ s.ctl.fltN ≤ s.ctl.flt.length

/-- The controller is as R161 says it is while `DS = ActiveOperation`. -/
abbrev State.Operating (s : State) : Prop :=
  s.ctl.mode = .normal ∧ s.ctl.fltWe = false ∧ s.ctl.flt.take s.ctl.fltN = filterRegs s.cfg ∧
    s.ctl.ie = ⟨true, true, true⟩ ∧ timingOf s.cfg s.cfg.cfgRate = some s.ctl.nbt ∧ s.ctl.fdEn = false

/-- The controller is as R161 says it is while `DS = Shutdown`. -/
abbrev State.Quiet (s : State) : Prop :=
  s.ctl.mode = .reset ∧ s.ctl.ie = ⟨false, false, false⟩

/-- The invariant of the state machine (R161), and: a DRV that waits is inside the TICK of a state that calls HWINIT, whose
arguments were accepted (41_hri_ops.md R121). -/
abbrev State.Lifecycle (s : State) : Prop :=
  (s.ds = .activeOperation → s.Operating) ∧ (s.ds = .shutdown → s.Quiet) ∧
    (s.drvWait = none ∨ (s.drvWait = some .tick ∧ s.cfg.cfgFd = false ∧ (s.ds = .init ∨ s.ds = .errorHandling)))

/-- A step that does not stop the machine with a fault: "No operation faults or traps" (00_scope.md R12). -/
abbrev State.StepsSafely (s : State) : Prop := ∀ r, step s ≠ .fault r

/-- The words of `inbox` begin with none that spell an operation, for the reason `e`: the decoder says so, and the step that
serves them (a DRV that can go on inside a request does so first, log 9) refuses them (30_encoding.md R95). -/
abbrev State.RejectsWords (s : State) (e : DecodeError) : Prop :=
  decode s.inbox = .bad e ∧ (readyCall s = none → step s = .refused (.invalidRequest e))

/-- The requests `is` served one after another, with nothing between them. -/
def serve (is : List Instr) (s : State) : Res State :=
  match is with
  | [] => .next s
  | i :: rest => andThen (exec i s) (serve rest)

/-- An instruction of the hardware and environment agents or of the interrupt context, which may step at every boundary
(20_memory.md R71 (h)). -/
def isEnv (i : Instr) : Bool :=
  match i.agent with
  | .ctrl => true
  | .bus => true
  | .clk => true
  | .isr => true
  | .app => false
  | .host => false
  | .sched => false
  | .drv => false

/-- An instruction of APP or HOST, which may step between two operation calls (R71 (h)). -/
def isTask (i : Instr) : Bool :=
  match i.agent with
  | .app => true
  | .host => true
  | .ctrl => false
  | .bus => false
  | .clk => false
  | .isr => false
  | .sched => false
  | .drv => false

/-- Every step scheduled for a boundary is one of the environment's or of the interrupt context's. -/
abbrev EnvOnly (steps : List Instr) : Prop := ∀ i ∈ steps, isEnv i = true

/-- The arguments the state machine passes to HWINIT are ones it accepts (41_hri_ops.md R121, 70_reset_and_hazards.md
R225 (3)). -/
abbrev InitAccepted (c : Config) : Prop := c.cfgModule.toNat < c.nModules ∧ c.cfgFd = false

/-- The controller after a HWINIT of module `m` that failed closed on its rate: Configuration mode, the default timing, the
filter table not installed, and the side effects of the entry into Reset mode (41_hri_ops.md R123, R124, R127). -/
def failedInit (cfg : Config) (m : Byte) (c : Ctl) : Ctl :=
  { c with
    modSel := m, mode := .configuration, fdEn := false, nbt := cfg.nbtDefault, fltWe := true
    ie := ⟨false, false, false⟩, ifl := ⟨false, false, false⟩
    rxip := false, txReq := false, hwrx := [], bo := false, tec := 0#8, recCnt := 0#8 }

/-- The frame RX1 delivers for a frame of the controller's FIFO: `dlc` clamped, all else as it was (41_hri_ops.md R137,
R138). -/
def delivered (g : CanFrame) : CanFrame := { g with dlc := if g.dlc.toNat ≤ 8 then g.dlc else 8#8 }

end Sys2Proof.Machine
end

