-- ==== Sys2Proof/Certificates/Slice0/Obligations.lean ====
section
/-! DEFINITION. The statements about CANDRV for the provers. Each docstring names the rules of spec/ it formalises and, as
'log <n>', the entries of notes/assumptions/ for what in it is the model's own form or choice. The answers in `respLog` are
the response words of 30_encoding.md R91 and R92, kept there by log 7. A cell's bytes are read with `State.cell`. -/

open Sys2Proof Sys2Proof.Machine

/-! ## Encodings and the step -/

/-- R89, R90, R93: decoding the request words of any instruction gives it back, whatever follows. -/
def Obligations.DecodeGivesBackEncoded : Prop :=
  ∀ (i : Instr) (rest : List Word), decode (encode i ++ rest) = .ok i rest

/-- R89, R90, R93, R95: words that decode are the request words of what they decode to: each instruction has one
encoding. -/
def Obligations.DecodedWordsAreItsEncoding : Prop :=
  ∀ (ws : List Word) (i : Instr) (rest : List Word), decode ws = .ok i rest → encode i ++ rest = ws

/-- R89, R90: words written out from the format table, one per format. -/
def Obligations.WordsOfEachFormatDecode : Prop :=
  decode [0x00000010#32] = .ok .tick [] ∧
  decode [0x00010230#32] = .ok (.hwinit 1#8 2#8 false) [] ∧
  decode [0x0000C831#32] = .ok (.setbaud 200#8) [] ∧
  decode [0x00000180#32] = .ok (.evClk true) [] ∧
  decode [0x007FFF83#32] = .ok (.evErrcnt 255#8 127#8) [] ∧
  decode [0x00000001#32, 0x00000100#32, 0x00000002#32, 0x0000BBAA#32, 0x88000000#32, 0x00000020#32] =
    .ok (.enqtx ⟨0x100#32, 2#8, ⟨0xAA#8, 0xBB#8, 0#8, 0#8, 0#8, 0#8, 0#8, 0x88#8⟩⟩) [0x00000020#32]

/-- R95 (log 9): a reserved selector, a must-be-zero bit that is 1 (the masks of spec/opcode_table.json), or a W1 with a high
bit set is reported invalid by the decoder, and the step that comes to serve it is a refusal, so no state changes. -/
def Obligations.InvalidRequestsAreRefused : Prop :=
  ∀ (s : State) (w : Word) (ws : List Word), s.inbox = w :: ws →
    (w.toNat % 256 ∉ [0x01, 0x02, 0x10, 0x11, 0x20, 0x21, 0x22, 0x23, 0x30, 0x31, 0x32, 0x33, 0x34, 0x35, 0x36,
        0x80, 0x81, 0x82, 0x83, 0x84, 0x85, 0x86, 0x90] →
      s.RejectsWords .reservedSelector) ∧
    (w.toNat % 256 ∈ [0x01, 0x02, 0x10, 0x11, 0x20, 0x21, 0x22, 0x23, 0x32, 0x33, 0x34, 0x35, 0x36,
        0x81, 0x82, 0x84, 0x85, 0x86, 0x90] → w.toNat / 256 ≠ 0 →
      s.RejectsWords .reservedBitSet) ∧
    (w.toNat % 256 = 0x30 → w &&& 0xFE000000#32 ≠ 0#32 → s.RejectsWords .reservedBitSet) ∧
    (w.toNat % 256 = 0x31 → w &&& 0xFFFF0000#32 ≠ 0#32 → s.RejectsWords .reservedBitSet) ∧
    (w.toNat % 256 = 0x80 → w &&& 0xFFFFFE00#32 ≠ 0#32 → s.RejectsWords .reservedBitSet) ∧
    (w.toNat % 256 = 0x83 → w &&& 0xFF000000#32 ≠ 0#32 → s.RejectsWords .reservedBitSet) ∧
    (∀ w0 w1 w2 w3 rest, w.toNat ∈ [0x01, 0x33, 0x82] → ws = w0 :: w1 :: w2 :: w3 :: rest → 256 ≤ w1.toNat →
      s.RejectsWords .dlcWordHighBits)

/-- R70, R89, R122 (log 1, log 6, log 9): where no DRV can go on with a request it is inside, a step serves the request
that the words of `inbox` begin with, its words taken out (but for a DEQRX or REQSHUT while DRV is inside one, which is
refused), and with no word there the machine waits. A DRV that is
inside a request can go on with it once CTL.CLKSTABLE is 1: the other agents' steps at the inner boundary give a state
`u`, and where the flag is still 1 there it goes on from `u`, else it is stuck again. -/
def Obligations.StepServesTheNextRequest : Prop :=
  (∀ (s : State) (i : Instr) (rest : List Word), (s.ctl.clkStable = true → s.drvWait = none) →
    decode s.inbox = .ok i rest →
      (s.drvWait = none ∨ i ∉ [.deqrx, .reqshut] → step s = exec i { s with inbox := rest }) ∧
      (s.drvWait ≠ none ∧ i ∈ [.deqrx, .reqshut] → step s = .refused .taskStepInsideOperation)) ∧
  (∀ s : State, (s.ctl.clkStable = true → s.drvWait = none) → s.inbox = [] → step s = .next s) ∧
  (∀ (s : State) (c : DrvCall), s.ctl.clkStable = true → s.drvWait = some c → EnvOnly (s.sched.headD []) →
    ∃ u, boundary .insideOperation s = .next u ∧ (s.sched = [] → u = s) ∧
      (u.ctl.clkStable = true → step s = resumeRequest c u) ∧ (u.ctl.clkStable = false → step s = .next u))

/-- R82, R83: the packing formula, the source's byte order in both windows, and the two inverse laws. -/
def Obligations.PackAndUnpackAreInverse : Prop :=
  (∀ b0 b1 b2 b3 : Byte, (pack b0 b1 b2 b3).toNat = b0.toNat + 256 * b1.toNat + 65536 * b2.toNat + 16777216 * b3.toNat) ∧
  (∀ b0 b1 b2 b3 : Byte, unpack (pack b0 b1 b2 b3) = (b0, b1, b2, b3)) ∧
  (∀ w : Word, pack (unpack w).1 (unpack w).2.1 (unpack w).2.2.1 (unpack w).2.2.2 = w) ∧
  (∀ p : Payload, p.window0 = pack p.b0 p.b1 p.b2 p.b3 ∧ p.window1 = pack p.b4 p.b5 p.b6 p.b7)

/-! ## Requests of APP and HOST -/

/-- R100, R101, R19, R72 (log 7): ENQTX on a FIFO that is not full stores `id`, the clamped `dlc` and that many bytes at
the write-pointer, keeps the cell's other bytes and every other cell, and advances the write-pointer; on a full one it
answers Full and changes nothing. -/
def Obligations.EnqtxStoresOrAnswersFull : Prop :=
  ∀ (f : CanFrame) (s : State), s.txf.wr < s.cfg.cTx →
    ((s.txf.wr + 1) % s.cfg.cTx ≠ s.txf.rd →
      ∃ t, exec (.enqtx f) s = .next t ∧
        t = { s with txf := t.txf, respLog := s.respLog ++ [⟨0x01#8, [0#32]⟩] } ∧
        t.txf.wr = (s.txf.wr + 1) % s.cfg.cTx ∧ t.txf.rd = s.txf.rd ∧
        (∀ i, i ≠ s.txf.wr → t.cell .transmit i = s.cell .transmit i) ∧
        (t.cell .transmit s.txf.wr).id = f.id ∧
        (t.cell .transmit s.txf.wr).dlc.toNat = min f.dlc.toNat 8 ∧
        (t.cell .transmit s.txf.wr).data.bytes =
          f.data.bytes.take (min f.dlc.toNat 8) ++ (s.cell .transmit s.txf.wr).data.bytes.drop (min f.dlc.toNat 8)) ∧
    ((s.txf.wr + 1) % s.cfg.cTx = s.txf.rd →
      exec (.enqtx f) s = .next { s with respLog := s.respLog ++ [⟨0x01#8, [1#32]⟩] })

/-- R109, R110, R91 (log 5, log 7): DEQRX on a ring that is not empty copies `id`, `dlc` and `dlc` bytes of the cell at
the read-pointer into the caller's output, keeps the output's other bytes and every cell, advances the read-pointer and
answers with the image of the output; on an empty one it answers Empty and leaves the output alone. -/
def Obligations.DeqrxDeliversOrAnswersEmpty : Prop :=
  ∀ s : State,
    (s.rxr.rd < s.cfg.cRx → s.rxr.rd ≠ s.rxr.wr →
      ∃ t, exec .deqrx s = .next t ∧
        t = { s with
          rxr := { s.rxr with rd := (s.rxr.rd + 1) % s.cfg.cRx }
          appOut := t.appOut
          respLog := s.respLog ++ [⟨0x02#8, 0#32 :: t.appOut.image⟩] } ∧
        t.appOut.id = (s.cell .receive s.rxr.rd).id ∧ t.appOut.dlc = (s.cell .receive s.rxr.rd).dlc ∧
        t.appOut.data.bytes =
          (s.cell .receive s.rxr.rd).data.bytes.take (s.cell .receive s.rxr.rd).dlc.toNat ++
            s.appOut.data.bytes.drop (s.cell .receive s.rxr.rd).dlc.toNat) ∧
    (s.rxr.rd = s.rxr.wr → exec .deqrx s = .next { s with respLog := s.respLog ++ [⟨0x02#8, [2#32]⟩] })

/-- R160, R88, R91 (log 7): REQSHUT (selector 0x11, format N, issued by HOST) sets SHUTREQ and has no other effect, in any state
and any number of times; the next TICK runs DEINIT and enters Shutdown, with no other HRI call. -/
def Obligations.ReqshutSetsTheLatch : Prop :=
  encode .reqshut = [0x00000011#32] ∧ Instr.agent .reqshut = .host ∧
  (∀ s : State, exec .reqshut s = .next { s with shutReq := true, respLog := s.respLog ++ [⟨0x11#8, [0#32]⟩] }) ∧
  (∀ (n : Nat) (s : State), s.drvWait = none → s.ds ≠ .shutdown →
    ∃ t, serve (List.replicate (n + 1) .reqshut ++ [.tick]) s = .next t ∧ t.ds = .shutdown ∧ t.ctl.mode = .reset ∧
      t.hriLog = s.hriLog ++ [.deinit] ∧ t.txf = s.txf ∧ t.rxr = s.rxr)

/-! ## Buffer operations of DRV -/

/-- R103, R104, R147 (log 7, log 23): DRAINTX on an empty FIFO answers Empty with no HRI call; with no request pending
it loads the mailbox with the frame at the read-pointer, asserts CTL.TXREQ, advances the read-pointer and answers
Success; with one pending it answers HardwareNotReady and the frame stays. No cell changes. -/
def Obligations.DraintxSubmitsOneFrame : Prop :=
  ∀ s : State, s.drvWait = none →
    (s.txf.rd = s.txf.wr → exec .draintx s = .next { s with respLog := s.respLog ++ [⟨0x20#8, [2#32]⟩] }) ∧
    (s.txf.rd ≠ s.txf.wr → s.txf.rd < s.cfg.cTx →
      ∀ f, f = s.cell .transmit s.txf.rd →
        (s.ctl.txReq = false →
          exec .draintx s = .next { s with
            ctl := { s.ctl with
              txmb := ⟨f.id, f.dlc, pack f.data.b0 f.data.b1 f.data.b2 f.data.b3, pack f.data.b4 f.data.b5 f.data.b6 f.data.b7⟩
              txReq := true }
            txf := { s.txf with rd := (s.txf.rd + 1) % s.cfg.cTx }
            hriLog := s.hriLog ++ [.tx1 f true]
            respLog := s.respLog ++ [⟨0x20#8, [0#32]⟩] }) ∧
        (s.ctl.txReq = true →
          exec .draintx s = .next { s with
            hriLog := s.hriLog ++ [.tx1 f false]
            respLog := s.respLog ++ [⟨0x20#8, [3#32]⟩] }))

/-- R106, R107, R137, R138, R71 (d) (log 1, log 7): FILLRX on a full ring answers Full and changes nothing. Otherwise
CTL.RXIP is cleared, the other agents' steps at the inner boundary give a state `u`, and from `u`: with the controller's
FIFO empty it answers Empty; else the oldest frame is stored whole, its `dlc` clamped, at the write-pointer, the FIFO
and the write-pointer advance, and every other cell stays. -/
def Obligations.FillrxMovesOneFrame : Prop :=
  ∀ s : State, s.drvWait = none →
    ((s.rxr.wr + 1) % s.cfg.cRx = s.rxr.rd →
      exec .fillrx s = .next { s with respLog := s.respLog ++ [⟨0x21#8, [1#32]⟩] }) ∧
    ((s.rxr.wr + 1) % s.cfg.cRx ≠ s.rxr.rd → s.rxr.wr < s.cfg.cRx → EnvOnly (s.sched.headD []) →
      ∃ u t, boundary .insideOperation { s with ctl := { s.ctl with rxip := false } } = .next u ∧
        exec .fillrx s = .next t ∧
        (s.sched = [] → u = { s with ctl := { s.ctl with rxip := false } }) ∧
        (u.ctl.hwrx = [] →
          t = { u with hriLog := u.hriLog ++ [.rx1 none], respLog := u.respLog ++ [⟨0x21#8, [2#32]⟩] }) ∧
        (∀ g rest, u.ctl.hwrx = g :: rest →
          t = { u with
            ctl := { u.ctl with hwrx := rest }
            rxr := t.rxr
            hriLog := u.hriLog ++ [.rx1 (some (delivered g))]
            respLog := u.respLog ++ [⟨0x21#8, [0#32]⟩] } ∧
          t.rxr.wr = (s.rxr.wr + 1) % s.cfg.cRx ∧ t.rxr.rd = u.rxr.rd ∧
          t.cell .receive s.rxr.wr = delivered g ∧
          ∀ i, i ≠ s.rxr.wr → t.cell .receive i = u.cell .receive i))

/-- R112, R88, R91 (log 7): BUFINIT (selector 0x22, format N, issued by DRV) sets the four indices to 0 and changes nothing else,
no cell; both buffers are then empty and not full, whatever they held. -/
def Obligations.BufinitEmptiesBothBuffers : Prop :=
  encode .bufinit = [0x00000022#32] ∧ Instr.agent .bufinit = .drv ∧
  ∀ s : State, s.drvWait = none →
    ∃ t, exec .bufinit s = .next t ∧
      t = { s with
        txf := { s.txf with wr := 0, rd := 0 }
        rxr := { s.rxr with wr := 0, rd := 0 }
        respLog := s.respLog ++ [⟨0x22#8, [0#32]⟩] } ∧
      t.txQueue = [] ∧ t.rxQueue = [] ∧ t.txf.isEmpty = true ∧ t.rxr.isEmpty = true ∧
      (s.cfg.sizesOk = true → t.txf.isFull t.cfg.cTx = false ∧ t.rxr.isFull t.cfg.cRx = false)

/-! ## The Hardware Register Interface -/

/-- R120, R123, R125 (log 1, log 7, log 8, log 17): with an accepted module, the clock stable and a supported rate,
HWINIT returns true and leaves the controller in the one state of R125, the mailbox and the clock flag as the other
agents' steps at the inner boundary left them (`u`), and all else as in `u`. -/
def Obligations.HwinitLeavesTheControllerOperating : Prop :=
  ∀ (m r : Byte) (v : Word) (s : State), s.drvWait = none → m.toNat < s.cfg.nModules → s.ctl.clkStable = true →
    s.cfg.clkWaitMax ≠ some 0 →
    timingOf s.cfg r = some v → EnvOnly (s.sched.headD []) →
    ∃ u t, boundary .insideOperation { s with ctl := { s.ctl with modSel := m } } = .next u ∧
      exec (.hwinit m r false) s = .next t ∧
      (s.sched = [] → u = { s with ctl := { s.ctl with modSel := m } }) ∧
      t = { u with
        ctl := t.ctl
        hriLog := s.hriLog ++ [.hwinit m r false true]
        respLog := u.respLog ++ [⟨0x30#8, [1#32]⟩] } ∧
      t.ctl = { u.ctl with
        modSel := m, mode := .normal, fdEn := false, nbt := v, fltWe := false
        fltN := s.cfg.filterTable.length, flt := t.ctl.flt
        ie := ⟨true, true, true⟩, ifl := ⟨false, false, false⟩
        rxip := false, txReq := false, hwrx := [], bo := false, tec := 0#8, recCnt := 0#8 } ∧
      t.ctl.flt.take s.cfg.filterTable.length = s.cfg.filterTable.map (fun e => ⟨e.id, e.mask, .rxFifo0⟩)

/-- R124, R127, R190 (log 1, log 7, log 8, log 17): with the clock stable and a rate that is not supported (or names no
member of RATES), HWINIT returns false in Configuration mode with NBT_DEFAULT written, the filters not installed and
writable, no interrupt enabled. -/
def Obligations.HwinitFailsClosedOnUnsupportedRate : Prop :=
  ∀ (m r : Byte) (s : State), s.drvWait = none → m.toNat < s.cfg.nModules → s.ctl.clkStable = true →
    s.cfg.clkWaitMax ≠ some 0 →
    timingOf s.cfg r = none → EnvOnly (s.sched.headD []) →
    ∃ u t, boundary .insideOperation { s with ctl := { s.ctl with modSel := m } } = .next u ∧
      exec (.hwinit m r false) s = .next t ∧
      (s.sched = [] → u = { s with ctl := { s.ctl with modSel := m } }) ∧
      t = { u with
        ctl := { u.ctl with
          modSel := m, mode := .configuration, fdEn := false, nbt := s.cfg.nbtDefault, fltWe := true
          ie := ⟨false, false, false⟩, ifl := ⟨false, false, false⟩
          rxip := false, txReq := false, hwrx := [], bo := false, tec := 0#8, recCnt := 0#8 }
        hriLog := s.hriLog ++ [.hwinit m r false false]
        respLog := u.respLog ++ [⟨0x30#8, [0#32]⟩] }

/-- R122, R120, R162, R190 (log 7, log 8, log 17): with a finite CLK_WAIT_MAX, the clock not stable and no other agent
stepping, and with CLK_WAIT_MAX = 0 in every case, HWINIT returns false and no controller register but CTL.MODSEL has
changed. -/
def Obligations.HwinitTimesOutOnAnUnstableClock : Prop :=
  ∀ (m r : Byte) (n : Nat) (s : State), s.drvWait = none → m.toNat < s.cfg.nModules → s.cfg.clkWaitMax = some n →
    (n = 0 ∨ (s.ctl.clkStable = false ∧ s.sched = [])) →
    exec (.hwinit m r false) s = .next { s with
      ctl := { s.ctl with modSel := m }
      hriLog := s.hriLog ++ [.hwinit m r false false]
      respLog := s.respLog ++ [⟨0x30#8, [0#32]⟩] }

/-- R121 (log 11): HWINIT with `fdEnable = true`, or with a module not below N_MODULES, is refused, from every state. -/
def Obligations.HwinitArgumentsAreJudgedFirst : Prop :=
  ∀ (m r : Byte) (s : State), s.drvWait = none →
    exec (.hwinit m r true) s = .refused .canFdRequested ∧
    (s.cfg.nModules ≤ m.toNat → exec (.hwinit m r false) s = .refused .noSuchModule)

/-- R122, R162, R71 (e) (log 1, log 7, log 8, log 17): with a finite CLK_WAIT_MAX and only environment steps at its
boundaries, HWINIT with accepted arguments always answers, and its answer tells what happened: true with the controller
in Normal mode, or false with the controller in Configuration mode or in the mode it had. It has at most CLK_WAIT_MAX
boundaries, so at most CLK_WAIT_MAX reads of the clock flag, and returns false with CLK_WAIT_MAX = 0; nothing of the
driver's own state changes. -/
def Obligations.BoundedHwinitAlwaysAnswers : Prop :=
  ∀ (m r : Byte) (n : Nat) (s : State), s.drvWait = none → m.toNat < s.cfg.nModules → s.cfg.clkWaitMax = some n →
    (∀ steps ∈ s.sched, EnvOnly steps) →
    ∃ t b, exec (.hwinit m r false) s = .next t ∧
      t.hriLog = s.hriLog ++ [.hwinit m r false b] ∧ t.respLog.getLast? = some ⟨0x30#8, [boolCode b]⟩ ∧
      (b = true → t.ctl.mode = .normal ∧ timingOf s.cfg r = some t.ctl.nbt) ∧
      (b = false → t.ctl.mode = .configuration ∨ t.ctl.mode = s.ctl.mode) ∧
      (∃ k, k ≤ n ∧ t.sched = s.sched.drop k) ∧ (n = 0 → b = false) ∧
      t.ds = s.ds ∧ t.shutReq = s.shutReq ∧ t.txf = s.txf ∧ t.rxr = s.rxr ∧ t.drvWait = none

/-- R122, R12, R232 (log 9): with `CLK_WAIT_MAX = inf` and the clock not stable, a TICK in Init does not complete: DRV is
stuck inside it, with only CTL.MODSEL written; no TICK is accepted, ENQTX goes on storing frames and answers Full once
TXF is full, and a step with no request changes nothing. A HWINIT with accepted arguments is left in the same way. -/
def Obligations.UnboundedClockWaitSticks : Prop :=
  ∀ s : State, s.drvWait = none → s.ds = .init → s.shutReq = false → InitAccepted s.cfg → s.cfg.clkWaitMax = none →
    s.ctl.clkStable = false →
    ∃ t, exec .tick s = .next t ∧
      t = { s with ctl := { s.ctl with modSel := s.cfg.cfgModule }, drvWait := some .tick } ∧
      exec .tick t = .refused .overlappingRequest ∧
      (t.inbox = [] → step t = .next t) ∧
      (∀ f, s.txf.wr < s.cfg.cTx → (s.txf.wr + 1) % s.cfg.cTx ≠ s.txf.rd →
        ∃ u, exec (.enqtx f) t = .next u ∧ u.txf.wr = (s.txf.wr + 1) % s.cfg.cTx ∧ u.txf.rd = s.txf.rd ∧
          u.drvWait = some .tick ∧ u.ctl = t.ctl ∧ (u.cell .transmit s.txf.wr).id = f.id ∧
          u.respLog = t.respLog ++ [⟨0x01#8, [0#32]⟩]) ∧
      (∀ f, (s.txf.wr + 1) % s.cfg.cTx = s.txf.rd →
        exec (.enqtx f) t = .next { t with respLog := t.respLog ++ [⟨0x01#8, [1#32]⟩] }) ∧
      (∀ m r, m.toNat < s.cfg.nModules →
        exec (.hwinit m r false) s = .next { s with
          ctl := { s.ctl with modSel := m }, drvWait := some (.hwinit m r false) })

/-- R122, R120, R124, R151, R152, R157 (log 1, log 7, log 8, log 9): a DRV that is stuck in the clock wait goes on with
the step that finds CTL.CLKSTABLE at 1, whatever requests wait, with only environment steps at its boundaries. Those at
the boundary before its read give `u`; where they clear the flag DRV is stuck again with nothing else done, and else
HWINIT, DRVINIT, and a TICK in Init or ErrorHandling end as they would have without the wait: with true or success and
the controller in Normal mode under a supported rate, else with false or in the same DS and the controller in
Configuration mode. DRVINIT and the Init cycle empty both buffers, HWINIT and the ErrorHandling cycle keep them. -/
def Obligations.ClockWaitEndsWhenTheClockIsStable : Prop :=
  ∀ s : State, s.ctl.clkStable = true → s.cfg.cfgFd = false → (∀ steps ∈ s.sched, EnvOnly steps) →
    ∃ u, boundary .insideOperation s = .next u ∧ (s.sched = [] → u = s) ∧
    (u.ctl.clkStable = false → ∀ c, s.drvWait = some c → step s = .next u ∧ u.drvWait = some c ∧ u.hriLog = s.hriLog) ∧
    (u.ctl.clkStable = true →
      (∀ m r, s.drvWait = some (.hwinit m r false) →
        ∃ t, step s = .next t ∧ t.drvWait = none ∧ t.ds = s.ds ∧ t.txf = s.txf ∧ t.rxr = s.rxr ∧ t.inbox = s.inbox ∧
          t.hriLog = s.hriLog ++ [.hwinit m r false (timingOf s.cfg r).isSome] ∧
          t.respLog.getLast? = some ⟨0x30#8, [boolCode (timingOf s.cfg r).isSome]⟩ ∧
          (∀ v, timingOf s.cfg r = some v → t.ctl.mode = .normal ∧ t.ctl.nbt = v) ∧
          (timingOf s.cfg r = none → t.ctl.mode = .configuration ∧ t.ctl.nbt = s.cfg.nbtDefault)) ∧
      (∀ ok, ok = (timingOf s.cfg s.cfg.cfgRate).isSome →
        (s.drvWait = some .drvinit →
          ∃ t, step s = .next t ∧ t.drvWait = none ∧ t.ds = s.ds ∧ t.inbox = s.inbox ∧
            t.txf = { s.txf with wr := 0, rd := 0 } ∧ t.rxr = { s.rxr with wr := 0, rd := 0 } ∧
            t.hriLog = s.hriLog ++ [.hwinit s.cfg.cfgModule s.cfg.cfgRate false ok] ∧
            t.respLog.getLast? = some ⟨0x23#8, [boolCode ok]⟩ ∧
            (ok = true → t.Operating) ∧ (ok = false → t.ctl.mode = .configuration)) ∧
        (s.drvWait = some .tick → s.ds = .init ∨ s.ds = .errorHandling →
          ∃ t, step s = .next t ∧ t.drvWait = none ∧ t.inbox = s.inbox ∧
            (s.ds = .init → t.txf = { s.txf with wr := 0, rd := 0 } ∧ t.rxr = { s.rxr with wr := 0, rd := 0 }) ∧
            (s.ds = .errorHandling → t.txf = s.txf ∧ t.rxr = s.rxr) ∧
            t.hriLog = s.hriLog ++ [.hwinit s.cfg.cfgModule s.cfg.cfgRate false ok] ∧
            t.respLog.getLast? = some ⟨0x10#8, [0#32]⟩ ∧
            (ok = true → t.ds = .activeOperation ∧ t.Operating) ∧
            (ok = false → t.ds = s.ds ∧ t.ctl.mode = .configuration))))

/-- R126, R127, R128, R147, R88 (log 7, log 11): SETBAUD (selector 0x31, format B) in Configuration mode writes NBT_OF of a
supported rate and returns true, writes NBT_DEFAULT for any other number and returns false; in another mode it is refused. -/
def Obligations.SetbaudWritesTheTiming : Prop :=
  (∀ r : Byte, (encode (.setbaud r)).map BitVec.toNat = [0x31 + 256 * r.toNat]) ∧
  ∀ (r : Byte) (s : State), s.drvWait = none →
    (∀ v, s.ctl.mode = .configuration → timingOf s.cfg r = some v →
      exec (.setbaud r) s = .next { s with
        ctl := { s.ctl with nbt := v }
        hriLog := s.hriLog ++ [.setbaud r true]
        respLog := s.respLog ++ [⟨0x31#8, [1#32]⟩] }) ∧
    (s.ctl.mode = .configuration → timingOf s.cfg r = none →
      exec (.setbaud r) s = .next { s with
        ctl := { s.ctl with nbt := s.cfg.nbtDefault }
        hriLog := s.hriLog ++ [.setbaud r false]
        respLog := s.respLog ++ [⟨0x31#8, [0#32]⟩] }) ∧
    (s.ctl.mode ≠ .configuration → exec (.setbaud r) s = .refused .setbaudOutsideConfiguration)

/-- R129, R130, R147, R88 (log 7, log 11, log 13): CFGFLT (selector 0x32, format N) in Configuration mode with the table writable
installs FILTER_TABLE in rule order, every rule feeding RXFIFO0, locks the table and returns true, an empty table
accepting no frame; in another mode or locked it is refused. -/
def Obligations.CfgfltInstallsTheFilterTable : Prop :=
  encode .cfgflt = [0x00000032#32] ∧
  ∀ s : State, s.drvWait = none →
    (s.ctl.mode = .configuration → s.ctl.fltWe = true →
      ∃ t, exec .cfgflt s = .next t ∧
        t = { s with
          ctl := { s.ctl with flt := t.ctl.flt, fltN := s.cfg.filterTable.length, fltWe := false }
          hriLog := s.hriLog ++ [.cfgflt true]
          respLog := s.respLog ++ [⟨0x32#8, [1#32]⟩] } ∧
        t.ctl.flt.take s.cfg.filterTable.length = s.cfg.filterTable.map (fun e => ⟨e.id, e.mask, .rxFifo0⟩) ∧
        t.ctl.flt.drop s.cfg.filterTable.length = s.ctl.flt.drop s.cfg.filterTable.length ∧
        (s.cfg.filterTable = [] → ∀ x, t.ctl.accepts x = false)) ∧
    (s.ctl.mode = .configuration → s.ctl.fltWe = false → exec .cfgflt s = .refused .filterTableLocked) ∧
    (s.ctl.mode ≠ .configuration → exec .cfgflt s = .refused .cfgfltOutsideConfiguration)

/-- R132, R133, R81 (log 7, log 8): TX1 with no request pending loads the mailbox with the frame's register image, `dlc`
not clamped and whatever the mode, and asserts CTL.TXREQ; with one pending it returns false and touches no register. -/
def Obligations.TxOneLoadsTheMailboxOrReturnsFalse : Prop :=
  ∀ (f : CanFrame) (s : State), s.drvWait = none →
    (s.ctl.txReq = false →
      exec (.tx1 f) s = .next { s with
        ctl := { s.ctl with
          txmb := ⟨f.id, f.dlc, pack f.data.b0 f.data.b1 f.data.b2 f.data.b3, pack f.data.b4 f.data.b5 f.data.b6 f.data.b7⟩
          txReq := true }
        hriLog := s.hriLog ++ [.tx1 f true]
        respLog := s.respLog ++ [⟨0x33#8, [1#32]⟩] }) ∧
    (s.ctl.txReq = true →
      exec (.tx1 f) s = .next { s with
        hriLog := s.hriLog ++ [.tx1 f false]
        respLog := s.respLog ++ [⟨0x33#8, [0#32]⟩] })

/-- R136, R137, R138, R71 (b) (log 1, log 5, log 7, log 8): RX1 clears CTL.RXIP; the other agents' steps at the inner
boundary give `u`; from `u` it takes the oldest frame of the FIFO into its output, all eight bytes, `dlc` clamped, and
returns true, or returns false on an empty FIFO with output and FIFO unchanged. -/
def Obligations.RxOneTakesTheOldestFrame : Prop :=
  ∀ s : State, s.drvWait = none → EnvOnly (s.sched.headD []) →
    ∃ u t, boundary .insideOperation { s with ctl := { s.ctl with rxip := false } } = .next u ∧
      exec .rx1 s = .next t ∧
      (s.sched = [] → u = { s with ctl := { s.ctl with rxip := false } }) ∧
      (u.ctl.hwrx = [] →
        t = { u with hriLog := u.hriLog ++ [.rx1 none], respLog := u.respLog ++ [⟨0x34#8, [0#32]⟩] }) ∧
      (∀ g rest, u.ctl.hwrx = g :: rest →
        t = { u with
          ctl := { u.ctl with hwrx := rest }
          hriOut := delivered g
          hriLog := u.hriLog ++ [.rx1 (some (delivered g))]
          respLog := u.respLog ++ [⟨0x34#8, 1#32 :: (delivered g).image⟩] })

/-- R139 (c), R71 (b), R176 (log 1, log 5): a frame that CTRL stores between RX1's two micro-steps leaves CTL.RXIP at 1,
and RX1 returns true with the oldest frame. -/
def Obligations.FrameBetweenTheMicroStepsKeepsRxip : Prop :=
  ∀ (g : CanFrame) (s : State), s.drvWait = none → s.ctl.mode = .normal → s.ctl.bo = false →
    s.ctl.accepts g.id = true → s.ctl.hwrx.length < s.cfg.hwrxDepth → s.sched = [[.evRxframe g]] →
    ∃ t, exec .rx1 s = .next t ∧ t.ctl.rxip = true ∧ t.ctl.hwrx = (s.ctl.hwrx ++ [g]).tail ∧
      some t.hriOut = ((s.ctl.hwrx ++ [g]).head?).map delivered ∧ t.sched = []

/-- R141, R92 (log 5, log 7, log 8, log 18): GETERR (selector 0x35, format N) fills the record from CTL.BO, CTL.TEC and
CTL.REC, answers with its packed word, and has no side effect on the controller. -/
def Obligations.GeterrReadsTheErrorStatus : Prop :=
  encode .geterr = [0x00000035#32] ∧
  ∀ s : State, s.drvWait = none →
    ∃ w : Word, exec .geterr s = .next { s with
        errOut := ⟨s.ctl.bo, s.ctl.tec, s.ctl.recCnt⟩
        hriLog := s.hriLog ++ [.geterr ⟨s.ctl.bo, s.ctl.tec, s.ctl.recCnt⟩]
        respLog := s.respLog ++ [⟨0x35#8, [w]⟩] } ∧
      w.toNat = s.ctl.bo.toNat + 256 * s.ctl.tec.toNat + 65536 * s.ctl.recCnt.toNat

/-- R144, R123 (log 7, log 8): DEINIT disables the interrupt sources and enters Reset mode with exactly the side effects
of R123, from every mode; the buffers and all else stay. -/
def Obligations.DeinitEntersResetMode : Prop :=
  ∀ s : State, s.drvWait = none →
    exec .deinit s = .next { s with
      ctl := { s.ctl with
        mode := .reset, txReq := false, hwrx := [], rxip := false
        ifl := ⟨false, false, false⟩, ie := ⟨false, false, false⟩
        bo := false, tec := 0#8, recCnt := 0#8, fltWe := true }
      hriLog := s.hriLog ++ [.deinit]
      respLog := s.respLog ++ [⟨0x36#8, [0#32]⟩] }

/-! ## Events and the interrupt -/

/-- R170 (log 7): EV_CLK sets CTL.CLKSTABLE and nothing else. -/
def Obligations.EvClkSetsTheClockFlag : Prop :=
  ∀ (b : Bool) (s : State),
    exec (.evClk b) s = .next { s with ctl := { s.ctl with clkStable := b }, respLog := s.respLog ++ [⟨0x80#8, [0#32]⟩] }

/-- R172, R173, R171 (log 7): EV_TXDONE, enabled in Normal mode with a request pending and not bus-off, puts the mailbox
frame with `min(dlc, 8)` bytes on the bus and clears CTL.TXREQ, the mailbox keeping its values; disabled it changes
nothing. -/
def Obligations.EvTxdoneSendsTheMailboxFrame : Prop :=
  ∀ s : State,
    (s.ctl.mode = .normal ∧ s.ctl.txReq = true ∧ s.ctl.bo = false →
      ∃ (t : State) (b : BusFrame), exec .evTxdone s = .next t ∧
        t = { s with
          ctl := { s.ctl with txReq := false }
          busOut := s.busOut ++ [b]
          respLog := s.respLog ++ [⟨0x81#8, [0#32]⟩] } ∧
        b.id = s.ctl.txmb.id ∧ b.dlc.toNat = min s.ctl.txmb.dlc.toNat 8 ∧
        ∀ p : Payload, p.window0 = s.ctl.txmb.data0 → p.window1 = s.ctl.txmb.data1 →
          b.data = p.bytes.take (min s.ctl.txmb.dlc.toNat 8)) ∧
    (¬(s.ctl.mode = .normal ∧ s.ctl.txReq = true ∧ s.ctl.bo = false) → exec .evTxdone s = .next s)

/-- R174, R175, R176 (log 7, log 15): a frame that arrives in Normal mode, not bus-off, and matches an installed rule is
appended to the receive FIFO with CTL.RXIP set, or lost with CTL.IF.ML set where the FIFO is full; every other frame
changes nothing. -/
def Obligations.EvRxframeStoresAcceptedFrames : Prop :=
  ∀ (g : CanFrame) (s : State),
    ((s.ctl.mode = .normal ∧ s.ctl.bo = false ∧
        ∃ i, i < s.ctl.fltN ∧ ∃ r, s.ctl.flt[i]? = some r ∧ g.id &&& r.mask = r.id &&& r.mask) →
      (s.ctl.hwrx.length < s.cfg.hwrxDepth →
        exec (.evRxframe g) s = .next { s with
          ctl := { s.ctl with hwrx := s.ctl.hwrx ++ [g], rxip := true }
          respLog := s.respLog ++ [⟨0x82#8, [0#32]⟩] }) ∧
      (s.ctl.hwrx.length = s.cfg.hwrxDepth →
        exec (.evRxframe g) s = .next { s with
          ctl := { s.ctl with ifl := { s.ctl.ifl with ml := true } }
          respLog := s.respLog ++ [⟨0x82#8, [0#32]⟩] })) ∧
    (¬(s.ctl.mode = .normal ∧ s.ctl.bo = false ∧
        ∃ i, i < s.ctl.fltN ∧ ∃ r, s.ctl.flt[i]? = some r ∧ g.id &&& r.mask = r.id &&& r.mask) →
      exec (.evRxframe g) s = .next { s with respLog := s.respLog ++ [⟨0x82#8, [0#32]⟩] })

/-- R177, R171 (log 7): EV_ERRCNT in Normal mode sets both counters to the given values and nothing else; otherwise it
changes nothing. -/
def Obligations.EvErrcntSetsTheCounters : Prop :=
  ∀ (t r : Byte) (s : State),
    (s.ctl.mode = .normal →
      exec (.evErrcnt t r) s = .next { s with
        ctl := { s.ctl with tec := t, recCnt := r }, respLog := s.respLog ++ [⟨0x83#8, [0#32]⟩] }) ∧
    (s.ctl.mode ≠ .normal → exec (.evErrcnt t r) s = .next s)

/-- R178, R171, R88 (log 5, log 7): EV_BUSOFF (selector 0x84, format N, taken by BUS), enabled in Normal mode and not bus-off, sets CTL.BO
and keeps CTL.TXREQ, the mailbox and the FIFO; from then on EV_TXDONE is disabled and EV_RXFRAME has no effect, and RX1
still takes frames out of the FIFO. Disabled it changes nothing (R171). -/
def Obligations.EvBusoffSetsTheStatus : Prop :=
  encode .evBusoff = [0x00000084#32] ∧ Instr.agent .evBusoff = .bus ∧
  ∀ s : State,
    (s.ctl.mode = .normal ∧ s.ctl.bo = false →
      ∃ t, exec .evBusoff s = .next t ∧
        t = { s with ctl := { s.ctl with bo := true }, respLog := s.respLog ++ [⟨0x84#8, [0#32]⟩] } ∧
        exec .evTxdone t = .next t ∧
        (∀ g, exec (.evRxframe g) t = .next { t with respLog := t.respLog ++ [⟨0x82#8, [0#32]⟩] }) ∧
        (∀ g rest, s.drvWait = none → s.sched = [] → s.ctl.hwrx = g :: rest →
          ∃ u, exec .rx1 t = .next u ∧ u.hriOut = delivered g ∧ u.ctl.hwrx = rest)) ∧
    (¬(s.ctl.mode = .normal ∧ s.ctl.bo = false) → exec .evBusoff s = .next s)

/-- R180, R181, R171, R88 (log 7): EV_THL and EV_DLCERR (selectors 0x85 and 0x86, format N, taken by CTRL) in Normal mode set
CTL.IF.TH and CTL.IF.DE and nothing else; otherwise they change nothing. -/
def Obligations.EvThlAndEvDlcerrRaiseTheirFlags : Prop :=
  encode .evThl = [0x00000085#32] ∧ Instr.agent .evThl = .ctrl ∧
  encode .evDlcerr = [0x00000086#32] ∧ Instr.agent .evDlcerr = .ctrl ∧
  ∀ s : State,
    (s.ctl.mode = .normal →
      exec .evThl s = .next { s with
        ctl := { s.ctl with ifl := { s.ctl.ifl with th := true } }, respLog := s.respLog ++ [⟨0x85#8, [0#32]⟩] } ∧
      exec .evDlcerr s = .next { s with
        ctl := { s.ctl with ifl := { s.ctl.ifl with de := true } }, respLog := s.respLog ++ [⟨0x86#8, [0#32]⟩] }) ∧
    (s.ctl.mode ≠ .normal → exec .evThl s = .next s ∧ exec .evDlcerr s = .next s)

/-- R203, R200, R202 (a) (log 7): ISR, enabled while a flag is set and enabled, latches every such flag in ERRLOG and
clears it in CTL.IF, leaves a flag that is not enabled alone, and deasserts the line; disabled it changes nothing. -/
def Obligations.IsrServesEveryEnabledFlag : Prop :=
  ∀ (s : State) (th ml de : Bool),
    th = (s.ctl.ifl.th && s.ctl.ie.th) → ml = (s.ctl.ifl.ml && s.ctl.ie.ml) → de = (s.ctl.ifl.de && s.ctl.ie.de) →
    ((th || ml || de) = true →
      ∃ t, exec .isr s = .next t ∧
        t = { s with
          errLog := ⟨s.errLog.th || th, s.errLog.ml || ml, s.errLog.de || de⟩
          ctl := { s.ctl with
            ifl := ⟨s.ctl.ifl.th && !s.ctl.ie.th, s.ctl.ifl.ml && !s.ctl.ie.ml, s.ctl.ifl.de && !s.ctl.ie.de⟩ }
          respLog := s.respLog ++ [⟨0x90#8, [0#32]⟩] } ∧
        t.ctl.irqLine = false) ∧
    ((th || ml || de) = false → exec .isr s = .next s)

/-- R204 (log 7): "ISR reads and writes only CTL.IF, CTL.IE (read) and ERRLOG": nothing else changes, and what it writes
depends on nothing else. -/
def Obligations.IsrTouchesOnlyItsFlags : Prop :=
  ∀ s t s' t' : State, exec .isr s = .next t → exec .isr s' = .next t' →
    t = { s with errLog := t.errLog, ctl := { s.ctl with ifl := t.ctl.ifl }, respLog := t.respLog } ∧
    (s.ctl.ifl = s'.ctl.ifl → s.ctl.ie = s'.ctl.ie → s.errLog = s'.errLog → t.errLog = t'.errLog ∧ t.ctl.ifl = t'.ctl.ifl)

/-! ## The periodic task -/

/-- R158, R160, R202 (d) (log 7): a TICK that finds SHUTREQ set, in any state but Shutdown, runs DEINIT, enters Shutdown
and does none of that state's work; in Shutdown a TICK does nothing. -/
def Obligations.TickShutsDown : Prop :=
  ∀ s : State, s.drvWait = none →
    (s.shutReq = true → s.ds ≠ .shutdown →
      exec .tick s = .next { s with
        ds := .shutdown
        ctl := { s.ctl with
          mode := .reset, txReq := false, hwrx := [], rxip := false
          ifl := ⟨false, false, false⟩, ie := ⟨false, false, false⟩
          bo := false, tec := 0#8, recCnt := 0#8, fltWe := true }
        hriLog := s.hriLog ++ [.deinit]
        respLog := s.respLog ++ [⟨0x10#8, [0#32]⟩] }) ∧
    (s.ds = .shutdown → exec .tick s = .next { s with respLog := s.respLog ++ [⟨0x10#8, [0#32]⟩] })

/-- R151, R152, R125, R225 (log 7, log 17): an Init cycle with an accepted CONFIG, a supported CFG_RATE, the clock
stable and no other agent stepping leaves the controller operating, both buffers empty and `DS = ActiveOperation`. -/
def Obligations.TickInitializesTheDriver : Prop :=
  ∀ (v : Word) (s : State), s.drvWait = none → s.ds = .init → s.shutReq = false → InitAccepted s.cfg →
    s.ctl.clkStable = true → s.cfg.clkWaitMax ≠ some 0 → timingOf s.cfg s.cfg.cfgRate = some v → s.sched = [] →
    ∃ t, exec .tick s = .next t ∧ t.Operating ∧
      t = { s with
        ds := .activeOperation
        ctl := { s.ctl with
          modSel := s.cfg.cfgModule, mode := .normal, fdEn := false, nbt := v, fltWe := false
          fltN := s.cfg.filterTable.length, flt := t.ctl.flt
          ie := ⟨true, true, true⟩, ifl := ⟨false, false, false⟩
          rxip := false, txReq := false, hwrx := [], bo := false, tec := 0#8, recCnt := 0#8 }
        txf := { s.txf with wr := 0, rd := 0 }
        rxr := { s.rxr with wr := 0, rd := 0 }
        hriLog := s.hriLog ++ [.hwinit s.cfg.cfgModule s.cfg.cfgRate false true]
        respLog := s.respLog ++ [⟨0x10#8, [0#32]⟩] }

/-- R151, R152, R153, R124, R127, R233 (log 7, log 17): with no other agent stepping, an Init cycle whose bounded clock
wait times out, or whose CFG_RATE is not supported (the controller then in Configuration mode with NBT_DEFAULT), stays
in Init and empties both buffers all the same; the next TICK tries again. -/
def Obligations.TickRetriesInit : Prop :=
  ∀ s : State, s.drvWait = none → s.ds = .init → s.shutReq = false → InitAccepted s.cfg → s.sched = [] →
    (∀ n, s.cfg.clkWaitMax = some n → (n = 0 ∨ s.ctl.clkStable = false) →
      exec .tick s = .next { s with
        ctl := { s.ctl with modSel := s.cfg.cfgModule }
        txf := { s.txf with wr := 0, rd := 0 }
        rxr := { s.rxr with wr := 0, rd := 0 }
        hriLog := s.hriLog ++ [.hwinit s.cfg.cfgModule s.cfg.cfgRate false false]
        respLog := s.respLog ++ [⟨0x10#8, [0#32]⟩] }) ∧
    (s.ctl.clkStable = true → s.cfg.clkWaitMax ≠ some 0 → timingOf s.cfg s.cfg.cfgRate = none →
      exec .tick s = .next { s with
        ctl := failedInit s.cfg s.cfg.cfgModule s.ctl
        txf := { s.txf with wr := 0, rd := 0 }
        rxr := { s.rxr with wr := 0, rd := 0 }
        hriLog := s.hriLog ++ [.hwinit s.cfg.cfgModule s.cfg.cfgRate false false]
        respLog := s.respLog ++ [⟨0x10#8, [0#32]⟩] })

/-- R154, R155, R156, R105, R108, R132, R147, R162 (log 7, log 23): an ActiveOperation cycle with no other agent
stepping offers the oldest queued frame to the mailbox once, which takes it where no request was pending and is
unchanged otherwise, moves as many frames as the burst, the FIFO and the free slots allow into the ring in order, and
goes to ErrorHandling exactly when the policy is BusOffFlag and CTL.BO is 1. HRI_LOG grows by exactly these calls, in
this order. -/
def Obligations.ActiveCycleDrainsAndFills : Prop :=
  ∀ (n free : Nat) (s : State), s.Sound → s.drvWait = none → s.ds = .activeOperation → s.shutReq = false → s.sched = [] →
    free = s.cfg.cRx - 1 - s.rxr.count s.cfg.cRx → n = min s.cfg.rxBurst (min s.ctl.hwrx.length free) →
    ∃ t, exec .tick s = .next t ∧
      t.txQueue = (if s.ctl.txReq = true then s.txQueue else s.txQueue.tail) ∧
      t.ctl.txReq = (s.ctl.txReq || !s.txQueue.isEmpty) ∧
      (s.ctl.txReq = true ∨ s.txQueue = [] → t.ctl.txmb = s.ctl.txmb) ∧
      (∀ f rest, s.ctl.txReq = false → s.txQueue = f :: rest →
        t.ctl.txmb = ⟨f.id, f.dlc, f.data.window0, f.data.window1⟩) ∧
      t.rxQueue = s.rxQueue ++ (s.ctl.hwrx.take n).map delivered ∧
      t.ctl.hwrx = s.ctl.hwrx.drop n ∧
      t.ds = (if s.cfg.busErrPolicy = .busOffFlag ∧ s.ctl.bo = true then .errorHandling else .activeOperation) ∧
      t.hriLog = s.hriLog ++ (s.txQueue.take 1).map (fun f => .tx1 f (!s.ctl.txReq)) ++
        (s.ctl.hwrx.take n).map (fun g => .rx1 (some (delivered g))) ++
        (if n < s.cfg.rxBurst ∧ n < free then [.rx1 none] else []) ++
        (if s.cfg.busErrPolicy = .busOffFlag then [.geterr ⟨s.ctl.bo, s.ctl.tec, s.ctl.recCnt⟩] else []) ∧
      t.respLog = s.respLog ++ [⟨0x10#8, [0#32]⟩] ∧
      t.ctl.mode = s.ctl.mode ∧ t.ctl.bo = s.ctl.bo ∧ t.busOut = s.busOut ∧ t.appOut = s.appOut

/-- R162, R105 (b), R104 (log 1): a TICK makes at most one HWINIT, or one TX1 then at most RX_BURST RX1 then at most one
GETERR, or one DEINIT, or no HRI call, whatever other agents do inside it. -/
def Obligations.TickWorkIsBounded : Prop :=
  ∀ s t : State, exec .tick s = .next t →
    ∃ l, t.hriLog = s.hriLog ++ l ∧
      (l = [] ∨ l = [.deinit] ∨ (∃ b, l = [.hwinit s.cfg.cfgModule s.cfg.cfgRate s.cfg.cfgFd b]) ∨
        ∃ txs rxs errs, l = txs ++ rxs ++ errs ∧ txs.length ≤ 1 ∧ rxs.length ≤ s.cfg.rxBurst ∧ errs.length ≤ 1 ∧
          (∀ c ∈ txs, ∃ f b, c = .tx1 f b) ∧ (∀ c ∈ rxs, ∃ o, c = .rx1 o) ∧ (∀ c ∈ errs, ∃ e, c = .geterr e))

/-- R157, R125, R123, R122, R124 (log 7, log 17): an ErrorHandling cycle with no other agent stepping keeps both
buffers. With the clock stable and a supported CFG_RATE it re-initializes the controller, which ends bus-off and
abandons the mailbox frame, and returns to ActiveOperation; with a clock that times out, or a CFG_RATE that is not
supported (the controller then in Configuration mode with NBT_DEFAULT), it stays in ErrorHandling with one false HWINIT
logged. -/
def Obligations.RecoveryKeepsTheBuffers : Prop :=
  ∀ s : State, s.drvWait = none → s.ds = .errorHandling → s.shutReq = false → InitAccepted s.cfg → s.sched = [] →
    (∀ v, s.ctl.clkStable = true → s.cfg.clkWaitMax ≠ some 0 → timingOf s.cfg s.cfg.cfgRate = some v →
      ∃ t, exec .tick s = .next t ∧ t.Operating ∧ t.ds = .activeOperation ∧ t.ctl.bo = false ∧ t.ctl.txReq = false ∧
        t.txf = s.txf ∧ t.rxr = s.rxr ∧ t.busOut = s.busOut ∧ t.ctl.txmb = s.ctl.txmb ∧
        t.hriLog = s.hriLog ++ [.hwinit s.cfg.cfgModule s.cfg.cfgRate false true]) ∧
    (∀ n, s.cfg.clkWaitMax = some n → (n = 0 ∨ s.ctl.clkStable = false) →
      exec .tick s = .next { s with
        ctl := { s.ctl with modSel := s.cfg.cfgModule }
        hriLog := s.hriLog ++ [.hwinit s.cfg.cfgModule s.cfg.cfgRate false false]
        respLog := s.respLog ++ [⟨0x10#8, [0#32]⟩] }) ∧
    (s.ctl.clkStable = true → s.cfg.clkWaitMax ≠ some 0 → timingOf s.cfg s.cfg.cfgRate = none →
      exec .tick s = .next { s with
        ctl := failedInit s.cfg s.cfg.cfgModule s.ctl
        hriLog := s.hriLog ++ [.hwinit s.cfg.cfgModule s.cfg.cfgRate false false]
        respLog := s.respLog ++ [⟨0x10#8, [0#32]⟩] })

/-- R152, R112, R124, R127, R190 (log 7, log 8, log 17): DRVINIT calls HWINIT with the configured arguments and then
BUFINIT whatever it returned: with no other agent stepping it returns true with the controller operating, or false on a
clock time-out, or false with the controller in Configuration mode under a CFG_RATE that is not supported, and both
buffers are empty in each case; DS is not touched. -/
def Obligations.DrvinitInitializesBothHalves : Prop :=
  ∀ s : State, s.drvWait = none → InitAccepted s.cfg → s.sched = [] →
    (∀ v, s.ctl.clkStable = true → s.cfg.clkWaitMax ≠ some 0 → timingOf s.cfg s.cfg.cfgRate = some v →
      ∃ t, exec .drvinit s = .next t ∧ t.Operating ∧ t.ds = s.ds ∧
        t.txf = { s.txf with wr := 0, rd := 0 } ∧ t.rxr = { s.rxr with wr := 0, rd := 0 } ∧
        t.hriLog = s.hriLog ++ [.hwinit s.cfg.cfgModule s.cfg.cfgRate false true] ∧
        t.respLog = s.respLog ++ [⟨0x23#8, [1#32]⟩]) ∧
    (∀ n, s.cfg.clkWaitMax = some n → (n = 0 ∨ s.ctl.clkStable = false) →
      exec .drvinit s = .next { s with
        ctl := { s.ctl with modSel := s.cfg.cfgModule }
        txf := { s.txf with wr := 0, rd := 0 }
        rxr := { s.rxr with wr := 0, rd := 0 }
        hriLog := s.hriLog ++ [.hwinit s.cfg.cfgModule s.cfg.cfgRate false false]
        respLog := s.respLog ++ [⟨0x23#8, [0#32]⟩] }) ∧
    (s.ctl.clkStable = true → s.cfg.clkWaitMax ≠ some 0 → timingOf s.cfg s.cfg.cfgRate = none →
      exec .drvinit s = .next { s with
        ctl := failedInit s.cfg s.cfg.cfgModule s.ctl
        txf := { s.txf with wr := 0, rd := 0 }
        rxr := { s.rxr with wr := 0, rd := 0 }
        hriLog := s.hriLog ++ [.hwinit s.cfg.cfgModule s.cfg.cfgRate false false]
        respLog := s.respLog ++ [⟨0x23#8, [0#32]⟩] })

/-- R159, R162 (log 1, log 9): "TICK is accepted for ever in every state": from every sound state, with accepted HWINIT
arguments and only environment steps at its boundaries, a TICK ends in a next state, again a sound one. -/
def Obligations.TickIsAcceptedInEveryState : Prop :=
  ∀ s : State, s.Sound → s.drvWait = none → InitAccepted s.cfg → (∀ steps ∈ s.sched, EnvOnly steps) →
    ∃ t, exec .tick s = .next t ∧ t.Sound

/-! ## Invariants and rules of the whole machine -/

/-- R58, R220 (decision D9 of the spec): what power-on reset leaves, under every CONFIG and whatever the unspecified values:
DS, SHUTREQ, the four indices, ERRLOG, the controller's listed registers and the two histories. -/
def Obligations.ResetGivesTheListedValues : Prop :=
  ∀ (c : Config) (d : ResetDraws) (s : State), s = State.resetWith c d →
    s.cfg = c ∧ s.ds = .init ∧ s.shutReq = false ∧ s.txf.wr = 0 ∧ s.txf.rd = 0 ∧ s.rxr.wr = 0 ∧ s.rxr.rd = 0 ∧
    s.errLog = ⟨false, false, false⟩ ∧ s.ctl.mode = .reset ∧ s.ctl.fdEn = false ∧ s.ctl.fltWe = true ∧ s.ctl.fltN = 0 ∧
    s.ctl.ie = ⟨false, false, false⟩ ∧ s.ctl.ifl = ⟨false, false, false⟩ ∧ s.ctl.rxip = false ∧ s.ctl.txReq = false ∧
    s.ctl.hwrx = [] ∧ s.ctl.bo = false ∧ s.ctl.tec = 0#8 ∧ s.ctl.recCnt = 0#8 ∧ s.busOut = [] ∧ s.hriLog = []

/-- R58, R220, R21, R25: after power-on reset, under every CONFIG whose sizes are as R9 requires and for every draw of the
unspecified values that gives frames of legal length in slots there are, the state is sound, the machine is in Init,
both buffers are empty and the controller is idle in Reset mode. -/
def Obligations.ResetIsSound : Prop :=
  ∀ (c : Config) (d : ResetDraws), c.sizesOk = true →
    (⟨d.txSlots, 0, 0⟩ : Ring).Sound c.cTx → (⟨d.rxSlots, 0, 0⟩ : Ring).Sound c.cRx →
    (State.resetWith c d).Sound ∧ (State.resetWith c d).Lifecycle ∧
      (State.resetWith c d).ds = .init ∧ (State.resetWith c d).txQueue = [] ∧ (State.resetWith c d).rxQueue = [] ∧
      (State.resetWith c d).ctl.mode = .reset ∧ (State.resetWith c d).ctl.irqLine = false ∧
      (State.resetWith c d).ctl.rxEmpty = true

/-- R18, R21, R22, R25, R26, R36, R44: every step keeps the state invariants, whatever request it serves and whatever other
agents do inside it. -/
def Obligations.EveryStepKeepsSoundness : Prop :=
  ∀ s t : State, s.Sound → step s = .next t → t.Sound

/-- R12, R64 (log 10): "No operation faults or traps": from a sound state no step faults. -/
def Obligations.SoundStatesNeverFault : Prop :=
  ∀ s : State, s.Sound → s.StepsSafely

/-- R161 (log 9): every step that does not serve a request of DRV's own keeps the invariant of the state machine: while
`DS = ActiveOperation` the controller operates with the configured filters and timing, while `DS = Shutdown` it is in
Reset mode with no interrupt enabled. (DRV's operations are "never issued from outside", R90.) -/
def Obligations.EveryStepKeepsTheLifecycle : Prop :=
  ∀ s t : State, s.Lifecycle → (∀ i rest, decode s.inbox = .ok i rest → i.agent ≠ .drv) → step s = .next t → t.Lifecycle

/-- R159, R16 (log 9): the transitions of DS: a step changes it only by the pairs of the table, only where the request
served (or taken up again) is a TICK, and to Shutdown only with SHUTREQ set, to ErrorHandling only under BusOffFlag. -/
def Obligations.DriverStateFollowsTheTable : Prop :=
  ∀ s t : State, step s = .next t → t.ds ≠ s.ds →
    ((s.ds = .init ∧ t.ds = .activeOperation) ∨
      (s.ds = .activeOperation ∧ t.ds = .errorHandling ∧ s.cfg.busErrPolicy = .busOffFlag) ∨
      (s.ds = .errorHandling ∧ t.ds = .activeOperation) ∨
      (s.ds ≠ .shutdown ∧ t.ds = .shutdown ∧ s.shutReq = true)) ∧
    ((∃ rest, decode s.inbox = .ok .tick rest) ∨ (s.ctl.clkStable = true ∧ s.drvWait = some .tick))

/-- R76, R9 (log 2, log 8): CONFIG is constant over a run; a step that changes CTL.NBT has logged a HWINIT or a SETBAUD,
one that changes CTL.FLT or CTL.FLT_N a HWINIT or a CFGFLT. -/
def Obligations.ConfigurationIsCoherent : Prop :=
  ∀ s t : State, step s = .next t →
    t.cfg = s.cfg ∧
    (t.ctl.nbt ≠ s.ctl.nbt → ∃ c ∈ t.hriLog.drop s.hriLog.length,
      (∃ m r fd b, c = .hwinit m r fd b) ∨ ∃ r b, c = .setbaud r b) ∧
    (t.ctl.flt ≠ s.ctl.flt ∨ t.ctl.fltN ≠ s.ctl.fltN → ∃ c ∈ t.hriLog.drop s.hriLog.length,
      (∃ m r fd b, c = .hwinit m r fd b) ∨ ∃ b, c = .cfgflt b)

/-- R221, R27, R29, R158: nothing but power-on reset clears SHUTREQ or a flag of ERRLOG or leaves Shutdown. -/
def Obligations.LatchesAndShutdownStay : Prop :=
  ∀ s t : State, step s = .next t →
    (s.shutReq = true → t.shutReq = true) ∧ (s.errLog.th = true → t.errLog.th = true) ∧
      (s.errLog.ml = true → t.errLog.ml = true) ∧ (s.errLog.de = true → t.errLog.de = true) ∧
      (s.ds = .shutdown → t.ds = .shutdown)

/-- R56, R57 (log 7): BUS_OUT and HRI_LOG are histories: a step only appends to them, and to the answers given. -/
def Obligations.HistoriesOnlyGrow : Prop :=
  ∀ s t : State, step s = .next t → s.busOut <+: t.busOut ∧ s.hriLog <+: t.hriLog ∧ s.respLog <+: t.respLog

/-- R179, R48 (log 8): bus-off ends only by entry into Reset mode: a step after which CTL.BO is no longer 1 has logged a
call of HWINIT or DEINIT; so no event ends it. -/
def Obligations.BusOffEndsOnlyByResetEntry : Prop :=
  ∀ s t : State, step s = .next t → s.ctl.bo = true → t.ctl.bo = false →
    ∃ c ∈ t.hriLog.drop s.hriLog.length, c = .deinit ∨ ∃ m r fd b, c = .hwinit m r fd b

/-- R21, R25, R23, R51, R204, R61: who moves which index. With nothing scheduled inside it, a request other than those
named leaves the index alone: TXF.wr is ENQTX's, RXR.rd DEQRX's, TXF.rd DRAINTX's, RXR.wr FILLRX's, beside BUFINIT and
what calls these. A TICK out of Init leaves TXF.wr, TXF's cells and RXR.rd alone, and out of Init and ActiveOperation
both buffers; BUFINIT, DRVINIT and a TICK in Init set all four indices to 0 or leave them. -/
def Obligations.EachIndexHasItsWriter : Prop :=
  ∀ (i : Instr) (s t : State), s.sched = [] → exec i s = .next t →
    ((∀ f, i ≠ .enqtx f) → i ∉ [.bufinit, .drvinit, .tick] → t.txf.wr = s.txf.wr ∧ t.txf.slots = s.txf.slots) ∧
    (i ∉ [.deqrx, .bufinit, .drvinit, .tick] → t.rxr.rd = s.rxr.rd) ∧
    (i ∉ [.draintx, .bufinit, .drvinit, .tick] → t.txf.rd = s.txf.rd) ∧
    (i ∉ [.fillrx, .bufinit, .drvinit, .tick] → t.rxr.wr = s.rxr.wr ∧ t.rxr.slots = s.rxr.slots) ∧
    (i = .tick → s.ds ≠ .init →
      t.txf.wr = s.txf.wr ∧ t.txf.slots = s.txf.slots ∧ t.rxr.rd = s.rxr.rd ∧
      (s.ds ≠ .activeOperation → t.txf = s.txf ∧ t.rxr = s.rxr)) ∧
    (i = .bufinit ∨ i = .drvinit ∨ (i = .tick ∧ s.ds = .init) →
      (t.txf = s.txf ∧ t.rxr = s.rxr) ∨
      (t.txf = { s.txf with wr := 0, rd := 0 } ∧ t.rxr = { s.rxr with wr := 0, rd := 0 }))

/-- R68 (a), R242, R35, R36 (log 8): the filter table is locked: a step that changes CTL.FLT or CTL.FLT_N either found
CTL.FLT_WE at 1 or passed through Reset mode in a HWINIT that it logged. -/
def Obligations.FilterTableStaysLocked : Prop :=
  ∀ s t : State, step s = .next t → s.ctl.fltWe = false → (t.ctl.flt ≠ s.ctl.flt ∨ t.ctl.fltN ≠ s.ctl.fltN) →
    ∃ c ∈ t.hriLog.drop s.hriLog.length, ∃ m r fd b, c = .hwinit m r fd b

/-- R71 (h), R73, R122, R146, R232, R241 (log 9, log 12): at every boundary CTRL, BUS, CLK and ISR step as they would
between requests; APP and HOST do so between two calls and at no boundary inside an operation; a SCHED or DRV request at
a boundary, or while DRV is inside one, has no meaning. While DRV is stuck inside HWINIT, with no step enabled until
CTL.CLKSTABLE is 1, ENQTX is served beside the environment's and the interrupt's steps, DEQRX and REQSHUT are refused;
once DRV has a step no request is served before it. -/
def Obligations.BoundariesAdmitTheRightAgents : Prop :=
  ∀ (i : Instr) (s : State),
    (isEnv i = true → ∀ k, interject k i s = exec i s) ∧
    (isTask i = true → interject .betweenCalls i s = exec i s ∧
      interject .insideOperation i s = .refused .taskStepInsideOperation) ∧
    (i.agent = .sched ∨ i.agent = .drv → (∀ k, interject k i s = .refused .overlappingRequest) ∧
      (s.drvWait ≠ none → exec i s = .refused .overlappingRequest)) ∧
    (∀ c rest, s.drvWait = some c → decode s.inbox = .ok i rest →
      (s.ctl.clkStable = false → isEnv i = true ∨ (∃ f, i = .enqtx f) → step s = exec i { s with inbox := rest }) ∧
      (s.ctl.clkStable = false → i = .deqrx ∨ i = .reqshut → step s = .refused .taskStepInsideOperation) ∧
      (s.ctl.clkStable = true → ∀ t, step s = .next t → t.inbox = s.inbox))

/-- R51, R61, R171 (log 7): a step of CTRL, BUS, CLK or ISR always answers a next state and leaves the driver's own
state alone: the buffers, DS, SHUTREQ, HRI_LOG, the caller's outputs, and the registers only the HRI writes. -/
def Obligations.EnvironmentStepsLeaveTheDriverAlone : Prop :=
  ∀ (i : Instr) (s : State), isEnv i = true →
    ∃ t, exec i s = .next t ∧
      t = { s with errLog := t.errLog, ctl := t.ctl, busOut := t.busOut, respLog := t.respLog } ∧
      t.ctl = { s.ctl with
        clkStable := t.ctl.clkStable, ifl := t.ctl.ifl, rxip := t.ctl.rxip, txReq := t.ctl.txReq
        hwrx := t.ctl.hwrx, bo := t.ctl.bo, tec := t.ctl.tec, recCnt := t.ctl.recCnt } ∧
      s.ctl.hwrx <+: t.ctl.hwrx ∧ (t.ctl.txReq = true → s.ctl.txReq = true)

/-- R102 (log 7): from an empty FIFO, C_TX - 1 ENQTX in a row answer Success and the next answers Full. -/
def Obligations.EnqtxCapacityIsOneLessThanSlots : Prop :=
  ∀ (fs : List CanFrame) (s : State), s.Sound → s.txf.rd = s.txf.wr → fs.length = s.cfg.cTx →
    ∃ t, serve (fs.map Instr.enqtx) s = .next t ∧
      t.respLog = s.respLog ++ List.replicate (s.cfg.cTx - 1) ⟨0x01#8, [0#32]⟩ ++ [⟨0x01#8, [1#32]⟩]

/-- R105 (c), R172, R100, R101 (log 8, log 23): a frame enqueued into an empty FIFO, drained and sent, appears on the
bus exactly once, with its identifier, its clamped `dlc` and its first `dlc` bytes. -/
def Obligations.EnqueuedFrameReachesTheBus : Prop :=
  ∀ (f : CanFrame) (s : State), s.Sound → s.drvWait = none → s.txf.rd = s.txf.wr → s.ctl.mode = .normal →
    s.ctl.bo = false → s.ctl.txReq = false →
    ∃ t b, serve [.enqtx f, .draintx, .evTxdone, .draintx] s = .next t ∧ t.busOut = s.busOut ++ [b] ∧
      b.id = f.id ∧ b.dlc.toNat = min f.dlc.toNat 8 ∧ b.data = f.data.bytes.take (min f.dlc.toNat 8) ∧
      t.txQueue = [] ∧ ∃ g, t.hriLog = s.hriLog ++ [.tx1 g true]

/-- R22, R26, R101, R102, R105, R108, R111 (log 1): the two circular buffers refine bounded queues, from every sound
state: ENQTX appends the frame it is given, `dlc` clamped, DRAINTX takes the oldest from or leaves the queue, FILLRX,
with no other agent stepping (`sched = []`), appends the frame it receives, DEQRX takes the oldest and delivers it, and
ENQTX and FILLRX are turned away exactly when the queue holds C - 1 frames. -/
def Obligations.BuffersRefineBoundedQueues : Prop :=
  ∀ (s t : State), s.Sound →
    s.txQueue.length ≤ s.cfg.cTx - 1 ∧ s.rxQueue.length ≤ s.cfg.cRx - 1 ∧
    (∀ f, exec (.enqtx f) s = .next t →
      if s.txQueue.length = s.cfg.cTx - 1 then t.txQueue = s.txQueue
      else ∃ g, t.txQueue = s.txQueue ++ [g] ∧ g.id = f.id ∧ g.dlc.toNat = min f.dlc.toNat 8 ∧
        g.data.bytes.take (min f.dlc.toNat 8) = f.data.bytes.take (min f.dlc.toNat 8)) ∧
    (exec .draintx s = .next t →
      t.txQueue = if s.ctl.txReq = true then s.txQueue else s.txQueue.tail) ∧
    (s.sched = [] → exec .fillrx s = .next t →
      t.rxQueue = if s.rxQueue.length = s.cfg.cRx - 1 then s.rxQueue
        else s.rxQueue ++ (s.ctl.hwrx.take 1).map delivered) ∧
    (exec .deqrx s = .next t →
      t.rxQueue = s.rxQueue.tail ∧ ∀ g, s.rxQueue.head? = some g → t.appOut.id = g.id ∧ t.appOut.dlc = g.dlc ∧
        t.appOut.data.bytes.take g.dlc.toNat = g.data.bytes.take g.dlc.toNat)

/-- R82: `pack` puts the first byte least significant, in both data windows, as in the spec's example. -/
def Obligations.DataWindowsAreLittleEndian : Prop :=
  (∀ b0 b1 b2 b3 : Byte,
    pack b0 b1 b2 b3 = b3 ++ b2 ++ b1 ++ b0 ∧
    (pack b0 b1 b2 b3).toNat = b0.toNat + 256 * b1.toNat + 65536 * b2.toNat + 16777216 * b3.toNat) ∧
  (∀ f : CanFrame, f.image = [f.id, f.dlc.setWidth 32,
    pack f.data.b0 f.data.b1 f.data.b2 f.data.b3, pack f.data.b4 f.data.b5 f.data.b6 f.data.b7]) ∧
  (∀ f : CanFrame, f.data = ⟨0x11#8, 0x22#8, 0x33#8, 0x44#8, 0x55#8, 0x66#8, 0x77#8, 0x88#8⟩ →
    f.image.drop 2 = [0x44332211#32, 0x88776655#32])
end

