-- ==== Sys2Proof/Laws/Memory.lean ====
section
/-! SUPPORT. The laws of the slot spaces: a read after a write, and the canonical form every operation keeps. -/

namespace Sys2Proof.Machine

@[simp] theorem Memory.read_nil (i : Nat) : Memory.read [] i = Memory.unlisted := rfl

theorem Memory.read_erase_same (m : SlotMem) (i : Nat) : Memory.read (Memory.erase m i) i = Memory.unlisted := by
  induction m with
  | nil => rfl
  | cons e rest ih =>
    obtain ⟨j, c⟩ := e
    by_cases h : j = i <;> simp [Memory.erase, Memory.read, h, ih]

theorem Memory.read_erase_other (m : SlotMem) {i k : Nat} (hk : k ≠ i) :
    Memory.read (Memory.erase m i) k = Memory.read m k := by
  induction m with
  | nil => rfl
  | cons e rest ih =>
    obtain ⟨j, c⟩ := e
    by_cases h : j = i
    · subst h; simp [Memory.erase, Memory.read, ih, Ne.symm hk]
    · simp [Memory.erase, Memory.read, h, ih]

theorem Memory.read_insert_other (m : SlotMem) {i k : Nat} (c : CanFrame) (hk : k ≠ i) :
    Memory.read (Memory.insert m i c) k = Memory.read m k := by
  induction m with
  | nil => simp [Memory.insert, Memory.read, Ne.symm hk]
  | cons e rest ih =>
    obtain ⟨j, d⟩ := e
    by_cases h : i < j <;> simp [Memory.insert, Memory.read, h, ih, Ne.symm hk]

theorem Memory.read_insert_erased (m : SlotMem) (i : Nat) (c : CanFrame) :
    Memory.read (Memory.insert (Memory.erase m i) i c) i = c := by
  induction m with
  | nil => simp [Memory.erase, Memory.insert, Memory.read]
  | cons e rest ih =>
    obtain ⟨j, d⟩ := e
    by_cases h : j = i
    · simp [Memory.erase, h, ih]
    · by_cases h' : i < j <;> simp [Memory.erase, Memory.insert, Memory.read, h, h', ih]

/-- Reading a slot after writing it gives the cell written. -/
@[simp] theorem Memory.read_write_same (m : SlotMem) (i : Nat) (c : CanFrame) :
    Memory.read (Memory.write m i c) i = c := by
  unfold Memory.write
  split
  · rename_i h; rw [h]; exact Memory.read_erase_same m i
  · exact Memory.read_insert_erased m i c

/-- Writing a slot leaves every other slot alone. -/
theorem Memory.read_write_other (m : SlotMem) {i k : Nat} (c : CanFrame) (hk : k ≠ i) :
    Memory.read (Memory.write m i c) k = Memory.read m k := by
  unfold Memory.write
  split
  · exact Memory.read_erase_other m hk
  · rw [Memory.read_insert_other _ _ hk]; exact Memory.read_erase_other m hk

theorem Memory.wfAbove_mono {lo lo' : Nat} (m : SlotMem) (h : lo' ≤ lo) (hm : Memory.wfAbove lo m = true) :
    Memory.wfAbove lo' m = true := by
  cases m with
  | nil => rfl
  | cons e rest =>
    obtain ⟨j, c⟩ := e
    simp [Memory.wfAbove] at hm ⊢
    exact ⟨⟨by omega, hm.1.2⟩, hm.2⟩

theorem Memory.wfAbove_erase (m : SlotMem) (i lo : Nat) (hm : Memory.wfAbove lo m = true) :
    Memory.wfAbove lo (Memory.erase m i) = true := by
  induction m generalizing lo with
  | nil => rfl
  | cons e rest ih =>
    obtain ⟨j, c⟩ := e
    simp [Memory.wfAbove] at hm
    by_cases h : j = i
    · simp [Memory.erase, h]
      exact Memory.wfAbove_mono _ (by omega) (ih (j + 1) hm.2)
    · simp [Memory.erase, h, Memory.wfAbove, hm.1.1, hm.1.2, ih (j + 1) hm.2]

theorem Memory.wfAbove_insert (m : SlotMem) (i lo : Nat) (c : CanFrame) (hc : c ≠ Memory.unlisted) (hlo : lo ≤ i)
    (hm : Memory.wfAbove lo m = true) : Memory.wfAbove lo (Memory.insert (Memory.erase m i) i c) = true := by
  induction m generalizing lo with
  | nil => simp [Memory.erase, Memory.insert, Memory.wfAbove, hc, hlo]
  | cons e rest ih =>
    obtain ⟨j, d⟩ := e
    simp [Memory.wfAbove] at hm
    by_cases h : j = i
    · simp [Memory.erase, h]
      exact ih lo hlo (Memory.wfAbove_mono _ (by omega) hm.2)
    · by_cases h' : i < j
      · have hj : i + 1 ≤ j := by omega
        simp [Memory.erase, h, Memory.insert, h', Memory.wfAbove, hc, hlo, hm.1.2, hj, Memory.wfAbove_erase _ _ _ hm.2]
      · simp [Memory.erase, h, Memory.insert, h', Memory.wfAbove, hm.1.1, hm.1.2]
        exact ih (j + 1) (by omega) hm.2

/-- A write keeps the canonical form. -/
theorem Memory.wf_write (m : SlotMem) (i : Nat) (c : CanFrame) (hm : Memory.wf m = true) :
    Memory.wf (Memory.write m i c) = true := by
  unfold Memory.wf Memory.write at *
  split
  · exact Memory.wfAbove_erase _ _ _ hm
  · rename_i h; exact Memory.wfAbove_insert _ _ _ _ h (Nat.zero_le _) hm

theorem Memory.mem_erase {m : SlotMem} {i : Nat} {e : Nat × CanFrame} (h : e ∈ Memory.erase m i) : e ∈ m := by
  induction m with
  | nil => exact h
  | cons a rest ih =>
    obtain ⟨j, c⟩ := a
    by_cases hj : j = i
    · simp [Memory.erase, hj] at h; exact List.mem_cons_of_mem _ (ih h)
    · simp [Memory.erase, hj] at h ⊢
      exact h.imp id ih

theorem Memory.mem_insert {m : SlotMem} {i : Nat} {c : CanFrame} {e : Nat × CanFrame}
    (h : e ∈ Memory.insert m i c) : e = (i, c) ∨ e ∈ m := by
  induction m with
  | nil => simpa [Memory.insert] using h
  | cons a rest ih =>
    obtain ⟨j, d⟩ := a
    by_cases hj : i < j
    · simpa [Memory.insert, hj] using h
    · simp [Memory.insert, hj] at h ⊢
      rcases h with h | h
      · exact .inr (.inl h)
      · exact (ih h).imp id .inr

/-- Every entry after a write is the one written or was there before. -/
theorem Memory.mem_write {m : SlotMem} {i : Nat} {c : CanFrame} {e : Nat × CanFrame}
    (h : e ∈ Memory.write m i c) : e = (i, c) ∨ e ∈ m := by
  unfold Memory.write at h
  split at h
  · exact .inr (Memory.mem_erase h)
  · exact (Memory.mem_insert h).imp id Memory.mem_erase

/-- A write to a slot there is keeps every index below the capacity. -/
theorem Memory.below_write {cap : Nat} {m : SlotMem} {i : Nat} {c : CanFrame} (hi : i < cap)
    (hm : Memory.below cap m = true) : Memory.below cap (Memory.write m i c) = true := by
  simp only [Memory.below, List.all_eq_true, decide_eq_true_eq] at hm ⊢
  intro e he
  rcases Memory.mem_write he with rfl | he
  · exact hi
  · exact hm e he

/-- What a read gives is the unlisted cell or a listed one. -/
theorem Memory.read_mem (m : SlotMem) (i : Nat) : Memory.read m i = Memory.unlisted ∨ (i, Memory.read m i) ∈ m := by
  induction m with
  | nil => exact .inl rfl
  | cons e rest ih =>
    obtain ⟨j, c⟩ := e
    by_cases h : j = i
    · subst h; exact .inr (by simp [Memory.read])
    · simp only [Memory.read, h, if_false]
      exact ih.imp id (fun h => List.mem_cons_of_mem _ h)

end Sys2Proof.Machine
end

