-- ==== Sys2Proof/Laws/State.lean ====
section
/-! SUPPORT. One lemma per field per update of State, each true by unfolding the update once. -/

namespace Sys2Proof.Machine


@[simp] theorem State.setDs_cfg (s : State) (d : DriverState) : (s.setDs d).cfg = s.cfg := rfl
@[simp] theorem State.setDs_ds (s : State) (d : DriverState) : (s.setDs d).ds = d := rfl
@[simp] theorem State.setDs_shutReq (s : State) (d : DriverState) : (s.setDs d).shutReq = s.shutReq := rfl
@[simp] theorem State.setDs_txf (s : State) (d : DriverState) : (s.setDs d).txf = s.txf := rfl
@[simp] theorem State.setDs_rxr (s : State) (d : DriverState) : (s.setDs d).rxr = s.rxr := rfl
@[simp] theorem State.setDs_errLog (s : State) (d : DriverState) : (s.setDs d).errLog = s.errLog := rfl
@[simp] theorem State.setDs_ctl (s : State) (d : DriverState) : (s.setDs d).ctl = s.ctl := rfl
@[simp] theorem State.setDs_busOut (s : State) (d : DriverState) : (s.setDs d).busOut = s.busOut := rfl
@[simp] theorem State.setDs_hriLog (s : State) (d : DriverState) : (s.setDs d).hriLog = s.hriLog := rfl
@[simp] theorem State.setDs_respLog (s : State) (d : DriverState) : (s.setDs d).respLog = s.respLog := rfl
@[simp] theorem State.setDs_appOut (s : State) (d : DriverState) : (s.setDs d).appOut = s.appOut := rfl
@[simp] theorem State.setDs_hriOut (s : State) (d : DriverState) : (s.setDs d).hriOut = s.hriOut := rfl
@[simp] theorem State.setDs_errOut (s : State) (d : DriverState) : (s.setDs d).errOut = s.errOut := rfl
@[simp] theorem State.setDs_inbox (s : State) (d : DriverState) : (s.setDs d).inbox = s.inbox := rfl
@[simp] theorem State.setDs_drvWait (s : State) (d : DriverState) : (s.setDs d).drvWait = s.drvWait := rfl
@[simp] theorem State.setDs_sched (s : State) (d : DriverState) : (s.setDs d).sched = s.sched := rfl

@[simp] theorem State.setShutReq_cfg (s : State) (b : Bool) : (s.setShutReq b).cfg = s.cfg := rfl
@[simp] theorem State.setShutReq_ds (s : State) (b : Bool) : (s.setShutReq b).ds = s.ds := rfl
@[simp] theorem State.setShutReq_shutReq (s : State) (b : Bool) : (s.setShutReq b).shutReq = b := rfl
@[simp] theorem State.setShutReq_txf (s : State) (b : Bool) : (s.setShutReq b).txf = s.txf := rfl
@[simp] theorem State.setShutReq_rxr (s : State) (b : Bool) : (s.setShutReq b).rxr = s.rxr := rfl
@[simp] theorem State.setShutReq_errLog (s : State) (b : Bool) : (s.setShutReq b).errLog = s.errLog := rfl
@[simp] theorem State.setShutReq_ctl (s : State) (b : Bool) : (s.setShutReq b).ctl = s.ctl := rfl
@[simp] theorem State.setShutReq_busOut (s : State) (b : Bool) : (s.setShutReq b).busOut = s.busOut := rfl
@[simp] theorem State.setShutReq_hriLog (s : State) (b : Bool) : (s.setShutReq b).hriLog = s.hriLog := rfl
@[simp] theorem State.setShutReq_respLog (s : State) (b : Bool) : (s.setShutReq b).respLog = s.respLog := rfl
@[simp] theorem State.setShutReq_appOut (s : State) (b : Bool) : (s.setShutReq b).appOut = s.appOut := rfl
@[simp] theorem State.setShutReq_hriOut (s : State) (b : Bool) : (s.setShutReq b).hriOut = s.hriOut := rfl
@[simp] theorem State.setShutReq_errOut (s : State) (b : Bool) : (s.setShutReq b).errOut = s.errOut := rfl
@[simp] theorem State.setShutReq_inbox (s : State) (b : Bool) : (s.setShutReq b).inbox = s.inbox := rfl
@[simp] theorem State.setShutReq_drvWait (s : State) (b : Bool) : (s.setShutReq b).drvWait = s.drvWait := rfl
@[simp] theorem State.setShutReq_sched (s : State) (b : Bool) : (s.setShutReq b).sched = s.sched := rfl

@[simp] theorem State.setTxf_cfg (s : State) (r : Ring) : (s.setTxf r).cfg = s.cfg := rfl
@[simp] theorem State.setTxf_ds (s : State) (r : Ring) : (s.setTxf r).ds = s.ds := rfl
@[simp] theorem State.setTxf_shutReq (s : State) (r : Ring) : (s.setTxf r).shutReq = s.shutReq := rfl
@[simp] theorem State.setTxf_txf (s : State) (r : Ring) : (s.setTxf r).txf = r := rfl
@[simp] theorem State.setTxf_rxr (s : State) (r : Ring) : (s.setTxf r).rxr = s.rxr := rfl
@[simp] theorem State.setTxf_errLog (s : State) (r : Ring) : (s.setTxf r).errLog = s.errLog := rfl
@[simp] theorem State.setTxf_ctl (s : State) (r : Ring) : (s.setTxf r).ctl = s.ctl := rfl
@[simp] theorem State.setTxf_busOut (s : State) (r : Ring) : (s.setTxf r).busOut = s.busOut := rfl
@[simp] theorem State.setTxf_hriLog (s : State) (r : Ring) : (s.setTxf r).hriLog = s.hriLog := rfl
@[simp] theorem State.setTxf_respLog (s : State) (r : Ring) : (s.setTxf r).respLog = s.respLog := rfl
@[simp] theorem State.setTxf_appOut (s : State) (r : Ring) : (s.setTxf r).appOut = s.appOut := rfl
@[simp] theorem State.setTxf_hriOut (s : State) (r : Ring) : (s.setTxf r).hriOut = s.hriOut := rfl
@[simp] theorem State.setTxf_errOut (s : State) (r : Ring) : (s.setTxf r).errOut = s.errOut := rfl
@[simp] theorem State.setTxf_inbox (s : State) (r : Ring) : (s.setTxf r).inbox = s.inbox := rfl
@[simp] theorem State.setTxf_drvWait (s : State) (r : Ring) : (s.setTxf r).drvWait = s.drvWait := rfl
@[simp] theorem State.setTxf_sched (s : State) (r : Ring) : (s.setTxf r).sched = s.sched := rfl

@[simp] theorem State.setRxr_cfg (s : State) (r : Ring) : (s.setRxr r).cfg = s.cfg := rfl
@[simp] theorem State.setRxr_ds (s : State) (r : Ring) : (s.setRxr r).ds = s.ds := rfl
@[simp] theorem State.setRxr_shutReq (s : State) (r : Ring) : (s.setRxr r).shutReq = s.shutReq := rfl
@[simp] theorem State.setRxr_txf (s : State) (r : Ring) : (s.setRxr r).txf = s.txf := rfl
@[simp] theorem State.setRxr_rxr (s : State) (r : Ring) : (s.setRxr r).rxr = r := rfl
@[simp] theorem State.setRxr_errLog (s : State) (r : Ring) : (s.setRxr r).errLog = s.errLog := rfl
@[simp] theorem State.setRxr_ctl (s : State) (r : Ring) : (s.setRxr r).ctl = s.ctl := rfl
@[simp] theorem State.setRxr_busOut (s : State) (r : Ring) : (s.setRxr r).busOut = s.busOut := rfl
@[simp] theorem State.setRxr_hriLog (s : State) (r : Ring) : (s.setRxr r).hriLog = s.hriLog := rfl
@[simp] theorem State.setRxr_respLog (s : State) (r : Ring) : (s.setRxr r).respLog = s.respLog := rfl
@[simp] theorem State.setRxr_appOut (s : State) (r : Ring) : (s.setRxr r).appOut = s.appOut := rfl
@[simp] theorem State.setRxr_hriOut (s : State) (r : Ring) : (s.setRxr r).hriOut = s.hriOut := rfl
@[simp] theorem State.setRxr_errOut (s : State) (r : Ring) : (s.setRxr r).errOut = s.errOut := rfl
@[simp] theorem State.setRxr_inbox (s : State) (r : Ring) : (s.setRxr r).inbox = s.inbox := rfl
@[simp] theorem State.setRxr_drvWait (s : State) (r : Ring) : (s.setRxr r).drvWait = s.drvWait := rfl
@[simp] theorem State.setRxr_sched (s : State) (r : Ring) : (s.setRxr r).sched = s.sched := rfl

@[simp] theorem State.setErrLog_cfg (s : State) (e : IrqBits) : (s.setErrLog e).cfg = s.cfg := rfl
@[simp] theorem State.setErrLog_ds (s : State) (e : IrqBits) : (s.setErrLog e).ds = s.ds := rfl
@[simp] theorem State.setErrLog_shutReq (s : State) (e : IrqBits) : (s.setErrLog e).shutReq = s.shutReq := rfl
@[simp] theorem State.setErrLog_txf (s : State) (e : IrqBits) : (s.setErrLog e).txf = s.txf := rfl
@[simp] theorem State.setErrLog_rxr (s : State) (e : IrqBits) : (s.setErrLog e).rxr = s.rxr := rfl
@[simp] theorem State.setErrLog_errLog (s : State) (e : IrqBits) : (s.setErrLog e).errLog = e := rfl
@[simp] theorem State.setErrLog_ctl (s : State) (e : IrqBits) : (s.setErrLog e).ctl = s.ctl := rfl
@[simp] theorem State.setErrLog_busOut (s : State) (e : IrqBits) : (s.setErrLog e).busOut = s.busOut := rfl
@[simp] theorem State.setErrLog_hriLog (s : State) (e : IrqBits) : (s.setErrLog e).hriLog = s.hriLog := rfl
@[simp] theorem State.setErrLog_respLog (s : State) (e : IrqBits) : (s.setErrLog e).respLog = s.respLog := rfl
@[simp] theorem State.setErrLog_appOut (s : State) (e : IrqBits) : (s.setErrLog e).appOut = s.appOut := rfl
@[simp] theorem State.setErrLog_hriOut (s : State) (e : IrqBits) : (s.setErrLog e).hriOut = s.hriOut := rfl
@[simp] theorem State.setErrLog_errOut (s : State) (e : IrqBits) : (s.setErrLog e).errOut = s.errOut := rfl
@[simp] theorem State.setErrLog_inbox (s : State) (e : IrqBits) : (s.setErrLog e).inbox = s.inbox := rfl
@[simp] theorem State.setErrLog_drvWait (s : State) (e : IrqBits) : (s.setErrLog e).drvWait = s.drvWait := rfl
@[simp] theorem State.setErrLog_sched (s : State) (e : IrqBits) : (s.setErrLog e).sched = s.sched := rfl

@[simp] theorem State.setCtl_cfg (s : State) (c : Ctl) : (s.setCtl c).cfg = s.cfg := rfl
@[simp] theorem State.setCtl_ds (s : State) (c : Ctl) : (s.setCtl c).ds = s.ds := rfl
@[simp] theorem State.setCtl_shutReq (s : State) (c : Ctl) : (s.setCtl c).shutReq = s.shutReq := rfl
@[simp] theorem State.setCtl_txf (s : State) (c : Ctl) : (s.setCtl c).txf = s.txf := rfl
@[simp] theorem State.setCtl_rxr (s : State) (c : Ctl) : (s.setCtl c).rxr = s.rxr := rfl
@[simp] theorem State.setCtl_errLog (s : State) (c : Ctl) : (s.setCtl c).errLog = s.errLog := rfl
@[simp] theorem State.setCtl_ctl (s : State) (c : Ctl) : (s.setCtl c).ctl = c := rfl
@[simp] theorem State.setCtl_busOut (s : State) (c : Ctl) : (s.setCtl c).busOut = s.busOut := rfl
@[simp] theorem State.setCtl_hriLog (s : State) (c : Ctl) : (s.setCtl c).hriLog = s.hriLog := rfl
@[simp] theorem State.setCtl_respLog (s : State) (c : Ctl) : (s.setCtl c).respLog = s.respLog := rfl
@[simp] theorem State.setCtl_appOut (s : State) (c : Ctl) : (s.setCtl c).appOut = s.appOut := rfl
@[simp] theorem State.setCtl_hriOut (s : State) (c : Ctl) : (s.setCtl c).hriOut = s.hriOut := rfl
@[simp] theorem State.setCtl_errOut (s : State) (c : Ctl) : (s.setCtl c).errOut = s.errOut := rfl
@[simp] theorem State.setCtl_inbox (s : State) (c : Ctl) : (s.setCtl c).inbox = s.inbox := rfl
@[simp] theorem State.setCtl_drvWait (s : State) (c : Ctl) : (s.setCtl c).drvWait = s.drvWait := rfl
@[simp] theorem State.setCtl_sched (s : State) (c : Ctl) : (s.setCtl c).sched = s.sched := rfl

@[simp] theorem State.setAppOut_cfg (s : State) (f : CanFrame) : (s.setAppOut f).cfg = s.cfg := rfl
@[simp] theorem State.setAppOut_ds (s : State) (f : CanFrame) : (s.setAppOut f).ds = s.ds := rfl
@[simp] theorem State.setAppOut_shutReq (s : State) (f : CanFrame) : (s.setAppOut f).shutReq = s.shutReq := rfl
@[simp] theorem State.setAppOut_txf (s : State) (f : CanFrame) : (s.setAppOut f).txf = s.txf := rfl
@[simp] theorem State.setAppOut_rxr (s : State) (f : CanFrame) : (s.setAppOut f).rxr = s.rxr := rfl
@[simp] theorem State.setAppOut_errLog (s : State) (f : CanFrame) : (s.setAppOut f).errLog = s.errLog := rfl
@[simp] theorem State.setAppOut_ctl (s : State) (f : CanFrame) : (s.setAppOut f).ctl = s.ctl := rfl
@[simp] theorem State.setAppOut_busOut (s : State) (f : CanFrame) : (s.setAppOut f).busOut = s.busOut := rfl
@[simp] theorem State.setAppOut_hriLog (s : State) (f : CanFrame) : (s.setAppOut f).hriLog = s.hriLog := rfl
@[simp] theorem State.setAppOut_respLog (s : State) (f : CanFrame) : (s.setAppOut f).respLog = s.respLog := rfl
@[simp] theorem State.setAppOut_appOut (s : State) (f : CanFrame) : (s.setAppOut f).appOut = f := rfl
@[simp] theorem State.setAppOut_hriOut (s : State) (f : CanFrame) : (s.setAppOut f).hriOut = s.hriOut := rfl
@[simp] theorem State.setAppOut_errOut (s : State) (f : CanFrame) : (s.setAppOut f).errOut = s.errOut := rfl
@[simp] theorem State.setAppOut_inbox (s : State) (f : CanFrame) : (s.setAppOut f).inbox = s.inbox := rfl
@[simp] theorem State.setAppOut_drvWait (s : State) (f : CanFrame) : (s.setAppOut f).drvWait = s.drvWait := rfl
@[simp] theorem State.setAppOut_sched (s : State) (f : CanFrame) : (s.setAppOut f).sched = s.sched := rfl

@[simp] theorem State.setHriOut_cfg (s : State) (f : CanFrame) : (s.setHriOut f).cfg = s.cfg := rfl
@[simp] theorem State.setHriOut_ds (s : State) (f : CanFrame) : (s.setHriOut f).ds = s.ds := rfl
@[simp] theorem State.setHriOut_shutReq (s : State) (f : CanFrame) : (s.setHriOut f).shutReq = s.shutReq := rfl
@[simp] theorem State.setHriOut_txf (s : State) (f : CanFrame) : (s.setHriOut f).txf = s.txf := rfl
@[simp] theorem State.setHriOut_rxr (s : State) (f : CanFrame) : (s.setHriOut f).rxr = s.rxr := rfl
@[simp] theorem State.setHriOut_errLog (s : State) (f : CanFrame) : (s.setHriOut f).errLog = s.errLog := rfl
@[simp] theorem State.setHriOut_ctl (s : State) (f : CanFrame) : (s.setHriOut f).ctl = s.ctl := rfl
@[simp] theorem State.setHriOut_busOut (s : State) (f : CanFrame) : (s.setHriOut f).busOut = s.busOut := rfl
@[simp] theorem State.setHriOut_hriLog (s : State) (f : CanFrame) : (s.setHriOut f).hriLog = s.hriLog := rfl
@[simp] theorem State.setHriOut_respLog (s : State) (f : CanFrame) : (s.setHriOut f).respLog = s.respLog := rfl
@[simp] theorem State.setHriOut_appOut (s : State) (f : CanFrame) : (s.setHriOut f).appOut = s.appOut := rfl
@[simp] theorem State.setHriOut_hriOut (s : State) (f : CanFrame) : (s.setHriOut f).hriOut = f := rfl
@[simp] theorem State.setHriOut_errOut (s : State) (f : CanFrame) : (s.setHriOut f).errOut = s.errOut := rfl
@[simp] theorem State.setHriOut_inbox (s : State) (f : CanFrame) : (s.setHriOut f).inbox = s.inbox := rfl
@[simp] theorem State.setHriOut_drvWait (s : State) (f : CanFrame) : (s.setHriOut f).drvWait = s.drvWait := rfl
@[simp] theorem State.setHriOut_sched (s : State) (f : CanFrame) : (s.setHriOut f).sched = s.sched := rfl

@[simp] theorem State.setErrOut_cfg (s : State) (e : ErrRecord) : (s.setErrOut e).cfg = s.cfg := rfl
@[simp] theorem State.setErrOut_ds (s : State) (e : ErrRecord) : (s.setErrOut e).ds = s.ds := rfl
@[simp] theorem State.setErrOut_shutReq (s : State) (e : ErrRecord) : (s.setErrOut e).shutReq = s.shutReq := rfl
@[simp] theorem State.setErrOut_txf (s : State) (e : ErrRecord) : (s.setErrOut e).txf = s.txf := rfl
@[simp] theorem State.setErrOut_rxr (s : State) (e : ErrRecord) : (s.setErrOut e).rxr = s.rxr := rfl
@[simp] theorem State.setErrOut_errLog (s : State) (e : ErrRecord) : (s.setErrOut e).errLog = s.errLog := rfl
@[simp] theorem State.setErrOut_ctl (s : State) (e : ErrRecord) : (s.setErrOut e).ctl = s.ctl := rfl
@[simp] theorem State.setErrOut_busOut (s : State) (e : ErrRecord) : (s.setErrOut e).busOut = s.busOut := rfl
@[simp] theorem State.setErrOut_hriLog (s : State) (e : ErrRecord) : (s.setErrOut e).hriLog = s.hriLog := rfl
@[simp] theorem State.setErrOut_respLog (s : State) (e : ErrRecord) : (s.setErrOut e).respLog = s.respLog := rfl
@[simp] theorem State.setErrOut_appOut (s : State) (e : ErrRecord) : (s.setErrOut e).appOut = s.appOut := rfl
@[simp] theorem State.setErrOut_hriOut (s : State) (e : ErrRecord) : (s.setErrOut e).hriOut = s.hriOut := rfl
@[simp] theorem State.setErrOut_errOut (s : State) (e : ErrRecord) : (s.setErrOut e).errOut = e := rfl
@[simp] theorem State.setErrOut_inbox (s : State) (e : ErrRecord) : (s.setErrOut e).inbox = s.inbox := rfl
@[simp] theorem State.setErrOut_drvWait (s : State) (e : ErrRecord) : (s.setErrOut e).drvWait = s.drvWait := rfl
@[simp] theorem State.setErrOut_sched (s : State) (e : ErrRecord) : (s.setErrOut e).sched = s.sched := rfl

@[simp] theorem State.setInbox_cfg (s : State) (ws : List Word) : (s.setInbox ws).cfg = s.cfg := rfl
@[simp] theorem State.setInbox_ds (s : State) (ws : List Word) : (s.setInbox ws).ds = s.ds := rfl
@[simp] theorem State.setInbox_shutReq (s : State) (ws : List Word) : (s.setInbox ws).shutReq = s.shutReq := rfl
@[simp] theorem State.setInbox_txf (s : State) (ws : List Word) : (s.setInbox ws).txf = s.txf := rfl
@[simp] theorem State.setInbox_rxr (s : State) (ws : List Word) : (s.setInbox ws).rxr = s.rxr := rfl
@[simp] theorem State.setInbox_errLog (s : State) (ws : List Word) : (s.setInbox ws).errLog = s.errLog := rfl
@[simp] theorem State.setInbox_ctl (s : State) (ws : List Word) : (s.setInbox ws).ctl = s.ctl := rfl
@[simp] theorem State.setInbox_busOut (s : State) (ws : List Word) : (s.setInbox ws).busOut = s.busOut := rfl
@[simp] theorem State.setInbox_hriLog (s : State) (ws : List Word) : (s.setInbox ws).hriLog = s.hriLog := rfl
@[simp] theorem State.setInbox_respLog (s : State) (ws : List Word) : (s.setInbox ws).respLog = s.respLog := rfl
@[simp] theorem State.setInbox_appOut (s : State) (ws : List Word) : (s.setInbox ws).appOut = s.appOut := rfl
@[simp] theorem State.setInbox_hriOut (s : State) (ws : List Word) : (s.setInbox ws).hriOut = s.hriOut := rfl
@[simp] theorem State.setInbox_errOut (s : State) (ws : List Word) : (s.setInbox ws).errOut = s.errOut := rfl
@[simp] theorem State.setInbox_inbox (s : State) (ws : List Word) : (s.setInbox ws).inbox = ws := rfl
@[simp] theorem State.setInbox_drvWait (s : State) (ws : List Word) : (s.setInbox ws).drvWait = s.drvWait := rfl
@[simp] theorem State.setInbox_sched (s : State) (ws : List Word) : (s.setInbox ws).sched = s.sched := rfl

@[simp] theorem State.setDrvWait_cfg (s : State) (c : Option DrvCall) : (s.setDrvWait c).cfg = s.cfg := rfl
@[simp] theorem State.setDrvWait_ds (s : State) (c : Option DrvCall) : (s.setDrvWait c).ds = s.ds := rfl
@[simp] theorem State.setDrvWait_shutReq (s : State) (c : Option DrvCall) : (s.setDrvWait c).shutReq = s.shutReq := rfl
@[simp] theorem State.setDrvWait_txf (s : State) (c : Option DrvCall) : (s.setDrvWait c).txf = s.txf := rfl
@[simp] theorem State.setDrvWait_rxr (s : State) (c : Option DrvCall) : (s.setDrvWait c).rxr = s.rxr := rfl
@[simp] theorem State.setDrvWait_errLog (s : State) (c : Option DrvCall) : (s.setDrvWait c).errLog = s.errLog := rfl
@[simp] theorem State.setDrvWait_ctl (s : State) (c : Option DrvCall) : (s.setDrvWait c).ctl = s.ctl := rfl
@[simp] theorem State.setDrvWait_busOut (s : State) (c : Option DrvCall) : (s.setDrvWait c).busOut = s.busOut := rfl
@[simp] theorem State.setDrvWait_hriLog (s : State) (c : Option DrvCall) : (s.setDrvWait c).hriLog = s.hriLog := rfl
@[simp] theorem State.setDrvWait_respLog (s : State) (c : Option DrvCall) : (s.setDrvWait c).respLog = s.respLog := rfl
@[simp] theorem State.setDrvWait_appOut (s : State) (c : Option DrvCall) : (s.setDrvWait c).appOut = s.appOut := rfl
@[simp] theorem State.setDrvWait_hriOut (s : State) (c : Option DrvCall) : (s.setDrvWait c).hriOut = s.hriOut := rfl
@[simp] theorem State.setDrvWait_errOut (s : State) (c : Option DrvCall) : (s.setDrvWait c).errOut = s.errOut := rfl
@[simp] theorem State.setDrvWait_inbox (s : State) (c : Option DrvCall) : (s.setDrvWait c).inbox = s.inbox := rfl
@[simp] theorem State.setDrvWait_drvWait (s : State) (c : Option DrvCall) : (s.setDrvWait c).drvWait = c := rfl
@[simp] theorem State.setDrvWait_sched (s : State) (c : Option DrvCall) : (s.setDrvWait c).sched = s.sched := rfl

@[simp] theorem State.setSched_cfg (s : State) (xs : List (List Instr)) : (s.setSched xs).cfg = s.cfg := rfl
@[simp] theorem State.setSched_ds (s : State) (xs : List (List Instr)) : (s.setSched xs).ds = s.ds := rfl
@[simp] theorem State.setSched_shutReq (s : State) (xs : List (List Instr)) : (s.setSched xs).shutReq = s.shutReq := rfl
@[simp] theorem State.setSched_txf (s : State) (xs : List (List Instr)) : (s.setSched xs).txf = s.txf := rfl
@[simp] theorem State.setSched_rxr (s : State) (xs : List (List Instr)) : (s.setSched xs).rxr = s.rxr := rfl
@[simp] theorem State.setSched_errLog (s : State) (xs : List (List Instr)) : (s.setSched xs).errLog = s.errLog := rfl
@[simp] theorem State.setSched_ctl (s : State) (xs : List (List Instr)) : (s.setSched xs).ctl = s.ctl := rfl
@[simp] theorem State.setSched_busOut (s : State) (xs : List (List Instr)) : (s.setSched xs).busOut = s.busOut := rfl
@[simp] theorem State.setSched_hriLog (s : State) (xs : List (List Instr)) : (s.setSched xs).hriLog = s.hriLog := rfl
@[simp] theorem State.setSched_respLog (s : State) (xs : List (List Instr)) : (s.setSched xs).respLog = s.respLog := rfl
@[simp] theorem State.setSched_appOut (s : State) (xs : List (List Instr)) : (s.setSched xs).appOut = s.appOut := rfl
@[simp] theorem State.setSched_hriOut (s : State) (xs : List (List Instr)) : (s.setSched xs).hriOut = s.hriOut := rfl
@[simp] theorem State.setSched_errOut (s : State) (xs : List (List Instr)) : (s.setSched xs).errOut = s.errOut := rfl
@[simp] theorem State.setSched_inbox (s : State) (xs : List (List Instr)) : (s.setSched xs).inbox = s.inbox := rfl
@[simp] theorem State.setSched_drvWait (s : State) (xs : List (List Instr)) : (s.setSched xs).drvWait = s.drvWait := rfl
@[simp] theorem State.setSched_sched (s : State) (xs : List (List Instr)) : (s.setSched xs).sched = xs := rfl

@[simp] theorem State.pushBus_cfg (s : State) (f : BusFrame) : (s.pushBus f).cfg = s.cfg := rfl
@[simp] theorem State.pushBus_ds (s : State) (f : BusFrame) : (s.pushBus f).ds = s.ds := rfl
@[simp] theorem State.pushBus_shutReq (s : State) (f : BusFrame) : (s.pushBus f).shutReq = s.shutReq := rfl
@[simp] theorem State.pushBus_txf (s : State) (f : BusFrame) : (s.pushBus f).txf = s.txf := rfl
@[simp] theorem State.pushBus_rxr (s : State) (f : BusFrame) : (s.pushBus f).rxr = s.rxr := rfl
@[simp] theorem State.pushBus_errLog (s : State) (f : BusFrame) : (s.pushBus f).errLog = s.errLog := rfl
@[simp] theorem State.pushBus_ctl (s : State) (f : BusFrame) : (s.pushBus f).ctl = s.ctl := rfl
@[simp] theorem State.pushBus_busOut (s : State) (f : BusFrame) : (s.pushBus f).busOut = s.busOut ++ [f] := rfl
@[simp] theorem State.pushBus_hriLog (s : State) (f : BusFrame) : (s.pushBus f).hriLog = s.hriLog := rfl
@[simp] theorem State.pushBus_respLog (s : State) (f : BusFrame) : (s.pushBus f).respLog = s.respLog := rfl
@[simp] theorem State.pushBus_appOut (s : State) (f : BusFrame) : (s.pushBus f).appOut = s.appOut := rfl
@[simp] theorem State.pushBus_hriOut (s : State) (f : BusFrame) : (s.pushBus f).hriOut = s.hriOut := rfl
@[simp] theorem State.pushBus_errOut (s : State) (f : BusFrame) : (s.pushBus f).errOut = s.errOut := rfl
@[simp] theorem State.pushBus_inbox (s : State) (f : BusFrame) : (s.pushBus f).inbox = s.inbox := rfl
@[simp] theorem State.pushBus_drvWait (s : State) (f : BusFrame) : (s.pushBus f).drvWait = s.drvWait := rfl
@[simp] theorem State.pushBus_sched (s : State) (f : BusFrame) : (s.pushBus f).sched = s.sched := rfl

@[simp] theorem State.pushHri_cfg (s : State) (c : HriCall) : (s.pushHri c).cfg = s.cfg := rfl
@[simp] theorem State.pushHri_ds (s : State) (c : HriCall) : (s.pushHri c).ds = s.ds := rfl
@[simp] theorem State.pushHri_shutReq (s : State) (c : HriCall) : (s.pushHri c).shutReq = s.shutReq := rfl
@[simp] theorem State.pushHri_txf (s : State) (c : HriCall) : (s.pushHri c).txf = s.txf := rfl
@[simp] theorem State.pushHri_rxr (s : State) (c : HriCall) : (s.pushHri c).rxr = s.rxr := rfl
@[simp] theorem State.pushHri_errLog (s : State) (c : HriCall) : (s.pushHri c).errLog = s.errLog := rfl
@[simp] theorem State.pushHri_ctl (s : State) (c : HriCall) : (s.pushHri c).ctl = s.ctl := rfl
@[simp] theorem State.pushHri_busOut (s : State) (c : HriCall) : (s.pushHri c).busOut = s.busOut := rfl
@[simp] theorem State.pushHri_hriLog (s : State) (c : HriCall) : (s.pushHri c).hriLog = s.hriLog ++ [c] := rfl
@[simp] theorem State.pushHri_respLog (s : State) (c : HriCall) : (s.pushHri c).respLog = s.respLog := rfl
@[simp] theorem State.pushHri_appOut (s : State) (c : HriCall) : (s.pushHri c).appOut = s.appOut := rfl
@[simp] theorem State.pushHri_hriOut (s : State) (c : HriCall) : (s.pushHri c).hriOut = s.hriOut := rfl
@[simp] theorem State.pushHri_errOut (s : State) (c : HriCall) : (s.pushHri c).errOut = s.errOut := rfl
@[simp] theorem State.pushHri_inbox (s : State) (c : HriCall) : (s.pushHri c).inbox = s.inbox := rfl
@[simp] theorem State.pushHri_drvWait (s : State) (c : HriCall) : (s.pushHri c).drvWait = s.drvWait := rfl
@[simp] theorem State.pushHri_sched (s : State) (c : HriCall) : (s.pushHri c).sched = s.sched := rfl

@[simp] theorem State.respond_cfg (s : State) (op : Byte) (ws : List Word) : (s.respond op ws).cfg = s.cfg := rfl
@[simp] theorem State.respond_ds (s : State) (op : Byte) (ws : List Word) : (s.respond op ws).ds = s.ds := rfl
@[simp] theorem State.respond_shutReq (s : State) (op : Byte) (ws : List Word) : (s.respond op ws).shutReq = s.shutReq := rfl
@[simp] theorem State.respond_txf (s : State) (op : Byte) (ws : List Word) : (s.respond op ws).txf = s.txf := rfl
@[simp] theorem State.respond_rxr (s : State) (op : Byte) (ws : List Word) : (s.respond op ws).rxr = s.rxr := rfl
@[simp] theorem State.respond_errLog (s : State) (op : Byte) (ws : List Word) : (s.respond op ws).errLog = s.errLog := rfl
@[simp] theorem State.respond_ctl (s : State) (op : Byte) (ws : List Word) : (s.respond op ws).ctl = s.ctl := rfl
@[simp] theorem State.respond_busOut (s : State) (op : Byte) (ws : List Word) : (s.respond op ws).busOut = s.busOut := rfl
@[simp] theorem State.respond_hriLog (s : State) (op : Byte) (ws : List Word) : (s.respond op ws).hriLog = s.hriLog := rfl
@[simp] theorem State.respond_respLog (s : State) (op : Byte) (ws : List Word) : (s.respond op ws).respLog = s.respLog ++ [⟨op, ws⟩] := rfl
@[simp] theorem State.respond_appOut (s : State) (op : Byte) (ws : List Word) : (s.respond op ws).appOut = s.appOut := rfl
@[simp] theorem State.respond_hriOut (s : State) (op : Byte) (ws : List Word) : (s.respond op ws).hriOut = s.hriOut := rfl
@[simp] theorem State.respond_errOut (s : State) (op : Byte) (ws : List Word) : (s.respond op ws).errOut = s.errOut := rfl
@[simp] theorem State.respond_inbox (s : State) (op : Byte) (ws : List Word) : (s.respond op ws).inbox = s.inbox := rfl
@[simp] theorem State.respond_drvWait (s : State) (op : Byte) (ws : List Word) : (s.respond op ws).drvWait = s.drvWait := rfl
@[simp] theorem State.respond_sched (s : State) (op : Byte) (ws : List Word) : (s.respond op ws).sched = s.sched := rfl

@[simp] theorem State.setModSel_cfg (s : State) (m : Byte) : (s.setModSel m).cfg = s.cfg := rfl
@[simp] theorem State.setModSel_ds (s : State) (m : Byte) : (s.setModSel m).ds = s.ds := rfl
@[simp] theorem State.setModSel_shutReq (s : State) (m : Byte) : (s.setModSel m).shutReq = s.shutReq := rfl
@[simp] theorem State.setModSel_txf (s : State) (m : Byte) : (s.setModSel m).txf = s.txf := rfl
@[simp] theorem State.setModSel_rxr (s : State) (m : Byte) : (s.setModSel m).rxr = s.rxr := rfl
@[simp] theorem State.setModSel_errLog (s : State) (m : Byte) : (s.setModSel m).errLog = s.errLog := rfl
@[simp] theorem State.setModSel_ctl (s : State) (m : Byte) : (s.setModSel m).ctl = { s.ctl with modSel := m } := rfl
@[simp] theorem State.setModSel_busOut (s : State) (m : Byte) : (s.setModSel m).busOut = s.busOut := rfl
@[simp] theorem State.setModSel_hriLog (s : State) (m : Byte) : (s.setModSel m).hriLog = s.hriLog := rfl
@[simp] theorem State.setModSel_respLog (s : State) (m : Byte) : (s.setModSel m).respLog = s.respLog := rfl
@[simp] theorem State.setModSel_appOut (s : State) (m : Byte) : (s.setModSel m).appOut = s.appOut := rfl
@[simp] theorem State.setModSel_hriOut (s : State) (m : Byte) : (s.setModSel m).hriOut = s.hriOut := rfl
@[simp] theorem State.setModSel_errOut (s : State) (m : Byte) : (s.setModSel m).errOut = s.errOut := rfl
@[simp] theorem State.setModSel_inbox (s : State) (m : Byte) : (s.setModSel m).inbox = s.inbox := rfl
@[simp] theorem State.setModSel_drvWait (s : State) (m : Byte) : (s.setModSel m).drvWait = s.drvWait := rfl
@[simp] theorem State.setModSel_sched (s : State) (m : Byte) : (s.setModSel m).sched = s.sched := rfl

@[simp] theorem State.setClkStable_cfg (s : State) (b : Bool) : (s.setClkStable b).cfg = s.cfg := rfl
@[simp] theorem State.setClkStable_ds (s : State) (b : Bool) : (s.setClkStable b).ds = s.ds := rfl
@[simp] theorem State.setClkStable_shutReq (s : State) (b : Bool) : (s.setClkStable b).shutReq = s.shutReq := rfl
@[simp] theorem State.setClkStable_txf (s : State) (b : Bool) : (s.setClkStable b).txf = s.txf := rfl
@[simp] theorem State.setClkStable_rxr (s : State) (b : Bool) : (s.setClkStable b).rxr = s.rxr := rfl
@[simp] theorem State.setClkStable_errLog (s : State) (b : Bool) : (s.setClkStable b).errLog = s.errLog := rfl
@[simp] theorem State.setClkStable_ctl (s : State) (b : Bool) : (s.setClkStable b).ctl = { s.ctl with clkStable := b } := rfl
@[simp] theorem State.setClkStable_busOut (s : State) (b : Bool) : (s.setClkStable b).busOut = s.busOut := rfl
@[simp] theorem State.setClkStable_hriLog (s : State) (b : Bool) : (s.setClkStable b).hriLog = s.hriLog := rfl
@[simp] theorem State.setClkStable_respLog (s : State) (b : Bool) : (s.setClkStable b).respLog = s.respLog := rfl
@[simp] theorem State.setClkStable_appOut (s : State) (b : Bool) : (s.setClkStable b).appOut = s.appOut := rfl
@[simp] theorem State.setClkStable_hriOut (s : State) (b : Bool) : (s.setClkStable b).hriOut = s.hriOut := rfl
@[simp] theorem State.setClkStable_errOut (s : State) (b : Bool) : (s.setClkStable b).errOut = s.errOut := rfl
@[simp] theorem State.setClkStable_inbox (s : State) (b : Bool) : (s.setClkStable b).inbox = s.inbox := rfl
@[simp] theorem State.setClkStable_drvWait (s : State) (b : Bool) : (s.setClkStable b).drvWait = s.drvWait := rfl
@[simp] theorem State.setClkStable_sched (s : State) (b : Bool) : (s.setClkStable b).sched = s.sched := rfl

@[simp] theorem State.setMode_cfg (s : State) (m : CtlMode) : (s.setMode m).cfg = s.cfg := rfl
@[simp] theorem State.setMode_ds (s : State) (m : CtlMode) : (s.setMode m).ds = s.ds := rfl
@[simp] theorem State.setMode_shutReq (s : State) (m : CtlMode) : (s.setMode m).shutReq = s.shutReq := rfl
@[simp] theorem State.setMode_txf (s : State) (m : CtlMode) : (s.setMode m).txf = s.txf := rfl
@[simp] theorem State.setMode_rxr (s : State) (m : CtlMode) : (s.setMode m).rxr = s.rxr := rfl
@[simp] theorem State.setMode_errLog (s : State) (m : CtlMode) : (s.setMode m).errLog = s.errLog := rfl
@[simp] theorem State.setMode_ctl (s : State) (m : CtlMode) : (s.setMode m).ctl = { s.ctl with mode := m } := rfl
@[simp] theorem State.setMode_busOut (s : State) (m : CtlMode) : (s.setMode m).busOut = s.busOut := rfl
@[simp] theorem State.setMode_hriLog (s : State) (m : CtlMode) : (s.setMode m).hriLog = s.hriLog := rfl
@[simp] theorem State.setMode_respLog (s : State) (m : CtlMode) : (s.setMode m).respLog = s.respLog := rfl
@[simp] theorem State.setMode_appOut (s : State) (m : CtlMode) : (s.setMode m).appOut = s.appOut := rfl
@[simp] theorem State.setMode_hriOut (s : State) (m : CtlMode) : (s.setMode m).hriOut = s.hriOut := rfl
@[simp] theorem State.setMode_errOut (s : State) (m : CtlMode) : (s.setMode m).errOut = s.errOut := rfl
@[simp] theorem State.setMode_inbox (s : State) (m : CtlMode) : (s.setMode m).inbox = s.inbox := rfl
@[simp] theorem State.setMode_drvWait (s : State) (m : CtlMode) : (s.setMode m).drvWait = s.drvWait := rfl
@[simp] theorem State.setMode_sched (s : State) (m : CtlMode) : (s.setMode m).sched = s.sched := rfl

@[simp] theorem State.setFdEn_cfg (s : State) (b : Bool) : (s.setFdEn b).cfg = s.cfg := rfl
@[simp] theorem State.setFdEn_ds (s : State) (b : Bool) : (s.setFdEn b).ds = s.ds := rfl
@[simp] theorem State.setFdEn_shutReq (s : State) (b : Bool) : (s.setFdEn b).shutReq = s.shutReq := rfl
@[simp] theorem State.setFdEn_txf (s : State) (b : Bool) : (s.setFdEn b).txf = s.txf := rfl
@[simp] theorem State.setFdEn_rxr (s : State) (b : Bool) : (s.setFdEn b).rxr = s.rxr := rfl
@[simp] theorem State.setFdEn_errLog (s : State) (b : Bool) : (s.setFdEn b).errLog = s.errLog := rfl
@[simp] theorem State.setFdEn_ctl (s : State) (b : Bool) : (s.setFdEn b).ctl = { s.ctl with fdEn := b } := rfl
@[simp] theorem State.setFdEn_busOut (s : State) (b : Bool) : (s.setFdEn b).busOut = s.busOut := rfl
@[simp] theorem State.setFdEn_hriLog (s : State) (b : Bool) : (s.setFdEn b).hriLog = s.hriLog := rfl
@[simp] theorem State.setFdEn_respLog (s : State) (b : Bool) : (s.setFdEn b).respLog = s.respLog := rfl
@[simp] theorem State.setFdEn_appOut (s : State) (b : Bool) : (s.setFdEn b).appOut = s.appOut := rfl
@[simp] theorem State.setFdEn_hriOut (s : State) (b : Bool) : (s.setFdEn b).hriOut = s.hriOut := rfl
@[simp] theorem State.setFdEn_errOut (s : State) (b : Bool) : (s.setFdEn b).errOut = s.errOut := rfl
@[simp] theorem State.setFdEn_inbox (s : State) (b : Bool) : (s.setFdEn b).inbox = s.inbox := rfl
@[simp] theorem State.setFdEn_drvWait (s : State) (b : Bool) : (s.setFdEn b).drvWait = s.drvWait := rfl
@[simp] theorem State.setFdEn_sched (s : State) (b : Bool) : (s.setFdEn b).sched = s.sched := rfl

@[simp] theorem State.setNbt_cfg (s : State) (v : Word) : (s.setNbt v).cfg = s.cfg := rfl
@[simp] theorem State.setNbt_ds (s : State) (v : Word) : (s.setNbt v).ds = s.ds := rfl
@[simp] theorem State.setNbt_shutReq (s : State) (v : Word) : (s.setNbt v).shutReq = s.shutReq := rfl
@[simp] theorem State.setNbt_txf (s : State) (v : Word) : (s.setNbt v).txf = s.txf := rfl
@[simp] theorem State.setNbt_rxr (s : State) (v : Word) : (s.setNbt v).rxr = s.rxr := rfl
@[simp] theorem State.setNbt_errLog (s : State) (v : Word) : (s.setNbt v).errLog = s.errLog := rfl
@[simp] theorem State.setNbt_ctl (s : State) (v : Word) : (s.setNbt v).ctl = { s.ctl with nbt := v } := rfl
@[simp] theorem State.setNbt_busOut (s : State) (v : Word) : (s.setNbt v).busOut = s.busOut := rfl
@[simp] theorem State.setNbt_hriLog (s : State) (v : Word) : (s.setNbt v).hriLog = s.hriLog := rfl
@[simp] theorem State.setNbt_respLog (s : State) (v : Word) : (s.setNbt v).respLog = s.respLog := rfl
@[simp] theorem State.setNbt_appOut (s : State) (v : Word) : (s.setNbt v).appOut = s.appOut := rfl
@[simp] theorem State.setNbt_hriOut (s : State) (v : Word) : (s.setNbt v).hriOut = s.hriOut := rfl
@[simp] theorem State.setNbt_errOut (s : State) (v : Word) : (s.setNbt v).errOut = s.errOut := rfl
@[simp] theorem State.setNbt_inbox (s : State) (v : Word) : (s.setNbt v).inbox = s.inbox := rfl
@[simp] theorem State.setNbt_drvWait (s : State) (v : Word) : (s.setNbt v).drvWait = s.drvWait := rfl
@[simp] theorem State.setNbt_sched (s : State) (v : Word) : (s.setNbt v).sched = s.sched := rfl

@[simp] theorem State.setIe_cfg (s : State) (e : IrqBits) : (s.setIe e).cfg = s.cfg := rfl
@[simp] theorem State.setIe_ds (s : State) (e : IrqBits) : (s.setIe e).ds = s.ds := rfl
@[simp] theorem State.setIe_shutReq (s : State) (e : IrqBits) : (s.setIe e).shutReq = s.shutReq := rfl
@[simp] theorem State.setIe_txf (s : State) (e : IrqBits) : (s.setIe e).txf = s.txf := rfl
@[simp] theorem State.setIe_rxr (s : State) (e : IrqBits) : (s.setIe e).rxr = s.rxr := rfl
@[simp] theorem State.setIe_errLog (s : State) (e : IrqBits) : (s.setIe e).errLog = s.errLog := rfl
@[simp] theorem State.setIe_ctl (s : State) (e : IrqBits) : (s.setIe e).ctl = { s.ctl with ie := e } := rfl
@[simp] theorem State.setIe_busOut (s : State) (e : IrqBits) : (s.setIe e).busOut = s.busOut := rfl
@[simp] theorem State.setIe_hriLog (s : State) (e : IrqBits) : (s.setIe e).hriLog = s.hriLog := rfl
@[simp] theorem State.setIe_respLog (s : State) (e : IrqBits) : (s.setIe e).respLog = s.respLog := rfl
@[simp] theorem State.setIe_appOut (s : State) (e : IrqBits) : (s.setIe e).appOut = s.appOut := rfl
@[simp] theorem State.setIe_hriOut (s : State) (e : IrqBits) : (s.setIe e).hriOut = s.hriOut := rfl
@[simp] theorem State.setIe_errOut (s : State) (e : IrqBits) : (s.setIe e).errOut = s.errOut := rfl
@[simp] theorem State.setIe_inbox (s : State) (e : IrqBits) : (s.setIe e).inbox = s.inbox := rfl
@[simp] theorem State.setIe_drvWait (s : State) (e : IrqBits) : (s.setIe e).drvWait = s.drvWait := rfl
@[simp] theorem State.setIe_sched (s : State) (e : IrqBits) : (s.setIe e).sched = s.sched := rfl

@[simp] theorem State.setIfl_cfg (s : State) (e : IrqBits) : (s.setIfl e).cfg = s.cfg := rfl
@[simp] theorem State.setIfl_ds (s : State) (e : IrqBits) : (s.setIfl e).ds = s.ds := rfl
@[simp] theorem State.setIfl_shutReq (s : State) (e : IrqBits) : (s.setIfl e).shutReq = s.shutReq := rfl
@[simp] theorem State.setIfl_txf (s : State) (e : IrqBits) : (s.setIfl e).txf = s.txf := rfl
@[simp] theorem State.setIfl_rxr (s : State) (e : IrqBits) : (s.setIfl e).rxr = s.rxr := rfl
@[simp] theorem State.setIfl_errLog (s : State) (e : IrqBits) : (s.setIfl e).errLog = s.errLog := rfl
@[simp] theorem State.setIfl_ctl (s : State) (e : IrqBits) : (s.setIfl e).ctl = { s.ctl with ifl := e } := rfl
@[simp] theorem State.setIfl_busOut (s : State) (e : IrqBits) : (s.setIfl e).busOut = s.busOut := rfl
@[simp] theorem State.setIfl_hriLog (s : State) (e : IrqBits) : (s.setIfl e).hriLog = s.hriLog := rfl
@[simp] theorem State.setIfl_respLog (s : State) (e : IrqBits) : (s.setIfl e).respLog = s.respLog := rfl
@[simp] theorem State.setIfl_appOut (s : State) (e : IrqBits) : (s.setIfl e).appOut = s.appOut := rfl
@[simp] theorem State.setIfl_hriOut (s : State) (e : IrqBits) : (s.setIfl e).hriOut = s.hriOut := rfl
@[simp] theorem State.setIfl_errOut (s : State) (e : IrqBits) : (s.setIfl e).errOut = s.errOut := rfl
@[simp] theorem State.setIfl_inbox (s : State) (e : IrqBits) : (s.setIfl e).inbox = s.inbox := rfl
@[simp] theorem State.setIfl_drvWait (s : State) (e : IrqBits) : (s.setIfl e).drvWait = s.drvWait := rfl
@[simp] theorem State.setIfl_sched (s : State) (e : IrqBits) : (s.setIfl e).sched = s.sched := rfl

@[simp] theorem State.setRxip_cfg (s : State) (b : Bool) : (s.setRxip b).cfg = s.cfg := rfl
@[simp] theorem State.setRxip_ds (s : State) (b : Bool) : (s.setRxip b).ds = s.ds := rfl
@[simp] theorem State.setRxip_shutReq (s : State) (b : Bool) : (s.setRxip b).shutReq = s.shutReq := rfl
@[simp] theorem State.setRxip_txf (s : State) (b : Bool) : (s.setRxip b).txf = s.txf := rfl
@[simp] theorem State.setRxip_rxr (s : State) (b : Bool) : (s.setRxip b).rxr = s.rxr := rfl
@[simp] theorem State.setRxip_errLog (s : State) (b : Bool) : (s.setRxip b).errLog = s.errLog := rfl
@[simp] theorem State.setRxip_ctl (s : State) (b : Bool) : (s.setRxip b).ctl = { s.ctl with rxip := b } := rfl
@[simp] theorem State.setRxip_busOut (s : State) (b : Bool) : (s.setRxip b).busOut = s.busOut := rfl
@[simp] theorem State.setRxip_hriLog (s : State) (b : Bool) : (s.setRxip b).hriLog = s.hriLog := rfl
@[simp] theorem State.setRxip_respLog (s : State) (b : Bool) : (s.setRxip b).respLog = s.respLog := rfl
@[simp] theorem State.setRxip_appOut (s : State) (b : Bool) : (s.setRxip b).appOut = s.appOut := rfl
@[simp] theorem State.setRxip_hriOut (s : State) (b : Bool) : (s.setRxip b).hriOut = s.hriOut := rfl
@[simp] theorem State.setRxip_errOut (s : State) (b : Bool) : (s.setRxip b).errOut = s.errOut := rfl
@[simp] theorem State.setRxip_inbox (s : State) (b : Bool) : (s.setRxip b).inbox = s.inbox := rfl
@[simp] theorem State.setRxip_drvWait (s : State) (b : Bool) : (s.setRxip b).drvWait = s.drvWait := rfl
@[simp] theorem State.setRxip_sched (s : State) (b : Bool) : (s.setRxip b).sched = s.sched := rfl

@[simp] theorem State.setHwrx_cfg (s : State) (l : List CanFrame) : (s.setHwrx l).cfg = s.cfg := rfl
@[simp] theorem State.setHwrx_ds (s : State) (l : List CanFrame) : (s.setHwrx l).ds = s.ds := rfl
@[simp] theorem State.setHwrx_shutReq (s : State) (l : List CanFrame) : (s.setHwrx l).shutReq = s.shutReq := rfl
@[simp] theorem State.setHwrx_txf (s : State) (l : List CanFrame) : (s.setHwrx l).txf = s.txf := rfl
@[simp] theorem State.setHwrx_rxr (s : State) (l : List CanFrame) : (s.setHwrx l).rxr = s.rxr := rfl
@[simp] theorem State.setHwrx_errLog (s : State) (l : List CanFrame) : (s.setHwrx l).errLog = s.errLog := rfl
@[simp] theorem State.setHwrx_ctl (s : State) (l : List CanFrame) : (s.setHwrx l).ctl = { s.ctl with hwrx := l } := rfl
@[simp] theorem State.setHwrx_busOut (s : State) (l : List CanFrame) : (s.setHwrx l).busOut = s.busOut := rfl
@[simp] theorem State.setHwrx_hriLog (s : State) (l : List CanFrame) : (s.setHwrx l).hriLog = s.hriLog := rfl
@[simp] theorem State.setHwrx_respLog (s : State) (l : List CanFrame) : (s.setHwrx l).respLog = s.respLog := rfl
@[simp] theorem State.setHwrx_appOut (s : State) (l : List CanFrame) : (s.setHwrx l).appOut = s.appOut := rfl
@[simp] theorem State.setHwrx_hriOut (s : State) (l : List CanFrame) : (s.setHwrx l).hriOut = s.hriOut := rfl
@[simp] theorem State.setHwrx_errOut (s : State) (l : List CanFrame) : (s.setHwrx l).errOut = s.errOut := rfl
@[simp] theorem State.setHwrx_inbox (s : State) (l : List CanFrame) : (s.setHwrx l).inbox = s.inbox := rfl
@[simp] theorem State.setHwrx_drvWait (s : State) (l : List CanFrame) : (s.setHwrx l).drvWait = s.drvWait := rfl
@[simp] theorem State.setHwrx_sched (s : State) (l : List CanFrame) : (s.setHwrx l).sched = s.sched := rfl

@[simp] theorem State.setTxReq_cfg (s : State) (b : Bool) : (s.setTxReq b).cfg = s.cfg := rfl
@[simp] theorem State.setTxReq_ds (s : State) (b : Bool) : (s.setTxReq b).ds = s.ds := rfl
@[simp] theorem State.setTxReq_shutReq (s : State) (b : Bool) : (s.setTxReq b).shutReq = s.shutReq := rfl
@[simp] theorem State.setTxReq_txf (s : State) (b : Bool) : (s.setTxReq b).txf = s.txf := rfl
@[simp] theorem State.setTxReq_rxr (s : State) (b : Bool) : (s.setTxReq b).rxr = s.rxr := rfl
@[simp] theorem State.setTxReq_errLog (s : State) (b : Bool) : (s.setTxReq b).errLog = s.errLog := rfl
@[simp] theorem State.setTxReq_ctl (s : State) (b : Bool) : (s.setTxReq b).ctl = { s.ctl with txReq := b } := rfl
@[simp] theorem State.setTxReq_busOut (s : State) (b : Bool) : (s.setTxReq b).busOut = s.busOut := rfl
@[simp] theorem State.setTxReq_hriLog (s : State) (b : Bool) : (s.setTxReq b).hriLog = s.hriLog := rfl
@[simp] theorem State.setTxReq_respLog (s : State) (b : Bool) : (s.setTxReq b).respLog = s.respLog := rfl
@[simp] theorem State.setTxReq_appOut (s : State) (b : Bool) : (s.setTxReq b).appOut = s.appOut := rfl
@[simp] theorem State.setTxReq_hriOut (s : State) (b : Bool) : (s.setTxReq b).hriOut = s.hriOut := rfl
@[simp] theorem State.setTxReq_errOut (s : State) (b : Bool) : (s.setTxReq b).errOut = s.errOut := rfl
@[simp] theorem State.setTxReq_inbox (s : State) (b : Bool) : (s.setTxReq b).inbox = s.inbox := rfl
@[simp] theorem State.setTxReq_drvWait (s : State) (b : Bool) : (s.setTxReq b).drvWait = s.drvWait := rfl
@[simp] theorem State.setTxReq_sched (s : State) (b : Bool) : (s.setTxReq b).sched = s.sched := rfl

@[simp] theorem State.setBo_cfg (s : State) (b : Bool) : (s.setBo b).cfg = s.cfg := rfl
@[simp] theorem State.setBo_ds (s : State) (b : Bool) : (s.setBo b).ds = s.ds := rfl
@[simp] theorem State.setBo_shutReq (s : State) (b : Bool) : (s.setBo b).shutReq = s.shutReq := rfl
@[simp] theorem State.setBo_txf (s : State) (b : Bool) : (s.setBo b).txf = s.txf := rfl
@[simp] theorem State.setBo_rxr (s : State) (b : Bool) : (s.setBo b).rxr = s.rxr := rfl
@[simp] theorem State.setBo_errLog (s : State) (b : Bool) : (s.setBo b).errLog = s.errLog := rfl
@[simp] theorem State.setBo_ctl (s : State) (b : Bool) : (s.setBo b).ctl = { s.ctl with bo := b } := rfl
@[simp] theorem State.setBo_busOut (s : State) (b : Bool) : (s.setBo b).busOut = s.busOut := rfl
@[simp] theorem State.setBo_hriLog (s : State) (b : Bool) : (s.setBo b).hriLog = s.hriLog := rfl
@[simp] theorem State.setBo_respLog (s : State) (b : Bool) : (s.setBo b).respLog = s.respLog := rfl
@[simp] theorem State.setBo_appOut (s : State) (b : Bool) : (s.setBo b).appOut = s.appOut := rfl
@[simp] theorem State.setBo_hriOut (s : State) (b : Bool) : (s.setBo b).hriOut = s.hriOut := rfl
@[simp] theorem State.setBo_errOut (s : State) (b : Bool) : (s.setBo b).errOut = s.errOut := rfl
@[simp] theorem State.setBo_inbox (s : State) (b : Bool) : (s.setBo b).inbox = s.inbox := rfl
@[simp] theorem State.setBo_drvWait (s : State) (b : Bool) : (s.setBo b).drvWait = s.drvWait := rfl
@[simp] theorem State.setBo_sched (s : State) (b : Bool) : (s.setBo b).sched = s.sched := rfl

@[simp] theorem State.setCounters_cfg (s : State) (t r : Byte) : (s.setCounters t r).cfg = s.cfg := rfl
@[simp] theorem State.setCounters_ds (s : State) (t r : Byte) : (s.setCounters t r).ds = s.ds := rfl
@[simp] theorem State.setCounters_shutReq (s : State) (t r : Byte) : (s.setCounters t r).shutReq = s.shutReq := rfl
@[simp] theorem State.setCounters_txf (s : State) (t r : Byte) : (s.setCounters t r).txf = s.txf := rfl
@[simp] theorem State.setCounters_rxr (s : State) (t r : Byte) : (s.setCounters t r).rxr = s.rxr := rfl
@[simp] theorem State.setCounters_errLog (s : State) (t r : Byte) : (s.setCounters t r).errLog = s.errLog := rfl
@[simp] theorem State.setCounters_ctl (s : State) (t r : Byte) : (s.setCounters t r).ctl = { s.ctl with tec := t, recCnt := r } := rfl
@[simp] theorem State.setCounters_busOut (s : State) (t r : Byte) : (s.setCounters t r).busOut = s.busOut := rfl
@[simp] theorem State.setCounters_hriLog (s : State) (t r : Byte) : (s.setCounters t r).hriLog = s.hriLog := rfl
@[simp] theorem State.setCounters_respLog (s : State) (t r : Byte) : (s.setCounters t r).respLog = s.respLog := rfl
@[simp] theorem State.setCounters_appOut (s : State) (t r : Byte) : (s.setCounters t r).appOut = s.appOut := rfl
@[simp] theorem State.setCounters_hriOut (s : State) (t r : Byte) : (s.setCounters t r).hriOut = s.hriOut := rfl
@[simp] theorem State.setCounters_errOut (s : State) (t r : Byte) : (s.setCounters t r).errOut = s.errOut := rfl
@[simp] theorem State.setCounters_inbox (s : State) (t r : Byte) : (s.setCounters t r).inbox = s.inbox := rfl
@[simp] theorem State.setCounters_drvWait (s : State) (t r : Byte) : (s.setCounters t r).drvWait = s.drvWait := rfl
@[simp] theorem State.setCounters_sched (s : State) (t r : Byte) : (s.setCounters t r).sched = s.sched := rfl

@[simp] theorem State.loadMailbox_cfg (s : State) (f : CanFrame) : (s.loadMailbox f).cfg = s.cfg := rfl
@[simp] theorem State.loadMailbox_ds (s : State) (f : CanFrame) : (s.loadMailbox f).ds = s.ds := rfl
@[simp] theorem State.loadMailbox_shutReq (s : State) (f : CanFrame) : (s.loadMailbox f).shutReq = s.shutReq := rfl
@[simp] theorem State.loadMailbox_txf (s : State) (f : CanFrame) : (s.loadMailbox f).txf = s.txf := rfl
@[simp] theorem State.loadMailbox_rxr (s : State) (f : CanFrame) : (s.loadMailbox f).rxr = s.rxr := rfl
@[simp] theorem State.loadMailbox_errLog (s : State) (f : CanFrame) : (s.loadMailbox f).errLog = s.errLog := rfl
@[simp] theorem State.loadMailbox_ctl (s : State) (f : CanFrame) : (s.loadMailbox f).ctl = { s.ctl with txmb := Mailbox.ofFrame f, txReq := true } := rfl
@[simp] theorem State.loadMailbox_busOut (s : State) (f : CanFrame) : (s.loadMailbox f).busOut = s.busOut := rfl
@[simp] theorem State.loadMailbox_hriLog (s : State) (f : CanFrame) : (s.loadMailbox f).hriLog = s.hriLog := rfl
@[simp] theorem State.loadMailbox_respLog (s : State) (f : CanFrame) : (s.loadMailbox f).respLog = s.respLog := rfl
@[simp] theorem State.loadMailbox_appOut (s : State) (f : CanFrame) : (s.loadMailbox f).appOut = s.appOut := rfl
@[simp] theorem State.loadMailbox_hriOut (s : State) (f : CanFrame) : (s.loadMailbox f).hriOut = s.hriOut := rfl
@[simp] theorem State.loadMailbox_errOut (s : State) (f : CanFrame) : (s.loadMailbox f).errOut = s.errOut := rfl
@[simp] theorem State.loadMailbox_inbox (s : State) (f : CanFrame) : (s.loadMailbox f).inbox = s.inbox := rfl
@[simp] theorem State.loadMailbox_drvWait (s : State) (f : CanFrame) : (s.loadMailbox f).drvWait = s.drvWait := rfl
@[simp] theorem State.loadMailbox_sched (s : State) (f : CanFrame) : (s.loadMailbox f).sched = s.sched := rfl

@[simp] theorem State.installFilters_cfg (s : State) (rs : List FilterReg) : (s.installFilters rs).cfg = s.cfg := rfl
@[simp] theorem State.installFilters_ds (s : State) (rs : List FilterReg) : (s.installFilters rs).ds = s.ds := rfl
@[simp] theorem State.installFilters_shutReq (s : State) (rs : List FilterReg) : (s.installFilters rs).shutReq = s.shutReq := rfl
@[simp] theorem State.installFilters_txf (s : State) (rs : List FilterReg) : (s.installFilters rs).txf = s.txf := rfl
@[simp] theorem State.installFilters_rxr (s : State) (rs : List FilterReg) : (s.installFilters rs).rxr = s.rxr := rfl
@[simp] theorem State.installFilters_errLog (s : State) (rs : List FilterReg) : (s.installFilters rs).errLog = s.errLog := rfl
@[simp] theorem State.installFilters_ctl (s : State) (rs : List FilterReg) : (s.installFilters rs).ctl = { s.ctl with flt := rs ++ s.ctl.flt.drop rs.length, fltN := rs.length, fltWe := false } := rfl
@[simp] theorem State.installFilters_busOut (s : State) (rs : List FilterReg) : (s.installFilters rs).busOut = s.busOut := rfl
@[simp] theorem State.installFilters_hriLog (s : State) (rs : List FilterReg) : (s.installFilters rs).hriLog = s.hriLog := rfl
@[simp] theorem State.installFilters_respLog (s : State) (rs : List FilterReg) : (s.installFilters rs).respLog = s.respLog := rfl
@[simp] theorem State.installFilters_appOut (s : State) (rs : List FilterReg) : (s.installFilters rs).appOut = s.appOut := rfl
@[simp] theorem State.installFilters_hriOut (s : State) (rs : List FilterReg) : (s.installFilters rs).hriOut = s.hriOut := rfl
@[simp] theorem State.installFilters_errOut (s : State) (rs : List FilterReg) : (s.installFilters rs).errOut = s.errOut := rfl
@[simp] theorem State.installFilters_inbox (s : State) (rs : List FilterReg) : (s.installFilters rs).inbox = s.inbox := rfl
@[simp] theorem State.installFilters_drvWait (s : State) (rs : List FilterReg) : (s.installFilters rs).drvWait = s.drvWait := rfl
@[simp] theorem State.installFilters_sched (s : State) (rs : List FilterReg) : (s.installFilters rs).sched = s.sched := rfl

@[simp] theorem State.enterReset_cfg (s : State) : (s.enterReset).cfg = s.cfg := rfl
@[simp] theorem State.enterReset_ds (s : State) : (s.enterReset).ds = s.ds := rfl
@[simp] theorem State.enterReset_shutReq (s : State) : (s.enterReset).shutReq = s.shutReq := rfl
@[simp] theorem State.enterReset_txf (s : State) : (s.enterReset).txf = s.txf := rfl
@[simp] theorem State.enterReset_rxr (s : State) : (s.enterReset).rxr = s.rxr := rfl
@[simp] theorem State.enterReset_errLog (s : State) : (s.enterReset).errLog = s.errLog := rfl
@[simp] theorem State.enterReset_ctl (s : State) : (s.enterReset).ctl = s.ctl.enterReset := rfl
@[simp] theorem State.enterReset_busOut (s : State) : (s.enterReset).busOut = s.busOut := rfl
@[simp] theorem State.enterReset_hriLog (s : State) : (s.enterReset).hriLog = s.hriLog := rfl
@[simp] theorem State.enterReset_respLog (s : State) : (s.enterReset).respLog = s.respLog := rfl
@[simp] theorem State.enterReset_appOut (s : State) : (s.enterReset).appOut = s.appOut := rfl
@[simp] theorem State.enterReset_hriOut (s : State) : (s.enterReset).hriOut = s.hriOut := rfl
@[simp] theorem State.enterReset_errOut (s : State) : (s.enterReset).errOut = s.errOut := rfl
@[simp] theorem State.enterReset_inbox (s : State) : (s.enterReset).inbox = s.inbox := rfl
@[simp] theorem State.enterReset_drvWait (s : State) : (s.enterReset).drvWait = s.drvWait := rfl
@[simp] theorem State.enterReset_sched (s : State) : (s.enterReset).sched = s.sched := rfl

@[simp] theorem State.setRing_transmit_cfg (s : State) (r : Ring) : (s.setRing .transmit r).cfg = s.cfg := rfl
@[simp] theorem State.setRing_transmit_ds (s : State) (r : Ring) : (s.setRing .transmit r).ds = s.ds := rfl
@[simp] theorem State.setRing_transmit_shutReq (s : State) (r : Ring) : (s.setRing .transmit r).shutReq = s.shutReq := rfl
@[simp] theorem State.setRing_transmit_txf (s : State) (r : Ring) : (s.setRing .transmit r).txf = r := rfl
@[simp] theorem State.setRing_transmit_rxr (s : State) (r : Ring) : (s.setRing .transmit r).rxr = s.rxr := rfl
@[simp] theorem State.setRing_transmit_errLog (s : State) (r : Ring) : (s.setRing .transmit r).errLog = s.errLog := rfl
@[simp] theorem State.setRing_transmit_ctl (s : State) (r : Ring) : (s.setRing .transmit r).ctl = s.ctl := rfl
@[simp] theorem State.setRing_transmit_busOut (s : State) (r : Ring) : (s.setRing .transmit r).busOut = s.busOut := rfl
@[simp] theorem State.setRing_transmit_hriLog (s : State) (r : Ring) : (s.setRing .transmit r).hriLog = s.hriLog := rfl
@[simp] theorem State.setRing_transmit_respLog (s : State) (r : Ring) : (s.setRing .transmit r).respLog = s.respLog := rfl
@[simp] theorem State.setRing_transmit_appOut (s : State) (r : Ring) : (s.setRing .transmit r).appOut = s.appOut := rfl
@[simp] theorem State.setRing_transmit_hriOut (s : State) (r : Ring) : (s.setRing .transmit r).hriOut = s.hriOut := rfl
@[simp] theorem State.setRing_transmit_errOut (s : State) (r : Ring) : (s.setRing .transmit r).errOut = s.errOut := rfl
@[simp] theorem State.setRing_transmit_inbox (s : State) (r : Ring) : (s.setRing .transmit r).inbox = s.inbox := rfl
@[simp] theorem State.setRing_transmit_drvWait (s : State) (r : Ring) : (s.setRing .transmit r).drvWait = s.drvWait := rfl
@[simp] theorem State.setRing_transmit_sched (s : State) (r : Ring) : (s.setRing .transmit r).sched = s.sched := rfl
@[simp] theorem State.setWr_transmit_cfg (s : State) (p : Nat) : (s.setWr .transmit p).cfg = s.cfg := rfl
@[simp] theorem State.setWr_transmit_ds (s : State) (p : Nat) : (s.setWr .transmit p).ds = s.ds := rfl
@[simp] theorem State.setWr_transmit_shutReq (s : State) (p : Nat) : (s.setWr .transmit p).shutReq = s.shutReq := rfl
@[simp] theorem State.setWr_transmit_txf (s : State) (p : Nat) : (s.setWr .transmit p).txf = { s.txf with wr := p } := rfl
@[simp] theorem State.setWr_transmit_rxr (s : State) (p : Nat) : (s.setWr .transmit p).rxr = s.rxr := rfl
@[simp] theorem State.setWr_transmit_errLog (s : State) (p : Nat) : (s.setWr .transmit p).errLog = s.errLog := rfl
@[simp] theorem State.setWr_transmit_ctl (s : State) (p : Nat) : (s.setWr .transmit p).ctl = s.ctl := rfl
@[simp] theorem State.setWr_transmit_busOut (s : State) (p : Nat) : (s.setWr .transmit p).busOut = s.busOut := rfl
@[simp] theorem State.setWr_transmit_hriLog (s : State) (p : Nat) : (s.setWr .transmit p).hriLog = s.hriLog := rfl
@[simp] theorem State.setWr_transmit_respLog (s : State) (p : Nat) : (s.setWr .transmit p).respLog = s.respLog := rfl
@[simp] theorem State.setWr_transmit_appOut (s : State) (p : Nat) : (s.setWr .transmit p).appOut = s.appOut := rfl
@[simp] theorem State.setWr_transmit_hriOut (s : State) (p : Nat) : (s.setWr .transmit p).hriOut = s.hriOut := rfl
@[simp] theorem State.setWr_transmit_errOut (s : State) (p : Nat) : (s.setWr .transmit p).errOut = s.errOut := rfl
@[simp] theorem State.setWr_transmit_inbox (s : State) (p : Nat) : (s.setWr .transmit p).inbox = s.inbox := rfl
@[simp] theorem State.setWr_transmit_drvWait (s : State) (p : Nat) : (s.setWr .transmit p).drvWait = s.drvWait := rfl
@[simp] theorem State.setWr_transmit_sched (s : State) (p : Nat) : (s.setWr .transmit p).sched = s.sched := rfl
@[simp] theorem State.setRd_transmit_cfg (s : State) (p : Nat) : (s.setRd .transmit p).cfg = s.cfg := rfl
@[simp] theorem State.setRd_transmit_ds (s : State) (p : Nat) : (s.setRd .transmit p).ds = s.ds := rfl
@[simp] theorem State.setRd_transmit_shutReq (s : State) (p : Nat) : (s.setRd .transmit p).shutReq = s.shutReq := rfl
@[simp] theorem State.setRd_transmit_txf (s : State) (p : Nat) : (s.setRd .transmit p).txf = { s.txf with rd := p } := rfl
@[simp] theorem State.setRd_transmit_rxr (s : State) (p : Nat) : (s.setRd .transmit p).rxr = s.rxr := rfl
@[simp] theorem State.setRd_transmit_errLog (s : State) (p : Nat) : (s.setRd .transmit p).errLog = s.errLog := rfl
@[simp] theorem State.setRd_transmit_ctl (s : State) (p : Nat) : (s.setRd .transmit p).ctl = s.ctl := rfl
@[simp] theorem State.setRd_transmit_busOut (s : State) (p : Nat) : (s.setRd .transmit p).busOut = s.busOut := rfl
@[simp] theorem State.setRd_transmit_hriLog (s : State) (p : Nat) : (s.setRd .transmit p).hriLog = s.hriLog := rfl
@[simp] theorem State.setRd_transmit_respLog (s : State) (p : Nat) : (s.setRd .transmit p).respLog = s.respLog := rfl
@[simp] theorem State.setRd_transmit_appOut (s : State) (p : Nat) : (s.setRd .transmit p).appOut = s.appOut := rfl
@[simp] theorem State.setRd_transmit_hriOut (s : State) (p : Nat) : (s.setRd .transmit p).hriOut = s.hriOut := rfl
@[simp] theorem State.setRd_transmit_errOut (s : State) (p : Nat) : (s.setRd .transmit p).errOut = s.errOut := rfl
@[simp] theorem State.setRd_transmit_inbox (s : State) (p : Nat) : (s.setRd .transmit p).inbox = s.inbox := rfl
@[simp] theorem State.setRd_transmit_drvWait (s : State) (p : Nat) : (s.setRd .transmit p).drvWait = s.drvWait := rfl
@[simp] theorem State.setRd_transmit_sched (s : State) (p : Nat) : (s.setRd .transmit p).sched = s.sched := rfl
@[simp] theorem State.setRing_receive_cfg (s : State) (r : Ring) : (s.setRing .receive r).cfg = s.cfg := rfl
@[simp] theorem State.setRing_receive_ds (s : State) (r : Ring) : (s.setRing .receive r).ds = s.ds := rfl
@[simp] theorem State.setRing_receive_shutReq (s : State) (r : Ring) : (s.setRing .receive r).shutReq = s.shutReq := rfl
@[simp] theorem State.setRing_receive_txf (s : State) (r : Ring) : (s.setRing .receive r).txf = s.txf := rfl
@[simp] theorem State.setRing_receive_rxr (s : State) (r : Ring) : (s.setRing .receive r).rxr = r := rfl
@[simp] theorem State.setRing_receive_errLog (s : State) (r : Ring) : (s.setRing .receive r).errLog = s.errLog := rfl
@[simp] theorem State.setRing_receive_ctl (s : State) (r : Ring) : (s.setRing .receive r).ctl = s.ctl := rfl
@[simp] theorem State.setRing_receive_busOut (s : State) (r : Ring) : (s.setRing .receive r).busOut = s.busOut := rfl
@[simp] theorem State.setRing_receive_hriLog (s : State) (r : Ring) : (s.setRing .receive r).hriLog = s.hriLog := rfl
@[simp] theorem State.setRing_receive_respLog (s : State) (r : Ring) : (s.setRing .receive r).respLog = s.respLog := rfl
@[simp] theorem State.setRing_receive_appOut (s : State) (r : Ring) : (s.setRing .receive r).appOut = s.appOut := rfl
@[simp] theorem State.setRing_receive_hriOut (s : State) (r : Ring) : (s.setRing .receive r).hriOut = s.hriOut := rfl
@[simp] theorem State.setRing_receive_errOut (s : State) (r : Ring) : (s.setRing .receive r).errOut = s.errOut := rfl
@[simp] theorem State.setRing_receive_inbox (s : State) (r : Ring) : (s.setRing .receive r).inbox = s.inbox := rfl
@[simp] theorem State.setRing_receive_drvWait (s : State) (r : Ring) : (s.setRing .receive r).drvWait = s.drvWait := rfl
@[simp] theorem State.setRing_receive_sched (s : State) (r : Ring) : (s.setRing .receive r).sched = s.sched := rfl
@[simp] theorem State.setWr_receive_cfg (s : State) (p : Nat) : (s.setWr .receive p).cfg = s.cfg := rfl
@[simp] theorem State.setWr_receive_ds (s : State) (p : Nat) : (s.setWr .receive p).ds = s.ds := rfl
@[simp] theorem State.setWr_receive_shutReq (s : State) (p : Nat) : (s.setWr .receive p).shutReq = s.shutReq := rfl
@[simp] theorem State.setWr_receive_txf (s : State) (p : Nat) : (s.setWr .receive p).txf = s.txf := rfl
@[simp] theorem State.setWr_receive_rxr (s : State) (p : Nat) : (s.setWr .receive p).rxr = { s.rxr with wr := p } := rfl
@[simp] theorem State.setWr_receive_errLog (s : State) (p : Nat) : (s.setWr .receive p).errLog = s.errLog := rfl
@[simp] theorem State.setWr_receive_ctl (s : State) (p : Nat) : (s.setWr .receive p).ctl = s.ctl := rfl
@[simp] theorem State.setWr_receive_busOut (s : State) (p : Nat) : (s.setWr .receive p).busOut = s.busOut := rfl
@[simp] theorem State.setWr_receive_hriLog (s : State) (p : Nat) : (s.setWr .receive p).hriLog = s.hriLog := rfl
@[simp] theorem State.setWr_receive_respLog (s : State) (p : Nat) : (s.setWr .receive p).respLog = s.respLog := rfl
@[simp] theorem State.setWr_receive_appOut (s : State) (p : Nat) : (s.setWr .receive p).appOut = s.appOut := rfl
@[simp] theorem State.setWr_receive_hriOut (s : State) (p : Nat) : (s.setWr .receive p).hriOut = s.hriOut := rfl
@[simp] theorem State.setWr_receive_errOut (s : State) (p : Nat) : (s.setWr .receive p).errOut = s.errOut := rfl
@[simp] theorem State.setWr_receive_inbox (s : State) (p : Nat) : (s.setWr .receive p).inbox = s.inbox := rfl
@[simp] theorem State.setWr_receive_drvWait (s : State) (p : Nat) : (s.setWr .receive p).drvWait = s.drvWait := rfl
@[simp] theorem State.setWr_receive_sched (s : State) (p : Nat) : (s.setWr .receive p).sched = s.sched := rfl
@[simp] theorem State.setRd_receive_cfg (s : State) (p : Nat) : (s.setRd .receive p).cfg = s.cfg := rfl
@[simp] theorem State.setRd_receive_ds (s : State) (p : Nat) : (s.setRd .receive p).ds = s.ds := rfl
@[simp] theorem State.setRd_receive_shutReq (s : State) (p : Nat) : (s.setRd .receive p).shutReq = s.shutReq := rfl
@[simp] theorem State.setRd_receive_txf (s : State) (p : Nat) : (s.setRd .receive p).txf = s.txf := rfl
@[simp] theorem State.setRd_receive_rxr (s : State) (p : Nat) : (s.setRd .receive p).rxr = { s.rxr with rd := p } := rfl
@[simp] theorem State.setRd_receive_errLog (s : State) (p : Nat) : (s.setRd .receive p).errLog = s.errLog := rfl
@[simp] theorem State.setRd_receive_ctl (s : State) (p : Nat) : (s.setRd .receive p).ctl = s.ctl := rfl
@[simp] theorem State.setRd_receive_busOut (s : State) (p : Nat) : (s.setRd .receive p).busOut = s.busOut := rfl
@[simp] theorem State.setRd_receive_hriLog (s : State) (p : Nat) : (s.setRd .receive p).hriLog = s.hriLog := rfl
@[simp] theorem State.setRd_receive_respLog (s : State) (p : Nat) : (s.setRd .receive p).respLog = s.respLog := rfl
@[simp] theorem State.setRd_receive_appOut (s : State) (p : Nat) : (s.setRd .receive p).appOut = s.appOut := rfl
@[simp] theorem State.setRd_receive_hriOut (s : State) (p : Nat) : (s.setRd .receive p).hriOut = s.hriOut := rfl
@[simp] theorem State.setRd_receive_errOut (s : State) (p : Nat) : (s.setRd .receive p).errOut = s.errOut := rfl
@[simp] theorem State.setRd_receive_inbox (s : State) (p : Nat) : (s.setRd .receive p).inbox = s.inbox := rfl
@[simp] theorem State.setRd_receive_drvWait (s : State) (p : Nat) : (s.setRd .receive p).drvWait = s.drvWait := rfl
@[simp] theorem State.setRd_receive_sched (s : State) (p : Nat) : (s.setRd .receive p).sched = s.sched := rfl

@[simp] theorem answer_cfg (i : Instr) (ws : List Word) (s : State) : (answer i ws s).cfg = s.cfg := rfl
@[simp] theorem answer_ds (i : Instr) (ws : List Word) (s : State) : (answer i ws s).ds = s.ds := rfl
@[simp] theorem answer_shutReq (i : Instr) (ws : List Word) (s : State) : (answer i ws s).shutReq = s.shutReq := rfl
@[simp] theorem answer_txf (i : Instr) (ws : List Word) (s : State) : (answer i ws s).txf = s.txf := rfl
@[simp] theorem answer_rxr (i : Instr) (ws : List Word) (s : State) : (answer i ws s).rxr = s.rxr := rfl
@[simp] theorem answer_errLog (i : Instr) (ws : List Word) (s : State) : (answer i ws s).errLog = s.errLog := rfl
@[simp] theorem answer_ctl (i : Instr) (ws : List Word) (s : State) : (answer i ws s).ctl = s.ctl := rfl
@[simp] theorem answer_busOut (i : Instr) (ws : List Word) (s : State) : (answer i ws s).busOut = s.busOut := rfl
@[simp] theorem answer_hriLog (i : Instr) (ws : List Word) (s : State) : (answer i ws s).hriLog = s.hriLog := rfl
@[simp] theorem answer_respLog (i : Instr) (ws : List Word) (s : State) : (answer i ws s).respLog = s.respLog ++ [⟨i.selector, ws⟩] := rfl
@[simp] theorem answer_appOut (i : Instr) (ws : List Word) (s : State) : (answer i ws s).appOut = s.appOut := rfl
@[simp] theorem answer_hriOut (i : Instr) (ws : List Word) (s : State) : (answer i ws s).hriOut = s.hriOut := rfl
@[simp] theorem answer_errOut (i : Instr) (ws : List Word) (s : State) : (answer i ws s).errOut = s.errOut := rfl
@[simp] theorem answer_inbox (i : Instr) (ws : List Word) (s : State) : (answer i ws s).inbox = s.inbox := rfl
@[simp] theorem answer_drvWait (i : Instr) (ws : List Word) (s : State) : (answer i ws s).drvWait = s.drvWait := rfl
@[simp] theorem answer_sched (i : Instr) (ws : List Word) (s : State) : (answer i ws s).sched = s.sched := rfl

@[simp] theorem State.ring_transmit (s : State) : s.ring .transmit = s.txf := rfl
@[simp] theorem State.ring_receive (s : State) : s.ring .receive = s.rxr := rfl
@[simp] theorem capacity_transmit (c : Config) : capacity c .transmit = c.cTx := rfl
@[simp] theorem capacity_receive (c : Config) : capacity c .receive = c.cRx := rfl

/-- A cell is read from its own buffer only. -/
theorem State.cell_of_slots (s t : State) (sp : SlotSpace) (i : Nat) (h : (s.ring sp).slots = (t.ring sp).slots) :
    s.cell sp i = t.cell sp i := by
  unfold State.cell; rw [h]

end Sys2Proof.Machine
end

