-- ==== Sys2Proof/Laws/Ops.lean ====
section
/-! SUPPORT. Per shared operation one lemma that says what it can do: if it answers a next state, then which. -/

namespace Sys2Proof.Machine

/-! Sequencing. -/

@[simp] theorem andThen_next {α β : Type} (a : α) (f : α → Res β) : andThen (.next a) f = f a := rfl
@[simp] theorem andThen_fault {α β : Type} (r : Fault) (f : α → Res β) : andThen (.fault r) f = .fault r := rfl
@[simp] theorem andThen_refused {α β : Type} (r : Refusal) (f : α → Res β) : andThen (.refused r) f = .refused r := rfl

theorem andThen_eq_next {α β : Type} {x : Res α} {f : α → Res β} {b : β} :
    andThen x f = .next b ↔ ∃ a, x = .next a ∧ f a = .next b := by
  cases x <;> simp [andThen]

theorem andThen_eq_fault {α β : Type} {x : Res α} {f : α → Res β} {r : Fault} :
    andThen x f = .fault r ↔ x = .fault r ∨ ∃ a, x = .next a ∧ f a = .fault r := by
  cases x <;> simp [andThen]

theorem drvRequest_eq_next {s t : State} {r : Res State} :
    drvRequest s r = .next t ↔ s.drvWait = none ∧ r = .next t := by
  cases h : s.drvWait <;> simp [drvRequest, h]

theorem drvRequest_free {s : State} {r : Res State} (h : s.drvWait = none) : drvRequest s r = r := by
  simp [drvRequest, h]

/-! Slots. -/

theorem slotRead_eq_next {sp : SlotSpace} {i : Nat} {s : State} {c : CanFrame} :
    slotRead sp i s = .next c ↔ i < capacity s.cfg sp ∧ s.cell sp i = c := by
  unfold slotRead; split <;> simp [*]

theorem slotRead_eq_fault {sp : SlotSpace} {i : Nat} {s : State} {r : Fault} :
    slotRead sp i s = .fault r ↔ capacity s.cfg sp ≤ i ∧ r = .noSuchSlot sp i := by
  unfold slotRead; split <;> simp [*] <;> first | omega | exact ⟨fun h => ⟨by omega, h.symm⟩, fun h => h.2.symm⟩

theorem slotWrite_eq_next {sp : SlotSpace} {i : Nat} {c : CanFrame} {s t : State} :
    slotWrite sp i c s = .next t ↔ i < capacity s.cfg sp ∧
      s.setRing sp { s.ring sp with slots := Memory.write (s.ring sp).slots i c } = t := by
  unfold slotWrite; split <;> simp [*]

theorem slotWrite_eq_fault {sp : SlotSpace} {i : Nat} {c : CanFrame} {s : State} {r : Fault} :
    slotWrite sp i c s = .fault r ↔ capacity s.cfg sp ≤ i ∧ r = .noSuchSlot sp i := by
  unfold slotWrite; split <;> simp [*] <;> first | omega | exact ⟨fun h => ⟨by omega, h.symm⟩, fun h => h.2.symm⟩

/-! The two buffers from APP's side. -/

/-- ENQTX's operation answers Full with nothing changed, or Success with the cell stored and the write-pointer advanced. -/
theorem enqueueTransmit_eq_next {f : CanFrame} {s : State} {r : State × Status} :
    enqueueTransmit f s = .next r ↔
      (s.txf.isFull s.cfg.cTx = true ∧ r = (s, .full)) ∨
      (s.txf.isFull s.cfg.cTx = false ∧ s.txf.wr < s.cfg.cTx ∧
        r = (s.setTxf ⟨Memory.write s.txf.slots s.txf.wr (enqueuedCell f (s.cell .transmit s.txf.wr)),
          nextIndex s.cfg.cTx s.txf.wr, s.txf.rd⟩, .success)) := by
  unfold enqueueTransmit
  by_cases hf : s.txf.isFull s.cfg.cTx = true
  · simp [hf, eq_comm]
  · by_cases hw : s.txf.wr < s.cfg.cTx
    · simp [hf, hw, slotRead, slotWrite]
      constructor
      · rintro rfl; rfl
      · rintro rfl; rfl
    · simp [hf, hw, slotRead]

/-- DEQRX's operation answers Empty with nothing changed, or Success with the oldest cell copied out. -/
theorem dequeueReceive_eq_next {s : State} {r : State × Status} :
    dequeueReceive s = .next r ↔
      (s.rxr.isEmpty = true ∧ r = (s, .empty)) ∨
      (s.rxr.isEmpty = false ∧ s.rxr.rd < s.cfg.cRx ∧
        r = ((s.setAppOut (dequeuedFrame (s.cell .receive s.rxr.rd) s.appOut)).setRxr
          { s.rxr with rd := nextIndex s.cfg.cRx s.rxr.rd }, .success)) := by
  unfold dequeueReceive
  by_cases hf : s.rxr.isEmpty = true
  · simp [hf, eq_comm]
  · by_cases hw : s.rxr.rd < s.cfg.cRx
    · simp [hf, hw, slotRead]
      constructor
      · rintro rfl; rfl
      · rintro rfl; rfl
    · simp [hf, hw, slotRead]

/-- DRAINTX's operation: Empty, or the frame at the read-pointer submitted, or HardwareNotReady. -/
theorem drainTransmit_eq_next {s : State} {r : State × Status} :
    drainTransmit s = .next r ↔
      (s.txf.isEmpty = true ∧ r = (s, .empty)) ∨
      (s.txf.isEmpty = false ∧ s.txf.rd < s.cfg.cTx ∧ s.ctl.txReq = false ∧
        r = (((s.loadMailbox (s.cell .transmit s.txf.rd)).pushHri (.tx1 (s.cell .transmit s.txf.rd) true)).setTxf
          { s.txf with rd := nextIndex s.cfg.cTx s.txf.rd }, .success)) ∨
      (s.txf.isEmpty = false ∧ s.txf.rd < s.cfg.cTx ∧ s.ctl.txReq = true ∧
        r = (s.pushHri (.tx1 (s.cell .transmit s.txf.rd) false), .hardwareNotReady)) := by
  unfold drainTransmit
  by_cases hf : s.txf.isEmpty = true
  · simp [hf]; exact ⟨Eq.symm, Eq.symm⟩
  · simp only [Bool.not_eq_true] at hf
    by_cases hw : s.txf.rd < s.cfg.cTx
    · cases hq : s.ctl.txReq
      · simp [hf, hw, hq, slotRead, transmitOne]
        constructor
        · rintro rfl; rfl
        · rintro rfl; rfl
      · simp [hf, hw, hq, slotRead, transmitOne]
        exact ⟨Eq.symm, Eq.symm⟩
    · simp [hf, hw, slotRead]

/-! Reception. -/

theorem advanceRx_eq_next {s t : State} :
    advanceRx s = .next t ↔ ∃ g rest, s.ctl.hwrx = g :: rest ∧ t = s.setHwrx rest := by
  unfold advanceRx
  cases h : s.ctl.hwrx with
  | nil => simp
  | cons g rest => simp [and_assoc, eq_comm]

/-- RX1's micro-step b: nothing on an empty FIFO; else the oldest frame, which leaves the FIFO. -/
theorem receiveFromFifo_eq_next {s : State} {r : State × Option CanFrame} :
    receiveFromFifo s = .next r ↔
      (s.ctl.hwrx = [] ∧ r = (s.pushHri (.rx1 none), none)) ∨
      ∃ g rest, s.ctl.hwrx = g :: rest ∧
        r = ((s.setHwrx rest).pushHri (.rx1 (some s.windowFrame)), some s.windowFrame) := by
  unfold receiveFromFifo Ctl.rxEmpty
  cases h : s.ctl.hwrx with
  | nil => simp [eq_comm]
  | cons g rest => simp [advanceRx, h, and_assoc, eq_comm]

theorem receiveOne_eq_next {s : State} {r : State × Option CanFrame} :
    receiveOne s = .next r ↔
      ∃ u, boundary .insideOperation (s.setRxip false) = .next u ∧ receiveFromFifo u = .next r := by
  unfold receiveOne; rw [andThen_eq_next]

/-- A payload is what its two data windows hold. -/
@[simp] theorem Payload.ofWindows_windows (p : Payload) : Payload.ofWindows p.window0 p.window1 = p := by
  obtain ⟨b0, b1, b2, b3, b4, b5, b6, b7⟩ := p
  simp only [Payload.ofWindows, Payload.window0, Payload.window1, pack, unpack, Payload.mk.injEq]
  refine ⟨?_, ?_, ?_, ?_, ?_, ?_, ?_, ?_⟩ <;>
    (apply BitVec.eq_of_getLsbD_eq; intro i hi
     simp only [BitVec.getLsbD_extractLsb', BitVec.getLsbD_append, hi]
     simp [show ¬ 8 + i < 8 by omega, show ¬ 16 + i < 8 by omega, show ¬ 24 + i < 8 by omega,
       show 8 + i - 8 = i by omega, show 16 + i - 8 = 8 + i by omega, show 24 + i - 8 = 16 + i by omega, hi])

/-- What RX1 takes out of a FIFO with a head. -/
theorem State.windowFrame_cons {s : State} {g : CanFrame} {rest : List CanFrame} (h : s.ctl.hwrx = g :: rest) :
    s.windowFrame = ⟨g.id, clampDlc g.dlc, g.data⟩ := by
  simp [State.windowFrame, State.rxwId, State.rxwDlc, State.rxwData0, State.rxwData1, h]

theorem clampDlc_le (d : Byte) : (clampDlc d).toNat ≤ 8 := by
  unfold clampDlc; split
  · assumption
  · decide

theorem clampDlc_toNat (d : Byte) : (clampDlc d).toNat = min d.toNat 8 := by
  unfold clampDlc; split
  · omega
  · simp; omega

/-- FILLRX's operation: Full with nothing done; else RX1 gives no frame, or one that goes to the write-pointer. -/
theorem fillReceive_eq_next {s : State} {r : State × Status} :
    fillReceive s = .next r ↔
      (s.rxr.isFull s.cfg.cRx = true ∧ r = (s, .full)) ∨
      (s.rxr.isFull s.cfg.cRx = false ∧ ∃ u, boundary .insideOperation (s.setRxip false) = .next u ∧
        ((u.ctl.hwrx = [] ∧ r = (u.pushHri (.rx1 none), .empty)) ∨
          ∃ g rest, u.ctl.hwrx = g :: rest ∧ s.rxr.wr < u.cfg.cRx ∧
            r = (((u.setHwrx rest).pushHri (.rx1 (some ⟨g.id, clampDlc g.dlc, g.data⟩))).setRxr
              { u.rxr with
                slots := Memory.write u.rxr.slots s.rxr.wr ⟨g.id, clampDlc g.dlc, g.data⟩
                wr := nextIndex s.cfg.cRx s.rxr.wr }, .success))) := by
  unfold fillReceive
  by_cases hf : s.rxr.isFull s.cfg.cRx = true
  · simp [hf, eq_comm]
  · simp only [Bool.not_eq_true] at hf
    simp only [hf, Bool.false_eq_true, if_false, false_and, false_or, true_and]
    rw [andThen_eq_next]
    simp only [receiveOne_eq_next]
    constructor
    · rintro ⟨a, ⟨u, hu, ha⟩, h⟩
      refine ⟨u, hu, ?_⟩
      rcases receiveFromFifo_eq_next.1 ha with ⟨he, rfl⟩ | ⟨g, rest, he, rfl⟩
      · simp at h; exact .inl ⟨he, h.symm⟩
      · simp only [State.windowFrame_cons he] at h
        obtain ⟨s', hs', h⟩ := andThen_eq_next.1 h
        obtain ⟨hlt, rfl⟩ := slotWrite_eq_next.1 hs'
        simp at h hlt
        refine .inr ⟨g, rest, he, hlt, h.symm⟩
    · rintro ⟨u, hu, h⟩
      rcases h with ⟨he, rfl⟩ | ⟨g, rest, he, hlt, rfl⟩
      · exact ⟨_, ⟨u, hu, receiveFromFifo_eq_next.2 (.inl ⟨he, rfl⟩)⟩, rfl⟩
      · refine ⟨_, ⟨u, hu, receiveFromFifo_eq_next.2 (.inr ⟨g, rest, he, rfl⟩)⟩, ?_⟩
        simp [State.windowFrame_cons he, slotWrite, hlt]
        rfl

/-! The Hardware Register Interface. -/

theorem setBaudRate_eq_next {rate : Byte} {s : State} {r : State × Bool} :
    setBaudRate rate s = .next r ↔ s.ctl.mode = .configuration ∧
      ((∃ v, timingOf s.cfg rate = some v ∧ r = (s.setNbt v, true)) ∨
        (timingOf s.cfg rate = none ∧ r = (s.setNbt s.cfg.nbtDefault, false))) := by
  unfold setBaudRate
  by_cases hm : s.ctl.mode = .configuration
  · cases ht : timingOf s.cfg rate <;> simp [hm, eq_comm]
  · simp [hm]

theorem configureFilters_eq_next {s t : State} :
    configureFilters s = .next t ↔ s.ctl.mode = .configuration ∧ s.ctl.fltWe = true ∧
      t = s.installFilters (filterRegs s.cfg) := by
  unfold configureFilters
  by_cases hm : s.ctl.mode = .configuration <;> by_cases hw : s.ctl.fltWe = true <;> simp [hm, hw, eq_comm]

@[simp] theorem filterRegs_length (c : Config) : (filterRegs c).length = c.filterTable.length := by simp [filterRegs]

/-- The controller that steps 3 to 10 of HWINIT leave with a supported rate. -/
def Ctl.operating (c : Ctl) (cfg : Config) (v : Word) (fd : Bool) : Ctl :=
  { c.enterReset with
    mode := .normal
    fdEn := fd
    nbt := v
    flt := filterRegs cfg ++ c.flt.drop cfg.filterTable.length
    fltN := cfg.filterTable.length
    fltWe := false
    ie := ⟨true, true, true⟩ }

/-- The controller that HWINIT leaves with a rate that is not supported. -/
def Ctl.failedClosed (c : Ctl) (cfg : Config) (fd : Bool) : Ctl :=
  { c.enterReset with mode := .configuration, fdEn := fd, nbt := cfg.nbtDefault }

/-- Steps 3 to 10 of HWINIT always end in a next state: the controller operates, or has failed closed. -/
theorem configureController_eq (rate : Byte) (fd : Bool) (s : State) :
    configureController rate fd s =
      match timingOf s.cfg rate with
      | some v => .next (s.setCtl (s.ctl.operating s.cfg v fd), true)
      | none => .next (s.setCtl (s.ctl.failedClosed s.cfg fd), false) := by
  unfold configureController setBaudRate
  simp [State.setFdEn, State.setMode, State.enterReset]
  cases ht : timingOf s.cfg rate
  · simp; rfl
  · simp [State.setNbt, configureFilters, Ctl.enterReset]; simp [State.installFilters, State.setIe, State.setCtl, Ctl.operating, Ctl.enterReset]

/-- HWINIT's steps 3 to 10 with the log entry always end in a next state. -/
theorem finishInit_eq (modSel rate : Byte) (fd : Bool) (s : State) :
    finishInit modSel rate fd s =
      match timingOf s.cfg rate with
      | some v => .next ((s.setCtl (s.ctl.operating s.cfg v fd)).pushHri (.hwinit modSel rate fd true), .succeeded)
      | none => .next ((s.setCtl (s.ctl.failedClosed s.cfg fd)).pushHri (.hwinit modSel rate fd false), .failed) := by
  unfold finishInit
  rw [configureController_eq]
  cases timingOf s.cfg rate <;> simp

/-- HWINIT is its clock wait and what follows it, for arguments it accepts. -/
theorem initHardware_eq_next {modSel rate : Byte} {fd : Bool} {s : State} {r : State × Progress} :
    initHardware modSel rate fd s = .next r ↔ fd = false ∧ modSel.toNat < s.cfg.nModules ∧
      ∃ w, clockWait (s.setModSel modSel) = .next w ∧ afterClock modSel rate fd w = .next r := by
  unfold initHardware
  by_cases hf : fd = true
  · simp [hf]
  · by_cases hm : s.cfg.nModules ≤ modSel.toNat
    · have hm' : ¬modSel.toNat < s.cfg.nModules := by omega
      simp [hf, hm, hm']
    · have hm' : modSel.toNat < s.cfg.nModules := by omega
      simp [hf, hm, hm', andThen_eq_next]

/-! The interrupt and the events. -/

theorem takeInterrupt_eq (s : State) :
    takeInterrupt s = { s with
      errLog := s.errLog.latch (s.ctl.ifl.both s.ctl.ie)
      ctl := { s.ctl with ifl := s.ctl.ifl.clear (s.ctl.ifl.both s.ctl.ie) } } := rfl

theorem frameArrives_eq (g : CanFrame) (s : State) :
    frameArrives g s =
      if s.ctl.onBus = true ∧ s.ctl.accepts g.id = true then
        if s.ctl.hwrx.length < s.cfg.hwrxDepth then
          s.setCtl { s.ctl with hwrx := s.ctl.hwrx ++ [g], rxip := true }
        else s.setCtl { s.ctl with ifl := { s.ctl.ifl with ml := true } }
      else s := by
  unfold frameArrives storeReceived
  by_cases h : s.ctl.onBus = true ∧ s.ctl.accepts g.id = true
  · simp [h.1, h.2]; split <;> rfl
  · rw [if_neg h, if_neg (by simpa using h)]

/-! The end of a TICK, and the step. -/

theorem finishTick_free {s : State} (h : s.drvWait = none) : finishTick s = answer .tick [voidCode] s := by
  simp [finishTick, h]

theorem readyCall_eq_some {s : State} {c : DrvCall} :
    readyCall s = some c ↔ s.ctl.clkStable = true ∧ s.drvWait = some c := by
  unfold readyCall; split <;> simp [*]

theorem readyCall_eq_none {s : State} : readyCall s = none ↔ (s.ctl.clkStable = true → s.drvWait = none) := by
  unfold readyCall; split <;> simp [*]

/-- DRV going on: the boundary, then the request it is inside, or the wait again. -/
theorem goOn_eq_next {c : DrvCall} {s t : State} :
    goOn c s = .next t ↔ ∃ u, boundary .insideOperation s = .next u ∧
      ((u.ctl.clkStable = true ∧ resumeRequest c u = .next t) ∨ (u.ctl.clkStable = false ∧ t = u)) := by
  unfold goOn
  rw [andThen_eq_next]
  refine exists_congr fun u => and_congr_right fun _ => ?_
  cases u.ctl.clkStable <;> simp [eq_comm]

theorem serveRequest_eq_next {i : Instr} {s t : State} :
    serveRequest i s = .next t ↔ (s.drvWait = none ∨ barredInside i = false) ∧ exec i s = .next t := by
  unfold serveRequest
  cases hd : s.drvWait <;> cases hb : barredInside i <;> simp

/-- A request of APP or HOST outside DRV's operations, and any other request, is served as its meaning says. -/
theorem serveRequest_free {i : Instr} {s : State} (h : s.drvWait = none ∨ barredInside i = false) :
    serveRequest i s = exec i s := by
  unfold serveRequest
  rcases h with h | h <;> simp [h]

/-- A step is DRV going on with the request it is inside, or nothing, or the next request of `inbox`. -/
theorem step_eq_next {s t : State} :
    step s = .next t ↔
      (∃ c, s.ctl.clkStable = true ∧ s.drvWait = some c ∧ goOn c s = .next t) ∨
      ((s.ctl.clkStable = true → s.drvWait = none) ∧
        ((s.inbox = [] ∧ t = s) ∨
          ∃ i rest, decode s.inbox = .ok i rest ∧ (s.drvWait = none ∨ barredInside i = false) ∧
            exec i (s.setInbox rest) = .next t)) := by
  unfold step serveNext
  cases hr : readyCall s with
  | some c => simp [readyCall_eq_some.1 hr]
  | none =>
    have hn := readyCall_eq_none.1 hr
    have h1 : ¬∃ c, s.ctl.clkStable = true ∧ s.drvWait = some c ∧ goOn c s = .next t := by
      rintro ⟨c, hc, hd, -⟩
      rw [hn hc] at hd; cases hd
    rw [or_iff_right h1, and_iff_right hn]
    unfold serveInbox
    cases hi : s.inbox with
    | nil =>
      have hd : ¬∃ i rest, decode [] = .ok i rest ∧ (s.drvWait = none ∨ barredInside i = false) ∧
          exec i (s.setInbox rest) = .next t := by
        rintro ⟨i, rest, h, -⟩; cases h
      rw [or_iff_left hd]
      exact ⟨fun h => by cases h; exact ⟨rfl, rfl⟩, fun h => by rw [h.2]⟩
    | cons w ws =>
      have he : ¬(w :: ws = [] ∧ t = s) := fun h => by cases h.1
      rw [or_iff_right he]
      simp only [andThen_eq_next, fetch, hi]
      cases hd : decode (w :: ws) with
      | bad e => simp
      | ok i rest =>
        constructor
        · rintro ⟨p, hp, h⟩; cases hp; exact ⟨i, rest, rfl, serveRequest_eq_next.1 h⟩
        · rintro ⟨i', rest', h, h'⟩; cases h; exact ⟨_, rfl, serveRequest_eq_next.2 h'⟩

end Sys2Proof.Machine
end

