-- ==== Sys2Proof/Laws/Closure.lean ====
section
/-! SUPPORT. Whole-machine reasoning said once: a reflexive, transitive relation that every elementary update satisfies holds
between the states before and after every step, whatever other agents do inside it. -/

namespace Sys2Proof.Machine

/-! Interleaving. -/

/-- A step at a boundary is the meaning of its instruction; it is the environment's, or a task's outside an operation. -/
theorem interject_eq_next {k : Boundary} {i : Instr} {s t : State} (h : interject k i s = .next t) :
    exec i s = .next t ∧ (isEnv i = true ∨
      (isTask i = true ∧ k = .betweenCalls)) := by
  cases i <;> cases k <;> simp_all [interject, taskStep, exec, isEnv, isTask, Instr.agent]

/-- A task's step at a boundary outside an operation, or the environment's at any, is the meaning of its instruction. -/
theorem interject_env {k : Boundary} {i : Instr} (s : State) (h : isEnv i = true) : interject k i s = exec i s := by
  cases i <;> simp_all [interject, exec, isEnv, Instr.agent]

theorem interjectAll_cons {k : Boundary} {i : Instr} {rest : List Instr} {s : State} :
    interjectAll k (i :: rest) s = andThen (interject k i s) (interjectAll k rest) := rfl

theorem boundary_nil {k : Boundary} {s : State} (h : s.sched = []) : boundary k s = .next s := by
  simp [boundary, h]

theorem boundary_cons {k : Boundary} {s : State} {steps : List Instr} {later : List (List Instr)}
    (h : s.sched = steps :: later) : boundary k s = interjectAll k steps (s.setSched later) := by
  simp [boundary, h]

/-- The environment always steps on. -/
theorem exec_env_next (i : Instr) (s : State) (h : isEnv i = true) : ∃ t, exec i s = .next t := by
  cases i <;> simp [isEnv, Instr.agent] at h <;> simp only [exec, execEvClk, execEvTxdone, execEvRxframe, execEvErrcnt,
    execEvBusoff, execEvThl, execEvDlcerr, execIsr] <;> (try split) <;> exact ⟨_, rfl⟩

theorem interjectAll_env_next (k : Boundary) (steps : List Instr) (s : State) (h : EnvOnly steps) :
    ∃ t, interjectAll k steps s = .next t := by
  induction steps generalizing s with
  | nil => exact ⟨s, rfl⟩
  | cons i rest ih =>
    have hi : isEnv i = true := h i (by simp)
    obtain ⟨u, hu⟩ := exec_env_next i s hi
    rw [interjectAll_cons, interject_env s hi, hu]
    exact ih u (fun j hj => h j (by simp [hj]))

/-- A boundary with environment steps only ends in a next state. -/
theorem boundary_env_next (k : Boundary) (s : State) (h : EnvOnly (s.sched.headD [])) : ∃ t, boundary k s = .next t := by
  cases hs : s.sched with
  | nil => exact ⟨s, boundary_nil hs⟩
  | cons steps later =>
    rw [boundary_cons hs]
    exact interjectAll_env_next k steps _ (by simpa [hs] using h)

/-! The closure principle. -/

/-- `R` is reflexive, transitive, and holds across every elementary update of a request, DS apart. -/
structure Preserved (R : State → State → Prop) : Prop where
  refl : ∀ s, R s s
  trans : ∀ {s t u}, R s t → R t u → R s u
  env : ∀ {i s t}, isEnv i = true → exec i s = .next t → R s t
  task : ∀ {i s t}, isTask i = true → exec i s = .next t → R s t
  setSched : ∀ s xs, R s (s.setSched xs)
  setInbox : ∀ s ws, R s (s.setInbox ws)
  setDrvWait : ∀ s c, R s (s.setDrvWait c)
  respond : ∀ s op ws, R s (s.respond op ws)
  clearRxip : ∀ s, R s (s.setRxip false)
  receiveNone : ∀ s, R s (s.pushHri (.rx1 none))
  receiveSome : ∀ s g rest, s.ctl.hwrx = g :: rest →
    R s ((s.setHwrx rest).pushHri (.rx1 (some ⟨g.id, clampDlc g.dlc, g.data⟩)))
  storeFrame : ∀ s (g : CanFrame) i, g.dlc.toNat ≤ 8 → i < s.cfg.cRx →
    R s (s.setRxr { s.rxr with slots := Memory.write s.rxr.slots i g, wr := nextIndex s.cfg.cRx i })
  setHriOut : ∀ s f, R s (s.setHriOut f)
  setErrOut : ∀ s e, R s (s.setErrOut e)
  setModSel : ∀ s m, R s (s.setModSel m)
  operating : ∀ s m r v fd, timingOf s.cfg r = some v →
    R s ((s.setCtl (s.ctl.operating s.cfg v fd)).pushHri (.hwinit m r fd true))
  failedClosed : ∀ s m r fd, timingOf s.cfg r = none →
    R s ((s.setCtl (s.ctl.failedClosed s.cfg fd)).pushHri (.hwinit m r fd false))
  timedOut : ∀ s m r fd, R s (s.pushHri (.hwinit m r fd false))
  initBuffers : ∀ s, R s (initBuffers s)
  drain : ∀ {s r}, drainTransmit s = .next r → R s r.1
  transmit : ∀ f s, R s (transmitOne f s).1
  readErrors : ∀ s, R s (getErrorFlags s).1
  deinit : ∀ s, R s (deinitHardware s)
  setbaud : ∀ s r v b, s.ctl.mode = .configuration → R s ((s.setNbt v).pushHri (.setbaud r b))
  cfgflt : ∀ s, s.ctl.mode = .configuration → s.ctl.fltWe = true →
    R s ((s.installFilters (filterRegs s.cfg)).pushHri (.cfgflt true))

namespace Preserved

variable {R : State → State → Prop}

theorem interjectAll (h : Preserved R) {k : Boundary} {steps : List Instr} {s t : State}
    (hst : Machine.interjectAll k steps s = .next t) : R s t := by
  induction steps generalizing s with
  | nil => cases hst; exact h.refl _
  | cons i rest ih =>
    obtain ⟨u, hu, ht⟩ := andThen_eq_next.1 hst
    obtain ⟨he, hi | ⟨hi, -⟩⟩ := interject_eq_next hu
    · exact h.trans (h.env hi he) (ih ht)
    · exact h.trans (h.task hi he) (ih ht)

theorem boundary (h : Preserved R) {k : Boundary} {s t : State} (hst : Machine.boundary k s = .next t) : R s t := by
  cases hs : s.sched with
  | nil => rw [boundary_nil hs] at hst; cases hst; exact h.refl _
  | cons steps later =>
    rw [boundary_cons hs] at hst
    exact h.trans (h.setSched s later) (h.interjectAll hst)

theorem receiveOne (h : Preserved R) {s : State} {r : State × Option CanFrame}
    (hr : Machine.receiveOne s = .next r) : R s r.1 := by
  obtain ⟨u, hu, hr⟩ := receiveOne_eq_next.1 hr
  refine h.trans (h.trans (h.clearRxip s) (h.boundary hu)) ?_
  rcases receiveFromFifo_eq_next.1 hr with ⟨-, rfl⟩ | ⟨g, rest, hg, rfl⟩
  · exact h.receiveNone u
  · rw [State.windowFrame_cons hg]; exact h.receiveSome u g rest hg

theorem fillReceive (h : Preserved R) {s : State} {r : State × Status} (hcfg : ∀ s t, R s t → t.cfg = s.cfg)
    (hr : Machine.fillReceive s = .next r) : R s r.1 := by
  rcases fillReceive_eq_next.1 hr with ⟨-, rfl⟩ | ⟨-, u, hu, hr⟩
  · exact h.refl _
  · have hsu := h.trans (h.clearRxip s) (h.boundary hu)
    refine h.trans hsu ?_
    rcases hr with ⟨-, rfl⟩ | ⟨g, rest, hg, hlt, rfl⟩
    · exact h.receiveNone u
    · refine h.trans (h.receiveSome u g rest hg) ?_
      rw [← hcfg s u hsu]
      exact h.storeFrame _ ⟨g.id, clampDlc g.dlc, g.data⟩ s.rxr.wr (clampDlc_le _) hlt

theorem fillBurst (h : Preserved R) (hcfg : ∀ s t, R s t → t.cfg = s.cfg) {n : Nat} {s t : State}
    (hst : Machine.fillBurst n s = .next t) : R s t := by
  induction n generalizing s with
  | zero => cases hst; exact h.refl _
  | succ m ih =>
    obtain ⟨u, hu, hst⟩ := andThen_eq_next.1 hst
    obtain ⟨r, hr, hst⟩ := andThen_eq_next.1 hst
    have hur := h.trans (h.boundary hu) (h.fillReceive hcfg hr)
    split at hst
    · exact h.trans hur (ih hst)
    · cases hst; exact hur

theorem pollClock (h : Preserved R) {n : Nat} {s : State} {r : State × Bool}
    (hr : Machine.pollClock n s = .next r) : R s r.1 := by
  induction n generalizing s with
  | zero => cases hr; exact h.refl _
  | succ m ih =>
    unfold Machine.pollClock at hr
    split at hr
    · cases hr; exact h.refl _
    · obtain ⟨u, hu, hr⟩ := andThen_eq_next.1 hr
      exact h.trans (h.boundary hu) (ih hr)

theorem clockWait (h : Preserved R) {s : State} {r : State × Progress}
    (hr : Machine.clockWait s = .next r) : R s r.1 := by
  unfold Machine.clockWait at hr
  split at hr
  · cases hr; exact h.refl _
  · obtain ⟨w, hw, hr⟩ := andThen_eq_next.1 hr
    cases hr; exact h.pollClock hw
  · cases hr; exact h.refl _

theorem finishInit (h : Preserved R) {m r : Byte} {fd : Bool} {s : State} {p : State × Progress}
    (hp : Machine.finishInit m r fd s = .next p) : R s p.1 := by
  rw [finishInit_eq] at hp
  cases ht : timingOf s.cfg r with
  | none => rw [ht] at hp; cases hp; exact h.failedClosed s m r fd ht
  | some v => rw [ht] at hp; cases hp; exact h.operating s m r v fd ht

theorem afterClock (h : Preserved R) {m r : Byte} {fd : Bool} {w p : State × Progress}
    (hp : Machine.afterClock m r fd w = .next p) : R w.1 p.1 := by
  unfold Machine.afterClock at hp
  split at hp
  · obtain ⟨u, hu, hp⟩ := andThen_eq_next.1 hp
    exact h.trans (h.boundary hu) (h.finishInit hp)
  · cases hp; exact h.timedOut _ m r fd
  · cases hp; exact h.setDrvWait _ _

theorem initHardware (h : Preserved R) {m r : Byte} {fd : Bool} {s : State} {p : State × Progress}
    (hp : Machine.initHardware m r fd s = .next p) : R s p.1 := by
  obtain ⟨-, -, w, hw, hp⟩ := initHardware_eq_next.1 hp
  exact h.trans (h.trans (h.setModSel s m) (h.clockWait hw)) (h.afterClock hp)

theorem resumeHardware (h : Preserved R) {m r : Byte} {fd : Bool} {s : State} {p : State × Progress}
    (hp : Machine.resumeHardware m r fd s = .next p) : R s p.1 :=
  h.trans (h.setDrvWait s none) (h.afterClock hp)

theorem afterHardware (h : Preserved R) {r p : State × Progress} (hp : Machine.afterHardware r = .next p) : R r.1 p.1 := by
  unfold Machine.afterHardware at hp
  split at hp
  · cases hp; exact h.refl _
  · obtain ⟨u, hu, hp⟩ := andThen_eq_next.1 hp
    cases hp; exact h.trans (h.boundary hu) (h.initBuffers u)
  · obtain ⟨u, hu, hp⟩ := andThen_eq_next.1 hp
    cases hp; exact h.trans (h.boundary hu) (h.initBuffers u)

theorem initDriver (h : Preserved R) {s : State} {p : State × Progress} (hp : Machine.initDriver s = .next p) : R s p.1 := by
  obtain ⟨r, hr, hp⟩ := andThen_eq_next.1 hp
  exact h.trans (h.initHardware hr) (h.afterHardware hp)

theorem busError (h : Preserved R) {s : State} {e : State × Bool} (he : Machine.busError s = .next e) : R s e.1 := by
  unfold Machine.busError at he
  split at he
  · cases he; exact h.refl s
  · obtain ⟨u, hu, he⟩ := andThen_eq_next.1 he
    cases he; exact h.trans (h.boundary hu) (h.readErrors u)

theorem answerProgress (h : Preserved R) (c : DrvCall) (p : Progress) (s : State) : R s (Machine.answerProgress c p s) := by
  cases p
  · exact h.respond _ _ _
  · exact h.respond _ _ _
  · exact h.setDrvWait _ _

theorem finishTick (h : Preserved R) (s : State) : R s (Machine.finishTick s) := by
  unfold Machine.finishTick
  split
  · exact h.respond _ _ _
  · exact h.setDrvWait _ _

/-- Every request but TICK. -/
theorem exec_other (h : Preserved R) (hcfg : ∀ s t, R s t → t.cfg = s.cfg) {i : Instr} {s t : State} (hi : i ≠ .tick)
    (hst : exec i s = .next t) : R s t := by
  cases i with
  | enqtx f => exact h.task (by rfl) hst
  | deqrx => exact h.task (by rfl) hst
  | reqshut => exact h.task (by rfl) hst
  | tick => exact absurd rfl hi
  | evClk b => exact h.env (by rfl) hst
  | evTxdone => exact h.env (by rfl) hst
  | evRxframe g => exact h.env (by rfl) hst
  | evErrcnt a b => exact h.env (by rfl) hst
  | evBusoff => exact h.env (by rfl) hst
  | evThl => exact h.env (by rfl) hst
  | evDlcerr => exact h.env (by rfl) hst
  | isr => exact h.env (by rfl) hst
  | draintx =>
    obtain ⟨r, hr, hst⟩ := andThen_eq_next.1 (drvRequest_eq_next.1 hst).2
    cases hst; exact h.trans (h.drain hr) (h.respond _ _ _)
  | fillrx =>
    obtain ⟨r, hr, hst⟩ := andThen_eq_next.1 (drvRequest_eq_next.1 hst).2
    cases hst; exact h.trans (h.fillReceive hcfg hr) (h.respond _ _ _)
  | bufinit => cases (drvRequest_eq_next.1 hst).2; exact h.trans (h.initBuffers s) (h.respond _ _ _)
  | drvinit =>
    obtain ⟨r, hr, hst⟩ := andThen_eq_next.1 (drvRequest_eq_next.1 hst).2
    cases hst; exact h.trans (h.initDriver hr) (h.answerProgress _ _ _)
  | hwinit m r fd =>
    obtain ⟨p, hp, hst⟩ := andThen_eq_next.1 (drvRequest_eq_next.1 hst).2
    cases hst; exact h.trans (h.initHardware hp) (h.answerProgress _ _ _)
  | setbaud r =>
    obtain ⟨p, hp, hst⟩ := andThen_eq_next.1 (drvRequest_eq_next.1 hst).2
    obtain ⟨hm, ⟨v, -, rfl⟩ | ⟨-, rfl⟩⟩ := setBaudRate_eq_next.1 hp <;> cases hst <;>
      exact h.trans (h.setbaud s r _ _ hm) (h.respond _ _ _)
  | cfgflt =>
    obtain ⟨p, hp, hst⟩ := andThen_eq_next.1 (drvRequest_eq_next.1 hst).2
    obtain ⟨hm, hw, rfl⟩ := configureFilters_eq_next.1 hp
    cases hst; exact h.trans (h.cfgflt s hm hw) (h.respond _ _ _)
  | tx1 f => cases (drvRequest_eq_next.1 hst).2; exact h.trans (h.transmit f s) (h.respond _ _ _)
  | rx1 =>
    obtain ⟨r, hr, hst⟩ := andThen_eq_next.1 (drvRequest_eq_next.1 hst).2
    cases hst
    refine h.trans (h.receiveOne hr) ?_
    cases r.2
    · exact h.respond _ _ _
    · exact h.trans (h.setHriOut _ _) (h.respond _ _ _)
  | geterr =>
    cases (drvRequest_eq_next.1 hst).2
    exact h.trans (h.trans (h.readErrors s) (h.setErrOut _ _)) (h.respond _ _ _)
  | deinit => cases (drvRequest_eq_next.1 hst).2; exact h.trans (h.deinit s) (h.respond _ _ _)

end Preserved

/-! What an environment's or a task's step does, state in, state out. -/

/-- The step of an environment agent: it changes the controller's registers that the events own, ERRLOG, BUS_OUT and the
answers, and nothing else. -/
structure EnvStep (s t : State) : Prop where
  same : t = { s with errLog := t.errLog, ctl := t.ctl, busOut := t.busOut, respLog := t.respLog }
  ctl : t.ctl = { s.ctl with
    clkStable := t.ctl.clkStable, ifl := t.ctl.ifl, rxip := t.ctl.rxip, txReq := t.ctl.txReq
    hwrx := t.ctl.hwrx, bo := t.ctl.bo, tec := t.ctl.tec, recCnt := t.ctl.recCnt }
  bus : s.busOut <+: t.busOut
  resp : s.respLog <+: t.respLog
  bo : s.ctl.bo = true → t.ctl.bo = true
  depth : s.ctl.hwrx.length ≤ s.cfg.hwrxDepth → t.ctl.hwrx.length ≤ s.cfg.hwrxDepth
  latched : (s.errLog.th = true → t.errLog.th = true) ∧ (s.errLog.ml = true → t.errLog.ml = true) ∧
    (s.errLog.de = true → t.errLog.de = true)

theorem exec_env {i : Instr} {s t : State} (hi : isEnv i = true) (h : exec i s = .next t) : EnvStep s t := by
  cases i <;> simp [isEnv, Instr.agent] at hi
  case evClk b =>
    cases h
    exact ⟨rfl, rfl, List.prefix_refl _, List.prefix_append _ _, id, id, id, id, id⟩
  case evTxdone =>
    simp only [exec, execEvTxdone] at h
    split at h <;> cases h
    · exact ⟨rfl, rfl, List.prefix_append _ _, List.prefix_append _ _, id, id, id, id, id⟩
    · exact ⟨rfl, rfl, List.prefix_refl _, List.prefix_refl _, id, id, id, id, id⟩
  case evRxframe g =>
    simp only [exec, execEvRxframe, frameArrives_eq] at h
    split at h
    · split at h <;> cases h
      · rename_i hl
        exact ⟨rfl, rfl, List.prefix_refl _, List.prefix_append _ _, id, fun _ => by simp; omega, id, id, id⟩
      · exact ⟨rfl, rfl, List.prefix_refl _, List.prefix_append _ _, id, id, id, id, id⟩
    · cases h; exact ⟨rfl, rfl, List.prefix_refl _, List.prefix_append _ _, id, id, id, id, id⟩
  case evErrcnt a b =>
    simp only [exec, execEvErrcnt] at h
    split at h <;> cases h
    · exact ⟨rfl, rfl, List.prefix_refl _, List.prefix_append _ _, id, id, id, id, id⟩
    · exact ⟨rfl, rfl, List.prefix_refl _, List.prefix_refl _, id, id, id, id, id⟩
  case evBusoff =>
    simp only [exec, execEvBusoff] at h
    split at h <;> cases h
    · exact ⟨rfl, rfl, List.prefix_refl _, List.prefix_append _ _, fun _ => rfl, id, id, id, id⟩
    · exact ⟨rfl, rfl, List.prefix_refl _, List.prefix_refl _, id, id, id, id, id⟩
  case evThl =>
    simp only [exec, execEvThl] at h
    split at h <;> cases h
    · exact ⟨rfl, rfl, List.prefix_refl _, List.prefix_append _ _, id, id, id, id, id⟩
    · exact ⟨rfl, rfl, List.prefix_refl _, List.prefix_refl _, id, id, id, id, id⟩
  case evDlcerr =>
    simp only [exec, execEvDlcerr] at h
    split at h <;> cases h
    · exact ⟨rfl, rfl, List.prefix_refl _, List.prefix_append _ _, id, id, id, id, id⟩
    · exact ⟨rfl, rfl, List.prefix_refl _, List.prefix_refl _, id, id, id, id, id⟩
  case isr =>
    simp only [exec, execIsr] at h
    split at h <;> cases h
    · refine ⟨rfl, rfl, List.prefix_refl _, List.prefix_append _ _, id, id, ?_, ?_, ?_⟩ <;>
        (intro h; simp [returnFromInterrupt, takeInterrupt, IrqBits.latch, h])
    · exact ⟨rfl, rfl, List.prefix_refl _, List.prefix_refl _, id, id, id, id, id⟩

/-- The step of APP or HOST: one of the two indices they own, TXF's cells, SHUTREQ, the caller's output, the answers. -/
structure TaskStep (s t : State) : Prop where
  same : t = { s with
    shutReq := t.shutReq, txf := { s.txf with slots := t.txf.slots, wr := t.txf.wr }, rxr := { s.rxr with rd := t.rxr.rd }
    appOut := t.appOut, respLog := t.respLog }
  latch : s.shutReq = true → t.shutReq = true
  resp : s.respLog <+: t.respLog
  tx : (t.txf.slots = s.txf.slots ∧ t.txf.wr = s.txf.wr) ∨ ∃ f, s.txf.isFull s.cfg.cTx = false ∧ s.txf.wr < s.cfg.cTx ∧
    t.txf.slots = Memory.write s.txf.slots s.txf.wr (enqueuedCell f (s.cell .transmit s.txf.wr)) ∧
    t.txf.wr = nextIndex s.cfg.cTx s.txf.wr
  rx : t.rxr.rd = s.rxr.rd ∨ (s.rxr.isEmpty = false ∧ t.rxr.rd = nextIndex s.cfg.cRx s.rxr.rd)

theorem exec_task {i : Instr} {s t : State} (hi : isTask i = true) (h : exec i s = .next t) : TaskStep s t := by
  cases i <;> simp [isTask, Instr.agent] at hi
  case enqtx f =>
    obtain ⟨r, hr, h⟩ := andThen_eq_next.1 h
    rcases enqueueTransmit_eq_next.1 hr with ⟨-, rfl⟩ | ⟨hf, hw, rfl⟩ <;> cases h
    · exact ⟨rfl, id, List.prefix_append _ _, .inl ⟨rfl, rfl⟩, .inl rfl⟩
    · exact ⟨rfl, id, List.prefix_append _ _, .inr ⟨f, hf, hw, rfl, rfl⟩, .inl rfl⟩
  case deqrx =>
    obtain ⟨r, hr, h⟩ := andThen_eq_next.1 h
    rcases dequeueReceive_eq_next.1 hr with ⟨-, rfl⟩ | ⟨hf, hw, rfl⟩ <;> cases h
    · exact ⟨rfl, id, List.prefix_append _ _, .inl ⟨rfl, rfl⟩, .inl rfl⟩
    · exact ⟨rfl, id, List.prefix_append _ _, .inl ⟨rfl, rfl⟩, .inr ⟨hf, rfl⟩⟩
  case reqshut =>
    cases h
    exact ⟨rfl, fun _ => rfl, List.prefix_append _ _, .inl ⟨rfl, rfl⟩, .inl rfl⟩

/-! The closure principle for TICK and for the step. -/

/-- CONFIG and DS are touched by none of the elementary updates. -/
theorem preserved_cfg_ds : Preserved (fun s t => t.cfg = s.cfg ∧ t.ds = s.ds) where
  refl _ := ⟨rfl, rfl⟩
  trans h h' := ⟨h'.1.trans h.1, h'.2.trans h.2⟩
  env hi h := by rw [(exec_env hi h).same]; exact ⟨rfl, rfl⟩
  task hi h := by rw [(exec_task hi h).same]; exact ⟨rfl, rfl⟩
  setSched _ _ := ⟨rfl, rfl⟩
  setInbox _ _ := ⟨rfl, rfl⟩
  setDrvWait _ _ := ⟨rfl, rfl⟩
  respond _ _ _ := ⟨rfl, rfl⟩
  clearRxip _ := ⟨rfl, rfl⟩
  receiveNone _ := ⟨rfl, rfl⟩
  receiveSome _ _ _ _ := ⟨rfl, rfl⟩
  storeFrame _ _ _ _ _ := ⟨rfl, rfl⟩
  setHriOut _ _ := ⟨rfl, rfl⟩
  setErrOut _ _ := ⟨rfl, rfl⟩
  setModSel _ _ := ⟨rfl, rfl⟩
  operating _ _ _ _ _ _ := ⟨rfl, rfl⟩
  failedClosed _ _ _ _ _ := ⟨rfl, rfl⟩
  timedOut _ _ _ _ := ⟨rfl, rfl⟩
  initBuffers _ := ⟨rfl, rfl⟩
  drain h := by
    rcases drainTransmit_eq_next.1 h with ⟨-, rfl⟩ | ⟨-, -, -, rfl⟩ | ⟨-, -, -, rfl⟩ <;> exact ⟨rfl, rfl⟩
  transmit f s := by unfold transmitOne; split <;> exact ⟨rfl, rfl⟩
  readErrors _ := ⟨rfl, rfl⟩
  deinit _ := ⟨rfl, rfl⟩
  setbaud _ _ _ _ _ := ⟨rfl, rfl⟩
  cfgflt _ _ _ := ⟨rfl, rfl⟩

/-- A relation strengthened by "CONFIG and DS are as before" is preserved too. -/
theorem Preserved.withDs {R : State → State → Prop} (h : Preserved R) :
    Preserved (fun s t => R s t ∧ t.cfg = s.cfg ∧ t.ds = s.ds) where
  refl s := ⟨h.refl s, preserved_cfg_ds.refl s⟩
  trans a b := ⟨h.trans a.1 b.1, preserved_cfg_ds.trans a.2 b.2⟩
  env hi e := ⟨h.env hi e, preserved_cfg_ds.env hi e⟩
  task hi e := ⟨h.task hi e, preserved_cfg_ds.task hi e⟩
  setSched s x := ⟨h.setSched s x, rfl, rfl⟩
  setInbox s x := ⟨h.setInbox s x, rfl, rfl⟩
  setDrvWait s x := ⟨h.setDrvWait s x, rfl, rfl⟩
  respond s x y := ⟨h.respond s x y, rfl, rfl⟩
  clearRxip s := ⟨h.clearRxip s, rfl, rfl⟩
  receiveNone s := ⟨h.receiveNone s, rfl, rfl⟩
  receiveSome s g r e := ⟨h.receiveSome s g r e, rfl, rfl⟩
  storeFrame s g i a b := ⟨h.storeFrame s g i a b, rfl, rfl⟩
  setHriOut s x := ⟨h.setHriOut s x, rfl, rfl⟩
  setErrOut s x := ⟨h.setErrOut s x, rfl, rfl⟩
  setModSel s x := ⟨h.setModSel s x, rfl, rfl⟩
  operating s m r v fd e := ⟨h.operating s m r v fd e, rfl, rfl⟩
  failedClosed s m r fd e := ⟨h.failedClosed s m r fd e, rfl, rfl⟩
  timedOut s m r fd := ⟨h.timedOut s m r fd, rfl, rfl⟩
  initBuffers s := ⟨h.initBuffers s, rfl, rfl⟩
  drain e := ⟨h.drain e, preserved_cfg_ds.drain e⟩
  transmit f s := ⟨h.transmit f s, preserved_cfg_ds.transmit f s⟩
  readErrors s := ⟨h.readErrors s, rfl, rfl⟩
  deinit s := ⟨h.deinit s, rfl, rfl⟩
  setbaud s r v b e := ⟨h.setbaud s r v b e, rfl, rfl⟩
  cfgflt s a b := ⟨h.cfgflt s a b, rfl, rfl⟩

/-- What a relation must say of the four moves of DS (42_state_machine.md R159). -/
structure DsMoves (R : State → State → Prop) : Prop where
  activate : ∀ s, s.ds = .init ∨ s.ds = .errorHandling → R s (s.setDs .activeOperation)
  error : ∀ s, s.ds = .activeOperation → s.cfg.busErrPolicy = .busOffFlag → R s (s.setDs .errorHandling)
  shutdown : ∀ s, s.ds ≠ .shutdown → s.shutReq = true → R s (s.setDs .shutdown)

namespace Preserved

variable {R : State → State → Prop}

theorem enterActiveOn (h : Preserved R) (hd : DsMoves R) {p : Progress} {s : State}
    (hs : s.ds = .init ∨ s.ds = .errorHandling) : R s (Machine.enterActiveOn p s) := by
  cases p
  · exact hd.activate s hs
  · exact h.refl s
  · exact h.refl s

theorem periodicTask (h : Preserved R) (hd : DsMoves R) {s t : State} (hst : Machine.periodicTask s = .next t) : R s t := by
  have h' := h.withDs
  unfold Machine.periodicTask at hst
  split at hst
  · rename_i hc
    cases hst
    exact h.trans (h.deinit s) (hd.shutdown (deinitHardware s) hc.2 hc.1)
  · unfold cycleWork at hst
    split at hst
    · rename_i hds
      obtain ⟨r, hr, hst⟩ := andThen_eq_next.1 hst
      cases hst
      have := h'.initDriver hr
      exact h.trans this.1 (h.enterActiveOn hd (.inl (this.2.2.trans hds)))
    · rename_i hds
      obtain ⟨d, hdr, hst⟩ := andThen_eq_next.1 hst
      obtain ⟨u, hu, hst⟩ := andThen_eq_next.1 hst
      obtain ⟨e, he, hst⟩ := andThen_eq_next.1 hst
      have h1 := h'.trans (h'.trans (h'.drain hdr) (h'.fillBurst (fun _ _ x => x.2.1) hu)) (h'.busError he)
      cases hb : e.2
      · rw [hb] at hst; cases hst; exact h1.1
      · rw [hb] at hst; cases hst
        refine h.trans h1.1 (hd.error _ (h1.2.2.trans hds) ?_)
        have h2 := h'.trans (h'.drain hdr) (h'.fillBurst (fun _ _ x => x.2.1) hu)
        unfold Machine.busError at he
        split at he
        · cases he; cases hb
        · rename_i hp; rw [h1.2.1, ← h2.2.1]; exact hp
    · rename_i hds
      unfold cycleErrorHandling at hst
      split at hst
      obtain ⟨r, hr, hst⟩ := andThen_eq_next.1 hst
      cases hst
      have := h'.initHardware hr
      exact h.trans this.1 (h.enterActiveOn hd (.inr (this.2.2.trans hds)))
    · cases hst; exact h.refl _

theorem resumeRequest (h : Preserved R) (hd : DsMoves R) {c : DrvCall} {s t : State}
    (hst : Machine.resumeRequest c s = .next t) : R s t := by
  have h' := h.withDs
  unfold Machine.resumeRequest at hst
  split at hst
  · obtain ⟨r, hr, hst⟩ := andThen_eq_next.1 hst
    cases hst; exact h.trans (h.resumeHardware hr) (h.answerProgress _ _ _)
  · obtain ⟨r, hr, hst⟩ := andThen_eq_next.1 hst
    obtain ⟨d, hdr, hst⟩ := andThen_eq_next.1 hst
    cases hst; exact h.trans (h.trans (h.resumeHardware hr) (h.afterHardware hdr)) (h.answerProgress _ _ _)
  · split at hst
    · rename_i hds
      obtain ⟨r, hr, hst⟩ := andThen_eq_next.1 hst
      obtain ⟨d, hdr, hst⟩ := andThen_eq_next.1 hst
      cases hst
      have := h'.trans (h'.resumeHardware hr) (h'.afterHardware hdr)
      exact h.trans (h.trans this.1 (h.enterActiveOn hd (.inl (this.2.2.trans hds)))) (h.finishTick _)
    · rename_i hds
      obtain ⟨r, hr, hst⟩ := andThen_eq_next.1 hst
      cases hst
      have := h'.resumeHardware hr
      exact h.trans (h.trans this.1 (h.enterActiveOn hd (.inr (this.2.2.trans hds)))) (h.finishTick _)
    · cases hst; exact h.refl _
    · cases hst; exact h.refl _

/-- Every request, TICK included. -/
theorem exec (h : Preserved R) (hd : DsMoves R) {i : Instr} {s t : State} (hst : Machine.exec i s = .next t) : R s t := by
  by_cases hi : i = .tick
  · subst hi
    obtain ⟨u, hu, hst⟩ := andThen_eq_next.1 (drvRequest_eq_next.1 hst).2
    cases hst; exact h.trans (h.periodicTask hd hu) (h.finishTick u)
  · exact (h.withDs.exec_other (fun _ _ x => x.2.1) hi hst).1

/-- Every step of the machine. -/
theorem step (h : Preserved R) (hd : DsMoves R) {s t : State} (hst : Machine.step s = .next t) : R s t := by
  rcases step_eq_next.1 hst with ⟨c, -, -, hst⟩ | ⟨-, ⟨-, rfl⟩ | ⟨i, rest, -, -, hst⟩⟩
  · obtain ⟨u, hu, ⟨-, hst⟩ | ⟨-, rfl⟩⟩ := goOn_eq_next.1 hst
    · exact h.trans (h.boundary hu) (h.resumeRequest hd hst)
    · exact h.boundary hu
  · exact h.refl _
  · exact h.trans (h.setInbox s _) (h.exec hd hst)

end Preserved
end Sys2Proof.Machine
end

