-- ==== Sys2Proof/Laws/Init.lean ====
section
/-! SUPPORT. What the boundaries, the clock wait and HWINIT do, said once: with nothing scheduled inside, and with only
environment steps inside. -/

namespace Sys2Proof.Machine

/-! Environment steps at a boundary. -/

/-- What any number of environment steps and boundaries leave alone (10_state.md R51). -/
structure EnvSteps (s t : State) : Prop where
  same : t = { s with
    errLog := t.errLog, ctl := t.ctl, busOut := t.busOut, respLog := t.respLog, sched := t.sched }
  ctl : t.ctl = { s.ctl with
    clkStable := t.ctl.clkStable, ifl := t.ctl.ifl, rxip := t.ctl.rxip, txReq := t.ctl.txReq
    hwrx := t.ctl.hwrx, bo := t.ctl.bo, tec := t.ctl.tec, recCnt := t.ctl.recCnt }
  resp : s.respLog <+: t.respLog

theorem EnvSteps.refl (s : State) : EnvSteps s s := ⟨rfl, rfl, List.prefix_refl _⟩

theorem EnvSteps.trans {s t u : State} (h : EnvSteps s t) (h' : EnvSteps t u) : EnvSteps s u :=
  ⟨by rw [h'.same, h.same], by rw [h'.ctl, h.ctl], h.resp.trans h'.resp⟩

theorem EnvSteps.of_exec {i : Instr} {s t : State} (hi : isEnv i = true) (h : exec i s = .next t) : EnvSteps s t := by
  have e := exec_env hi h
  exact ⟨by rw [e.same], e.ctl, e.resp⟩

theorem interjectAll_envSteps {k : Boundary} {steps : List Instr} {s t : State} (he : EnvOnly steps)
    (h : interjectAll k steps s = .next t) : EnvSteps s t := by
  induction steps generalizing s with
  | nil => cases h; exact .refl _
  | cons i rest ih =>
    obtain ⟨u, hu, ht⟩ := andThen_eq_next.1 h
    rw [interject_env _ (he i (by simp))] at hu
    exact (EnvSteps.of_exec (he i (by simp)) hu).trans (ih (fun j hj => he j (by simp [hj])) ht)

/-- A boundary with environment steps only. -/
theorem boundary_envSteps {k : Boundary} {s t : State} (he : EnvOnly (s.sched.headD [])) (h : boundary k s = .next t) :
    EnvSteps s t := by
  cases hs : s.sched with
  | nil => rw [boundary_nil hs] at h; cases h; exact .refl s
  | cons a b =>
    rw [boundary_cons hs] at h
    exact EnvSteps.trans (t := s.setSched b) ⟨rfl, rfl, List.prefix_refl _⟩
      (interjectAll_envSteps (by simpa [hs] using he) h)

theorem interjectAll_sched {k : Boundary} {steps : List Instr} {s t : State} (h : interjectAll k steps s = .next t) :
    t.sched = s.sched := by
  induction steps generalizing s with
  | nil => cases h; rfl
  | cons i rest ih =>
    obtain ⟨u, hu, ht⟩ := andThen_eq_next.1 h
    rw [ih ht]
    obtain ⟨he, hi | ⟨hi, -⟩⟩ := interject_eq_next hu
    · rw [(exec_env hi he).same]
    · rw [(exec_task hi he).same]

/-- A boundary uses up one entry of `sched`, whatever steps stand in it. -/
theorem boundary_sched {k : Boundary} {s t : State} (h : boundary k s = .next t) : t.sched = s.sched.drop 1 := by
  cases hs : s.sched with
  | nil => rw [boundary_nil hs] at h; cases h; simp [hs]
  | cons a b => rw [boundary_cons hs] at h; rw [interjectAll_sched h]; rfl

/-! The clock wait (41_hri_ops.md R122). -/

/-- `n + 1` reads have at most `n` boundaries between them. -/
theorem pollClock_sched {n : Nat} {s : State} {r : State × Bool} (h : pollClock n s = .next r) :
    ∃ j, j ≤ n ∧ r.1.sched = s.sched.drop j := by
  induction n generalizing s with
  | zero => cases h; exact ⟨0, by omega, rfl⟩
  | succ m ih =>
    unfold pollClock at h
    split at h
    · cases h; exact ⟨0, by omega, rfl⟩
    · obtain ⟨u, hu, h⟩ := andThen_eq_next.1 h
      obtain ⟨j, hj, hs⟩ := ih h
      exact ⟨1 + j, by omega, by rw [hs, boundary_sched hu, List.drop_drop]⟩

/-- Polling with environment steps only always ends, and leaves the driver's own state alone. -/
theorem pollClock_envSteps {n : Nat} {s : State} (h : ∀ steps ∈ s.sched, EnvOnly steps) :
    ∃ r, pollClock n s = .next r ∧ EnvSteps s r.1 ∧ ∀ steps ∈ r.1.sched, EnvOnly steps := by
  induction n generalizing s with
  | zero => exact ⟨_, rfl, .refl s, h⟩
  | succ m ih =>
    unfold pollClock
    split
    · exact ⟨_, rfl, .refl s, h⟩
    · have he : EnvOnly (s.sched.headD []) := by
        cases hs : s.sched with
        | nil => intro i hi; cases hi
        | cons a b => exact h a (by simp [hs])
      obtain ⟨u, hu⟩ := boundary_env_next .insideOperation s he
      obtain ⟨r, hr, h1, h2⟩ := ih (s := u) (fun x hx => h x (by rw [boundary_sched hu] at hx; exact List.mem_of_mem_drop hx))
      exact ⟨r, by simp [hu, hr], (boundary_envSteps he hu).trans h1, h2⟩

theorem pollClock_stable {n : Nat} {s : State} (h : s.ctl.clkStable = true) :
    pollClock n s = .next (s, true) := by
  cases n <;> simp [pollClock, h]

theorem pollClock_alone {n : Nat} {s : State} (hs : s.sched = []) :
    pollClock n s = .next (s, s.ctl.clkStable) := by
  induction n with
  | zero => rfl
  | succ m ih => cases h : s.ctl.clkStable <;> simp_all [pollClock, boundary_nil hs]

theorem clockWait_stable {s : State} (h : s.ctl.clkStable = true) (h0 : s.cfg.clkWaitMax ≠ some 0) :
    clockWait s = .next (s, .succeeded) := by
  unfold clockWait
  split
  · exact absurd ‹_› h0
  · simp [pollClock_stable h]
  · simp [h]

theorem clockWait_timesOut {s : State} {n : Nat} (hn : s.cfg.clkWaitMax = some n)
    (h : n = 0 ∨ (s.ctl.clkStable = false ∧ s.sched = [])) : clockWait s = .next (s, .failed) := by
  unfold clockWait
  rw [hn]
  cases n with
  | zero => rfl
  | succ m =>
    obtain ⟨hc, hs⟩ := h.resolve_left (by omega)
    simp [pollClock_alone hs, hc]

theorem clockWait_sticks {s : State} (hn : s.cfg.clkWaitMax = none) (hc : s.ctl.clkStable = false) :
    clockWait s = .next (s, .waiting) := by
  unfold clockWait
  simp [hn, hc]

/-! HWINIT with accepted arguments (R120), with nothing scheduled inside it. -/

theorem initHardware_succeeds {m r : Byte} {v : Word} {s : State} (hm : m.toNat < s.cfg.nModules)
    (hc : s.ctl.clkStable = true) (h0 : s.cfg.clkWaitMax ≠ some 0) (ht : timingOf s.cfg r = some v) (hs : s.sched = []) :
    initHardware m r false s =
      .next (((s.setModSel m).setCtl ((s.setModSel m).ctl.operating s.cfg v false)).pushHri (.hwinit m r false true),
        .succeeded) := by
  refine initHardware_eq_next.2 ⟨rfl, hm, _, clockWait_stable hc h0, ?_⟩
  simp only [afterClock, boundary_nil (s := s.setModSel m) hs, andThen_next, finishInit_eq, State.setModSel_cfg, ht]

theorem initHardware_failsClosed {m r : Byte} {s : State} (hm : m.toNat < s.cfg.nModules) (hc : s.ctl.clkStable = true)
    (h0 : s.cfg.clkWaitMax ≠ some 0) (ht : timingOf s.cfg r = none) (hs : s.sched = []) :
    initHardware m r false s =
      .next ((s.setCtl (failedInit s.cfg m s.ctl)).pushHri (.hwinit m r false false), .failed) := by
  refine initHardware_eq_next.2 ⟨rfl, hm, _, clockWait_stable hc h0, ?_⟩
  simp only [afterClock, boundary_nil (s := s.setModSel m) hs, andThen_next, finishInit_eq, State.setModSel_cfg, ht]
  rfl

theorem initHardware_timesOut {m r : Byte} {n : Nat} {s : State} (hm : m.toNat < s.cfg.nModules)
    (hn : s.cfg.clkWaitMax = some n) (h : n = 0 ∨ (s.ctl.clkStable = false ∧ s.sched = [])) :
    initHardware m r false s = .next ((s.setModSel m).pushHri (.hwinit m r false false), .failed) :=
  initHardware_eq_next.2 ⟨rfl, hm, _, clockWait_timesOut (s := s.setModSel m) hn h, rfl⟩

theorem initHardware_sticks {m r : Byte} {s : State} (hm : m.toNat < s.cfg.nModules) (hn : s.cfg.clkWaitMax = none)
    (hc : s.ctl.clkStable = false) :
    initHardware m r false s = .next ((s.setModSel m).setDrvWait (some (.hwinit m r false)), .waiting) :=
  initHardware_eq_next.2 ⟨rfl, hm, _, clockWait_sticks (s := s.setModSel m) hn hc, rfl⟩

/-- A DRV that goes on after its wait, with only environment steps at the boundary `u` of its HWINIT. -/
theorem resumeHardware_eq {m r : Byte} {fd : Bool} {s u : State}
    (hu : boundary .insideOperation (s.setDrvWait none) = .next u) :
    resumeHardware m r fd s = finishInit m r fd u := by
  simp only [resumeHardware, afterClock, hu, andThen_next]

end Sys2Proof.Machine
end

