-- ==== Sys2Proof/Laws/PerInstr.lean ====
section
/-! SUPPORT. Laws of every instruction as syntax: the shape of its request words (30_encoding.md R89, R90). -/

namespace Sys2Proof.Laws

/-- The selector of a first word is the one it was built with. -/
@[simp] theorem opOf_firstWord (operands : BitVec 24) (op : Byte) : opOf (firstWord operands op) = op := by
  show (operands ++ op : BitVec (24 + 8)).extractLsb' 0 8 = op
  ext k hk
  simp only [BitVec.getElem_extractLsb', Nat.zero_add, BitVec.getLsbD_append, hk, ite_true, BitVec.getLsbD_eq_getElem]

end Sys2Proof.Laws

namespace Sys2Proof.Laws.RequestShape

/-- A request has the length its selector fixes, and its first word carries that selector. -/
def Statement (i : Instr) : Prop :=
  (encode i).length = requestLength i.selector ∧ (encode i).head?.map opOf = some i.selector

theorem enqtx (f : CanFrame) : Statement (.enqtx f) := ⟨rfl, by simp [encode, Instr.selector]⟩
theorem deqrx : Statement (.deqrx) := ⟨rfl, by simp [encode, Instr.selector]⟩
theorem tick : Statement (.tick) := ⟨rfl, by simp [encode, Instr.selector]⟩
theorem reqshut : Statement (.reqshut) := ⟨rfl, by simp [encode, Instr.selector]⟩
theorem draintx : Statement (.draintx) := ⟨rfl, by simp [encode, Instr.selector]⟩
theorem fillrx : Statement (.fillrx) := ⟨rfl, by simp [encode, Instr.selector]⟩
theorem bufinit : Statement (.bufinit) := ⟨rfl, by simp [encode, Instr.selector]⟩
theorem drvinit : Statement (.drvinit) := ⟨rfl, by simp [encode, Instr.selector]⟩
theorem hwinit (m r : Byte) (fd : Bool) : Statement (.hwinit m r fd) := ⟨rfl, by simp [encode, Instr.selector]⟩
theorem setbaud (r : Byte) : Statement (.setbaud r) := ⟨rfl, by simp [encode, Instr.selector]⟩
theorem cfgflt : Statement (.cfgflt) := ⟨rfl, by simp [encode, Instr.selector]⟩
theorem tx1 (f : CanFrame) : Statement (.tx1 f) := ⟨rfl, by simp [encode, Instr.selector]⟩
theorem rx1 : Statement (.rx1) := ⟨rfl, by simp [encode, Instr.selector]⟩
theorem geterr : Statement (.geterr) := ⟨rfl, by simp [encode, Instr.selector]⟩
theorem deinit : Statement (.deinit) := ⟨rfl, by simp [encode, Instr.selector]⟩
theorem evClk (b : Bool) : Statement (.evClk b) := ⟨rfl, by simp [encode, Instr.selector]⟩
theorem evTxdone : Statement (.evTxdone) := ⟨rfl, by simp [encode, Instr.selector]⟩
theorem evRxframe (f : CanFrame) : Statement (.evRxframe f) := ⟨rfl, by simp [encode, Instr.selector]⟩
theorem evErrcnt (t r : Byte) : Statement (.evErrcnt t r) := ⟨rfl, by simp [encode, Instr.selector]⟩
theorem evBusoff : Statement (.evBusoff) := ⟨rfl, by simp [encode, Instr.selector]⟩
theorem evThl : Statement (.evThl) := ⟨rfl, by simp [encode, Instr.selector]⟩
theorem evDlcerr : Statement (.evDlcerr) := ⟨rfl, by simp [encode, Instr.selector]⟩
theorem isr : Statement (.isr) := ⟨rfl, by simp [encode, Instr.selector]⟩

end Sys2Proof.Laws.RequestShape
end

