-- ==== Sys2Proof/Machine/Text.lean ====
section
/-! DEFINITION. The text form of a request and its pseudo-operations (30_encoding.md R97, R98; log 20). "no rule of
semantics depends on them" (R80): nothing else of the model uses this file. -/

namespace Sys2Proof.Machine

/-- The pseudo-operations of the text form (R98). -/
inductive Pseudo where
  | drain (n : Nat)
  | fill (n : Nat)
  | ticks (n : Nat)
  | enq (id : Word)
deriving DecidableEq, Repr

/-- What a line of text holds: nothing but a comment, a request, or a pseudo-operation. -/
inductive Line where
  | blank
  | request (i : Instr)
  | pseudo (p : Pseudo)
deriving DecidableEq, Repr

/-- The pieces of `cs` between the characters `sep`. -/
def pieces (sep : Char) (cs : List Char) : List (List Char) :=
  match cs with
  | [] => [[]]
  | c :: rest =>
    match pieces sep rest with
    | [] => [[c]]
    | p :: ps => if c = sep then [] :: p :: ps else (c :: p) :: ps

/-- The value of a digit below 16. -/
def digitValue (c : Char) : Option Nat :=
  if '0' ≤ c ∧ c ≤ '9' then some (c.toNat - '0'.toNat)
  else if 'a' ≤ c ∧ c ≤ 'f' then some (c.toNat - 'a'.toNat + 10)
  else if 'A' ≤ c ∧ c ≤ 'F' then some (c.toNat - 'A'.toNat + 10)
  else none

/-- The number that the digits `cs` continue from `acc`, in base `base`. -/
def readDigits (base acc : Nat) (cs : List Char) : Option Nat :=
  match cs with
  | [] => some acc
  | c :: rest =>
    match digitValue c with
    | none => none
    | some d => if d < base then readDigits base (acc * base + d) rest else none

/-- "numbers are decimal or `0x` hexadecimal" (R97). -/
def readNat (cs : List Char) : Option Nat :=
  match cs with
  | [] => none
  | '0' :: 'x' :: c :: rest => readDigits 16 0 (c :: rest)
  | c :: rest => readDigits 10 0 (c :: rest)

/-- A number below `2 ^ w`. -/
def readBits (w : Nat) (cs : List Char) : Option (BitVec w) :=
  match readNat cs with
  | none => none
  | some n => if n < 2 ^ w then some (BitVec.ofNat w n) else none

/-- A bit, `0` or `1`. -/
def readBit (cs : List Char) : Option Bool :=
  match readBits 1 cs with
  | none => none
  | some b => some (decide (b = 1#1))

/-- The value of a `name=value` operand of this name. -/
def operand (name : String) (token : List Char) : Option (List Char) :=
  if (name.toList ++ ['=']).isPrefixOf token then some (token.drop (name.toList.length + 1)) else none

/-- "`data=` takes exactly eight comma-separated bytes" (R97). -/
def readData (cs : List Char) : Option Payload :=
  match (pieces ',' cs).map (readBits 8) with
  | [some b0, some b1, some b2, some b3, some b4, some b5, some b6, some b7] => some ⟨b0, b1, b2, b3, b4, b5, b6, b7⟩
  | _ => none

/-- The number of a name of RATES, counted on from `k` (R87). -/
def rateNumber (k : Nat) (names : List String) (cs : List Char) : Option Nat :=
  match names with
  | [] => none
  | n :: rest => if n.toList = cs then some k else rateNumber (k + 1) rest cs

/-- `rate=<name or number>` (R97). -/
def readRate (c : Config) (cs : List Char) : Option Byte :=
  match rateNumber 0 c.rates cs with
  | some k => some (BitVec.ofNat 8 k)
  | none => readBits 8 cs

/-- `f` of the value of an operand, where the token is that operand and its value is read. -/
def withOperand {α β : Type} (name : String) (read : List Char → Option α) (token : List Char) (f : α → Option β) : Option β :=
  match operand name token with
  | none => none
  | some v =>
    match read v with
    | none => none
    | some a => f a

/-- The operands `id=<u32> dlc=<u8> data=<b0>,...,<b7>`. -/
def readFrame (tokens : List (List Char)) (k : CanFrame → Instr) : Option Line :=
  match tokens with
  | [t1, t2, t3] =>
    withOperand "id" (readBits 32) t1 fun id =>
      withOperand "dlc" (readBits 8) t2 fun dlc =>
        withOperand "data" readData t3 fun data => some (.request (k ⟨id, dlc, data⟩))
  | _ => none

/-- A mnemonic without operands. -/
def readPlain (tokens : List (List Char)) (i : Instr) : Option Line :=
  match tokens with
  | [] => some (.request i)
  | _ => none

/-- A pseudo-operation with a count (R98). -/
def readCount (tokens : List (List Char)) (k : Nat → Pseudo) : Option Line :=
  match tokens with
  | [t] => (readNat t).map (fun n => .pseudo (k n))
  | _ => none

/-- The forms of R97 and R98. -/
def readTokens (c : Config) (tokens : List (List Char)) : Option Line :=
  match tokens with
  | [] => some .blank
  | m :: rest =>
    match String.ofList m with
    | "ENQTX" => readFrame rest .enqtx
    | "DEQRX" => readPlain rest .deqrx
    | "TICK" => readPlain rest .tick
    | "REQSHUT" => readPlain rest .reqshut
    | "DRAINTX" => readPlain rest .draintx
    | "FILLRX" => readPlain rest .fillrx
    | "BUFINIT" => readPlain rest .bufinit
    | "DRVINIT" => readPlain rest .drvinit
    | "HWINIT" =>
      match rest with
      | [t1, t2, t3] =>
        withOperand "module" (readBits 8) t1 fun modSel =>
          withOperand "rate" (readRate c) t2 fun rate =>
            withOperand "fd" readBit t3 fun fd => some (.request (.hwinit modSel rate fd))
      | _ => none
    | "SETBAUD" =>
      match rest with
      | [t] => withOperand "rate" (readRate c) t fun rate => some (.request (.setbaud rate))
      | _ => none
    | "CFGFLT" => readPlain rest .cfgflt
    | "TX1" => readFrame rest .tx1
    | "RX1" => readPlain rest .rx1
    | "GETERR" => readPlain rest .geterr
    | "DEINIT" => readPlain rest .deinit
    | "EV_CLK" =>
      match rest with
      | [t] => withOperand "stable" readBit t fun b => some (.request (.evClk b))
      | _ => none
    | "EV_TXDONE" => readPlain rest .evTxdone
    | "EV_RXFRAME" => readFrame rest .evRxframe
    | "EV_ERRCNT" =>
      match rest with
      | [t1, t2] =>
        withOperand "tec" (readBits 8) t1 fun tec =>
          withOperand "rec" (readBits 8) t2 fun recCnt => some (.request (.evErrcnt tec recCnt))
      | _ => none
    | "EV_BUSOFF" => readPlain rest .evBusoff
    | "EV_THL" => readPlain rest .evThl
    | "EV_DLCERR" => readPlain rest .evDlcerr
    | "ISR" => readPlain rest .isr
    | "DRAIN" => readCount rest .drain
    | "FILL" => readCount rest .fill
    | "TICKS" => readCount rest .ticks
    | "ENQ" =>
      match rest with
      | [t] => (readBits 32 t).map (fun id => .pseudo (.enq id))
      | _ => none
    | _ => none

/-- The line of text `cs`: "`#` starts a comment", "a result may be written after `->`" (R97). Nothing where it has none of
the forms. -/
def readLine (c : Config) (cs : List Char) : Option Line :=
  readTokens c ((((pieces ' ' (cs.takeWhile (fun x => x ≠ '#'))).filter (fun t => t ≠ [])).takeWhile (fun t => t ≠ ['-', '>'])))

/-- A number in the text form. -/
def showNat (n : Nat) : String := String.ofList (Nat.toDigits 10 n)

/-- The operands of a frame in the text form (R97). -/
def showFrame (f : CanFrame) : String :=
  "id=" ++ showNat f.id.toNat ++ " dlc=" ++ showNat f.dlc.toNat ++ " data=" ++
    String.intercalate "," (f.data.bytes.map (fun b => showNat b.toNat))

/-- A bit in the text form. -/
def showBit (b : Bool) : String := if b then "1" else "0"

/-- The text form of a request (R97), numbers in decimal. -/
def showRequest (i : Instr) : String :=
  match i with
  | .enqtx f => "ENQTX " ++ showFrame f
  | .deqrx => "DEQRX"
  | .tick => "TICK"
  | .reqshut => "REQSHUT"
  | .draintx => "DRAINTX"
  | .fillrx => "FILLRX"
  | .bufinit => "BUFINIT"
  | .drvinit => "DRVINIT"
  | .hwinit modSel rate fd =>
    "HWINIT module=" ++ showNat modSel.toNat ++ " rate=" ++ showNat rate.toNat ++ " fd=" ++ showBit fd
  | .setbaud rate => "SETBAUD rate=" ++ showNat rate.toNat
  | .cfgflt => "CFGFLT"
  | .tx1 f => "TX1 " ++ showFrame f
  | .rx1 => "RX1"
  | .geterr => "GETERR"
  | .deinit => "DEINIT"
  | .evClk b => "EV_CLK stable=" ++ showBit b
  | .evTxdone => "EV_TXDONE"
  | .evRxframe g => "EV_RXFRAME " ++ showFrame g
  | .evErrcnt tec recCnt => "EV_ERRCNT tec=" ++ showNat tec.toNat ++ " rec=" ++ showNat recCnt.toNat
  | .evBusoff => "EV_BUSOFF"
  | .evThl => "EV_THL"
  | .evDlcerr => "EV_DLCERR"
  | .isr => "ISR"

/-- The same request `n` times. -/
def repeatRequest (i : Instr) (n : Nat) (s : State) : Res State :=
  match n with
  | 0 => .next s
  | m + 1 => andThen (exec i s) (repeatRequest i m)

/-- `FILL n`: "repeated until n calls were made or one returned other than Success" (R98). -/
def fillRequests (n : Nat) (s : State) : Res State :=
  match n with
  | 0 => .next s
  | m + 1 =>
    drvRequest s (andThen (fillReceive s) fun r =>
      if r.2 = .success then fillRequests m (answer .fillrx [r.2.code] r.1)
      else .next (answer .fillrx [r.2.code] r.1))

/-- A pseudo-operation's expansion, run (R98). -/
def runPseudo (p : Pseudo) (s : State) : Res State :=
  match p with
  | .drain n => repeatRequest .draintx n s
  | .fill n => fillRequests n s
  | .ticks n => repeatRequest .tick n s
  | .enq id => exec (.enqtx ⟨id, 8#8, zeroFrame.data⟩) s

end Sys2Proof.Machine
end

