-- ==== Sys2Proof/Tests/Slice0.lean ====
section
/-! SUPPORT. Tests of the model against the vectors of 95_test_vectors.md (their numbers stand in the comments), under its
example configuration EXCFG. Each is one step, or one operation, on a small state. -/

namespace Sys2Proof.Machine.Tests

/-! Helpers. -/

/-- A view of the next state, or nothing where the step ends otherwise. -/
def after {α : Type} (r : Host.Outcome State Fault Refusal) (view : State → α) : Option α :=
  match r with
  | .next t => some (view t)
  | .fault _ => none
  | .refused _ => none

/-- The refusal of a step, if it is one. -/
def refusal (r : Host.Outcome State Fault Refusal) : Option Refusal :=
  match r with
  | .next _ => none
  | .fault _ => none
  | .refused e => some e

/-- A frame from its identifier, DLC and bytes. -/
def frame (id : Nat) (dlc b0 b1 b2 b3 b4 b5 b6 b7 : Nat) : CanFrame :=
  ⟨.ofNat 32 id, .ofNat 8 dlc, ⟨.ofNat 8 b0, .ofNat 8 b1, .ofNat 8 b2, .ofNat 8 b3, .ofNat 8 b4, .ofNat 8 b5, .ofNat 8 b6, .ofNat 8 b7⟩⟩

def frameA : CanFrame := frame 0x100 8 0x11 0x22 0x33 0x44 0x55 0x66 0x77 0x88
def frameB : CanFrame := frame 0x200 8 0xA0 0xA1 0xA2 0xA3 0xA4 0xA5 0xA6 0xA7
def frameG : CanFrame := frame 0x123 2 0xAA 0xBB 0 0 0 0 0 0

/-- S_RESET of 95_test_vectors.md section 0. -/
def sReset : State := State.resetWith Config.excfg ResetDraws.zero

/-- S_RESET with CTL.CLKSTABLE = 1. -/
def sStable : State := sReset.setClkStable true

/-- S_ACTIVE: the state after one TICK from S_RESET with the clock stable. -/
def sActive : State :=
  match exec .tick sStable with
  | .next t => t
  | .fault _ => sReset
  | .refused _ => sReset

/-- S_RESET with `CLK_WAIT_MAX = inf`. -/
def sUnbounded : State := { sReset with cfg := { Config.excfg with clkWaitMax := none } }

/-- `s` with TXF's indices `wr` and `rd`. -/
def withTxf (s : State) (wr rd : Nat) (slots : SlotMem) : State := s.setTxf ⟨slots, wr, rd⟩

/-- `s` with RXR's indices `wr` and `rd`. -/
def withRxr (s : State) (wr rd : Nat) (slots : SlotMem) : State := s.setRxr ⟨slots, wr, rd⟩

/-! Encodings (vectors E1 to E23). Words written out from 30_encoding.md R89 and R90. -/

/-- E1 -/
theorem test_pack : pack 0x11#8 0x22#8 0x33#8 0x44#8 = 0x44332211#32 := by decide
/-- E3 -/
theorem test_unpack : unpack 0x0403BBAA#32 = (0xAA#8, 0xBB#8, 0x03#8, 0x04#8) := by decide
/-- E5 -/
theorem test_image : (frame 0x7FF 3 1 2 3 4 5 6 7 8).image = [0x7FF#32, 3#32, 0x04030201#32, 0x08070605#32] := by decide
/-- E6 -/
theorem test_decode_enqtx :
    decode [0x00000001#32, 0x00000100#32, 0x00000008#32, 0x44332211#32, 0x88776655#32] = .ok (.enqtx frameA) [] := by decide
theorem test_decode_deqrx : decode [0x00000002#32] = .ok .deqrx [] := by decide
theorem test_decode_tick : decode [0x00000010#32] = .ok .tick [] := by decide
theorem test_decode_reqshut : decode [0x00000011#32] = .ok .reqshut [] := by decide
theorem test_decode_draintx : decode [0x00000020#32] = .ok .draintx [] := by decide
theorem test_decode_fillrx : decode [0x00000021#32] = .ok .fillrx [] := by decide
theorem test_decode_bufinit : decode [0x00000022#32] = .ok .bufinit [] := by decide
theorem test_decode_drvinit : decode [0x00000023#32] = .ok .drvinit [] := by decide
/-- E10 -/
theorem test_decode_hwinit_module : decode [0x00010230#32] = .ok (.hwinit 1#8 2#8 false) [] := by decide
/-- E10 -/
theorem test_decode_hwinit_fd : decode [0x01000230#32] = .ok (.hwinit 0#8 2#8 true) [] := by decide
/-- E11 -/
theorem test_decode_setbaud : decode [0x0000C831#32] = .ok (.setbaud 200#8) [] := by decide
theorem test_decode_cfgflt : decode [0x00000032#32] = .ok .cfgflt [] := by decide
/-- E13 -/
theorem test_decode_tx1 :
    decode [0x00000033#32, 0x00000200#32, 0x00000008#32, 0xA3A2A1A0#32, 0xA7A6A5A4#32] = .ok (.tx1 frameB) [] := by decide
theorem test_decode_rx1 : decode [0x00000034#32] = .ok .rx1 [] := by decide
theorem test_decode_geterr : decode [0x00000035#32] = .ok .geterr [] := by decide
theorem test_decode_deinit : decode [0x00000036#32] = .ok .deinit [] := by decide
/-- E14 -/
theorem test_decode_evClk : decode [0x00000180#32] = .ok (.evClk true) [] := by decide
theorem test_decode_evTxdone : decode [0x00000081#32] = .ok .evTxdone [] := by decide
/-- E16 -/
theorem test_decode_evRxframe :
    decode [0x00000082#32, 0x000002A5#32, 0x00000008#32, 0x04030201#32, 0x08070605#32]
      = .ok (.evRxframe (frame 0x2A5 8 1 2 3 4 5 6 7 8)) [] := by decide
/-- E17 -/
theorem test_decode_evErrcnt : decode [0x007FFF83#32] = .ok (.evErrcnt 255#8 127#8) [] := by decide
theorem test_decode_evBusoff : decode [0x00000084#32] = .ok .evBusoff [] := by decide
theorem test_decode_evThl : decode [0x00000085#32] = .ok .evThl [] := by decide
theorem test_decode_evDlcerr : decode [0x00000086#32] = .ok .evDlcerr [] := by decide
theorem test_decode_isr : decode [0x00000090#32] = .ok .isr [] := by decide
/-- E20: reserved selectors. -/
theorem test_decode_reserved :
    [0x00#32, 0x03#32, 0x7F#32, 0x91#32, 0xFF#32].map (fun w => decode [w])
      = List.replicate 5 (.bad .reservedSelector) := by decide
/-- E21: a bit that must be 0 is 1. -/
theorem test_decode_reserved_bits :
    [0x00000110#32, 0x00010020#32, 0x02000230#32, 0x00000280#32, 0x01008883#32, 0x00010131#32].map (fun w => decode [w])
      = List.replicate 6 (.bad .reservedBitSet) := by decide
/-- E22: W1 has bit 8 set; and a frame operand cut short (log 6). -/
theorem test_decode_bad_frames :
    decode [1#32, 0x100#32, 0x108#32, 0#32, 0#32] = .bad .dlcWordHighBits
      ∧ decode [1#32, 0x100#32, 8#32, 0#32] = .bad .truncated := by decide
/-- E9, E11, E13, E17 the other way. -/
theorem test_encode :
    encode (.hwinit 0#8 2#8 false) = [0x00000230#32] ∧ encode (.hwinit 1#8 2#8 true) = [0x01010230#32]
      ∧ encode (.setbaud 1#8) = [0x00000131#32] ∧ encode (.evErrcnt 255#8 127#8) = [0x007FFF83#32]
      ∧ encode (.evClk false) = [0x00000080#32]
      ∧ encode (.tx1 frameB) = [0x33#32, 0x200#32, 8#32, 0xA3A2A1A0#32, 0xA7A6A5A4#32] := by decide
/-- An opcode-table row read through the host's interface: operand words of zeros. -/
theorem test_decodeTableWord :
    decodeTableWord 32 0x00000082 = some (.evRxframe zeroFrame) ∧ decodeTableWord 32 0x00010230 = some (.hwinit 1#8 2#8 false)
      ∧ decodeTableWord 160 (0x100 * 2 ^ 32 + 1) = some (.enqtx { zeroFrame with id := 0x100#32 })
      ∧ decodeTableWord 32 0x00000110 = none := by decide
/-- E18, E19: GETERR's word. -/
theorem test_err_word :
    (ErrRecord.mk true 255#8 0#8).word = 0x0000FF01#32 ∧ (ErrRecord.mk false 96#8 130#8).word = 0x00826000#32 := by decide

/-! The smoke test of WellFormed: one ill-formed CONFIG or instruction per check. -/

theorem test_wf_excfg : Config.excfg.wellFormed = true := by decide
theorem test_wf_atReset : Config.atReset.wellFormed = true := by decide
theorem test_wf_cTx : Config.cTxOk { Config.excfg with cTx := 1 } = false := by decide
theorem test_wf_cRx : Config.cRxOk { Config.excfg with cRx := 1 } = false := by decide
theorem test_wf_rxBurst : Config.rxBurstOk { Config.excfg with rxBurst := 0 } = false := by decide
theorem test_wf_nModules : Config.nModulesOk { Config.excfg with nModules := 0 } = false := by decide
theorem test_wf_hwrxDepth : Config.hwrxDepthOk { Config.excfg with hwrxDepth := 0 } = false := by decide
theorem test_wf_rates : Config.ratesOk { Config.excfg with rates := ["R125K", "R125K"] } = false := by decide
theorem test_wf_supported : Config.supportedOk { Config.excfg with nbtOf := [(4#8, 1#32)] } = false := by decide
theorem test_wf_initArgs : Config.initArgsOk { Config.excfg with cfgModule := 1#8 } = false
    ∧ Config.initArgsOk { Config.excfg with cfgRate := 4#8 } = false
    ∧ Config.initArgsOk { Config.excfg with cfgFd := true } = false := by decide
theorem test_wf_hwinit_module : Instr.wellFormed Config.excfg (.hwinit 1#8 2#8 false) = false := by decide
theorem test_wf_hwinit_fd : Instr.wellFormed Config.excfg (.hwinit 0#8 2#8 true) = false := by decide

/-! Buffer operations (vectors B1 to B18). -/

/-- B2, B3: bytes 2 to 7 of the slot are the stale ones; the DLC is clamped. -/
theorem test_enqtx_cell :
    after (exec (.enqtx (frame 0x7FF 2 0xAA 0xBB 0xCC 0xDD 0xEE 0xFF 1 2)) (withTxf sReset 0 0 [(0, frameA)]))
        (fun t => (t.cell .transmit 0, t.txf.wr, t.respLog))
        = some (frame 0x7FF 2 0xAA 0xBB 0x33 0x44 0x55 0x66 0x77 0x88, 1, [⟨1#8, [0#32]⟩])
      ∧ after (exec (.enqtx (frame 0x123 255 1 2 3 4 5 6 7 8)) sReset) (fun t => t.cell .transmit 0)
        = some (frame 0x123 8 1 2 3 4 5 6 7 8) := by decide
/-- B5, B6: Full; the wrap. -/
theorem test_enqtx_full_wrap :
    after (exec (.enqtx frameB) (withTxf sReset 3 0 [])) (fun t => (t.txf, t.respLog)) = some (⟨[], 3, 0⟩, [⟨1#8, [1#32]⟩])
      ∧ after (exec (.enqtx frameB) (withTxf sReset 3 1 [])) (fun t => t.txf) = some ⟨[(3, frameB)], 0, 1⟩ := by decide
/-- B8 -/
theorem test_draintx_success :
    after (exec .draintx (withTxf sReset 1 0 [(0, frameA)])) (fun t => (t.ctl.txmb, t.ctl.txReq, t.txf.rd, t.hriLog))
      = some (⟨0x100#32, 8#8, 0x44332211#32, 0x88776655#32⟩, true, 1, [.tx1 frameA true]) := by decide
/-- B9 -/
theorem test_draintx_rejected :
    after (exec .draintx ((withTxf sReset 2 1 [(1, frameB)]).setTxReq true)) (fun t => (t.txf.rd, t.hriLog, t.respLog))
      = some (1, [.tx1 frameB false], [⟨0x20#8, [3#32]⟩]) := by decide
/-- B11: all eight bytes are written. -/
theorem test_fillrx_success :
    after (exec .fillrx (((withRxr sReset 0 0 [(0, frameA)]).setHwrx [frameG, frameB]).setRxip true))
        (fun t => (t.rxr, t.ctl.hwrx, t.ctl.rxip, t.hriLog))
      = some (⟨[(0, frameG)], 1, 0⟩, [frameB], false, [.rx1 (some frameG)]) := by decide
/-- B12: a full ring leaves the frame and CTL.RXIP. -/
theorem test_fillrx_full :
    after (exec .fillrx (((withRxr sReset 3 0 []).setHwrx [frameG]).setRxip true)) (fun t => (t.rxr, t.ctl.hwrx, t.ctl.rxip, t.hriLog))
      = some (⟨[], 3, 0⟩, [frameG], true, []) := by decide
/-- B15: the caller's bytes 2 to 7 stay. -/
theorem test_deqrx_success :
    after (exec .deqrx ((withRxr sReset 1 0 [(0, frameG)]).setAppOut (frame 0xDEADBEEF 7 1 2 3 4 5 6 7 8)))
        (fun t => (t.appOut, t.rxr.rd, t.respLog))
      = some (frame 0x123 2 0xAA 0xBB 3 4 5 6 7 8, 1, [⟨2#8, [0#32, 0x123#32, 2#32, 0x0403BBAA#32, 0x08070605#32]⟩]) := by decide
/-- B14 -/
theorem test_deqrx_empty :
    after (exec .deqrx ((withRxr sReset 2 2 []).setAppOut frameB)) (fun t => (t.appOut, t.rxr, t.respLog))
      = some (frameB, ⟨[], 2, 2⟩, [⟨2#8, [2#32]⟩]) := by decide
/-- B17 -/
theorem test_bufinit :
    after (exec .bufinit (withRxr (withTxf sReset 3 1 [(1, frameA)]) 2 0 [(0, frameB)])) (fun t => (t.txf, t.rxr))
      = some (⟨[(1, frameA)], 0, 0⟩, ⟨[(0, frameB)], 0, 0⟩) := by decide

/-! HRI operations (vectors H1 to H20). -/

/-- H1; H4: fail closed. -/
theorem test_hwinit_result :
    after (exec (.hwinit 0#8 2#8 false) sStable) (fun t => (t.ctl.mode, t.ctl.nbt, t.ctl.flt, t.ctl.fltN, t.ctl.fltWe))
        = some (.normal, 0x500#32, [⟨0x100#32, 0x7FF#32, .rxFifo0⟩, ⟨0x200#32, 0x700#32, .rxFifo0⟩], 2, false)
      ∧ after (exec (.hwinit 0#8 3#8 false) sStable) (fun t => (t.ctl.mode, t.ctl.nbt, t.ctl.fltN, t.ctl.fltWe, t.ctl.ie))
        = some (.configuration, 0#32, 0, true, ⟨false, false, false⟩) := by decide
/-- H2: the clock is never stable; H3: it becomes stable before the third poll; H5: refused arguments; R122 and R162 at
CLK_WAIT_MAX = 0: no read is made, though the clock is stable. -/
theorem test_hwinit_clock :
    after (exec (.hwinit 0#8 2#8 false) sReset) (fun t => (t.ctl.mode, t.hriLog)) = some (.reset, [.hwinit 0#8 2#8 false false])
      ∧ after (exec (.hwinit 0#8 2#8 false) (sReset.setSched [[], [.evClk true]])) (fun t => (t.ctl.mode, t.sched)) = some (.normal, [])
      ∧ refusal (exec (.hwinit 0#8 2#8 true) sStable) = some .canFdRequested
      ∧ refusal (exec (.hwinit 1#8 2#8 false) sStable) = some .noSuchModule
      ∧ after (exec (.hwinit 0#8 2#8 false) { sStable with cfg := { Config.excfg with clkWaitMax := some 0 } })
          (fun t => (t.ctl.mode, t.hriLog)) = some (.reset, [.hwinit 0#8 2#8 false false]) := by decide
/-- H7, H8 -/
theorem test_setbaud :
    after (exec (.setbaud 1#8) (sReset.setMode .configuration)) (fun t => (t.ctl.nbt, t.respLog)) = some (0x250#32, [⟨0x31#8, [1#32]⟩])
      ∧ after (exec (.setbaud 200#8) ((sReset.setMode .configuration).setNbt 7#32)) (fun t => (t.ctl.nbt, t.respLog))
          = some (0#32, [⟨0x31#8, [0#32]⟩]) := by decide
/-- H9, H10 -/
theorem test_refused_out_of_place :
    refusal (exec (.setbaud 1#8) sActive) = some .setbaudOutsideConfiguration
      ∧ refusal (exec .cfgflt sActive) = some .cfgfltOutsideConfiguration
      ∧ refusal (exec .cfgflt (sActive.setMode .configuration)) = some .filterTableLocked := by decide
/-- H10 -/
theorem test_cfgflt :
    after (exec .cfgflt (sReset.setMode .configuration)) (fun t => (t.ctl.fltN, t.ctl.fltWe, t.hriLog)) = some (2, false, [.cfgflt true]) := by
  decide
/-- H12, H13: stale bytes reach the mailbox; a pending request rejects. -/
theorem test_tx1 :
    after (exec (.tx1 (frame 0x7FF 2 0xAA 0xBB 0x33 0x44 0x55 0x66 0x77 0x88)) sReset) (fun t => t.ctl.txmb)
        = some ⟨0x7FF#32, 2#8, 0x4433BBAA#32, 0x88776655#32⟩
      ∧ after (exec (.tx1 frameB) (sReset.setTxReq true)) (fun t => (t.ctl.txmb, t.respLog))
        = some (⟨0#32, 0#8, 0#32, 0#32⟩, [⟨0x33#8, [0#32]⟩]) := by decide
/-- H15, H18: delivery; the DLC is clamped. -/
theorem test_rx1 :
    after (exec .rx1 ((sReset.setHwrx [frame 0x200 12 0x10 0x11 0x12 0x13 0x14 0x15 0x16 0x17]).setRxip true))
        (fun t => (t.hriOut, t.ctl.hwrx, t.ctl.rxip, t.respLog))
      = some (frame 0x200 8 0x10 0x11 0x12 0x13 0x14 0x15 0x16 0x17, [], false,
          [⟨0x34#8, [1#32, 0x200#32, 8#32, 0x13121110#32, 0x17161514#32]⟩]) := by decide
/-- H17: a frame that arrives between micro-steps a and b is delivered and CTL.RXIP stays 1; APP cannot step there
(R71 (h)). -/
theorem test_rx1_interleaved :
    after (exec .rx1 (sActive.setSched [[.evRxframe (frame 0x100 0 0 0 0 0 0 0 0 0)]])) (fun t => (t.hriOut.id, t.ctl.hwrx, t.ctl.rxip))
        = some (0x100#32, [], true)
      ∧ refusal (exec .rx1 (sActive.setSched [[.enqtx frameA]])) = some .taskStepInsideOperation := by decide
/-- H19 -/
theorem test_geterr :
    after (exec .geterr ((sActive.setBo true).setCounters 255#8 0#8)) (fun t => (t.errOut, t.respLog.getLast?))
      = some (⟨true, 255#8, 0#8⟩, some ⟨0x35#8, [0x0000FF01#32]⟩) := by decide
/-- H20 -/
theorem test_deinit :
    after (exec .deinit ((sActive.setTxReq true).setHwrx [frameG])) (fun t => (t.ctl.mode, t.ctl.ie, t.ctl.txReq, t.ctl.hwrx, t.ctl.fltWe))
      = some (.reset, ⟨false, false, false⟩, false, [], true) := by decide

/-! Events and the interrupt (vectors V1 to V13, I1 to I6). -/

/-- V1, V2: the filter match. -/
theorem test_filter :
    [0x100#32, 0x101#32, 0x200#32, 0x2FF#32, 0x2A5#32, 0x300#32, 0x0FF#32, 0xA00#32, 0x80000100#32].map sActive.ctl.accepts
      = [true, false, true, true, true, false, false, true, true] := by decide
/-- V3; V7: the newcomer is lost. -/
theorem test_evRxframe :
    after (exec (.evRxframe (frame 0x100 2 0xAA 0xBB 0 0 0 0 0 0)) sActive) (fun t => (t.ctl.rxEmpty, t.ctl.rxip, t.rxwId, t.rxwDlc, t.rxwData0, t.rxwData1))
        = some (false, true, 0x100#32, 2#8, 0x0000BBAA#32, 0#32)
      ∧ after (exec (.evRxframe (frame 0x100 0 0 0 0 0 0 0 0 0)) (sActive.setHwrx [frameA, frameB, frameG])) (fun t => (t.ctl.hwrx, t.ctl.ifl, t.ctl.rxip))
        = some ([frameA, frameB, frameG], ⟨false, true, false⟩, false) := by decide
/-- V4; V6: disabled during bus-off; V5: twelve is sent as eight. -/
theorem test_evTxdone :
    after (exec .evTxdone ((sActive.loadMailbox (frame 0x7FF 2 0xAA 0xBB 0x33 0x44 0x55 0x66 0x77 0x88)))) (fun t => (t.busOut, t.ctl.txReq))
        = some ([⟨0x7FF#32, 2#8, [0xAA#8, 0xBB#8]⟩], false)
      ∧ after (exec .evTxdone ((sActive.loadMailbox frameA).setBo true)) (fun t => (t.busOut, t.ctl.txReq)) = some ([], true)
      ∧ after (exec .evTxdone (sActive.loadMailbox { frameA with dlc := 12#8 })) (fun t => t.busOut.map (fun f => (f.dlc, f.data.length)))
        = some [(8#8, 8)] := by decide
/-- V9 -/
theorem test_evErrcnt :
    after (exec (.evErrcnt 136#8 0#8) sActive) (fun t => (t.ctl.tec, t.ctl.recCnt, t.ctl.bo)) = some (136#8, 0#8, false)
      ∧ after (exec (.evErrcnt 136#8 0#8) sReset) (fun t => t.ctl.tec) = some 0#8 := by decide
/-- V10 -/
theorem test_evBusoff :
    after (exec .evBusoff (sActive.setTxReq true)) (fun t => (t.ctl.bo, t.ctl.txReq, t.ctl.txDoneEnabled)) = some (true, true, false) := by
  decide
/-- V12 -/
theorem test_evThl_evDlcerr :
    after (exec .evThl sActive) (fun t => (t.ctl.ifl, t.ctl.irqLine)) = some (⟨true, false, false⟩, true)
      ∧ after (exec .evDlcerr sActive) (fun t => (t.ctl.ifl, t.ctl.irqLine)) = some (⟨false, false, true⟩, true) := by decide
/-- V13 -/
theorem test_evClk : after (exec (.evClk false) sActive) (fun t => (t.ctl.clkStable, t.ctl.mode)) = some (false, .normal) := by decide
/-- I2, I4 -/
theorem test_isr :
    after (exec .isr (sActive.setIfl ⟨true, true, true⟩)) (fun t => (t.errLog, t.ctl.ifl)) = some (⟨true, true, true⟩, ⟨false, false, false⟩)
      ∧ after (exec .isr ((sActive.setIfl ⟨false, true, false⟩).setIe ⟨true, false, true⟩)) (fun t => (t.errLog, t.ctl.ifl))
        = some (⟨false, false, false⟩, ⟨false, true, false⟩) := by decide

/-! The state machine (vectors S1 to S14). -/

/-- S1: S_ACTIVE is as section 0 says. S2: a failing Init cycle empties the buffers. S7, S8: bus-off, then recovery with
the buffers kept. S9: recovery times out. S10: BUSERR_POLICY = Never. S11, S12: shutdown. -/
theorem test_tick_states :
    (sActive.ds, sActive.ctl.nbt, sActive.ctl.fltN, sActive.hriLog) = (.activeOperation, 0x500#32, 2, [.hwinit 0#8 2#8 false true])
      ∧ after (exec .tick (withTxf sReset 1 0 [(0, frameA)])) (fun t => (t.ds, t.txf.wr, t.hriLog))
        = some (.init, 0, [.hwinit 0#8 2#8 false false])
      ∧ after (exec .tick (sActive.setBo true)) (fun t => (t.ds, t.ctl.bo)) = some (.errorHandling, true)
      ∧ after (exec .tick (((withTxf sActive 2 1 [(1, frameB)]).setBo true).setDs .errorHandling)) (fun t => (t.ds, t.ctl.bo, t.txf))
        = some (.activeOperation, false, ⟨[(1, frameB)], 2, 1⟩)
      ∧ after (exec .tick (((sActive.setBo true).setDs .errorHandling).setClkStable false)) (fun t => (t.ds, t.ctl.bo, t.hriLog.drop 1))
        = some (.errorHandling, true, [.hwinit 0#8 2#8 false false])
      ∧ after (exec .tick { (sActive.setBo true) with cfg := { Config.excfg with busErrPolicy := .never } }) (fun t => (t.ds, t.hriLog.drop 1))
        = some (.activeOperation, [.rx1 none])
      ∧ after (exec .tick (sActive.setShutReq true)) (fun t => (t.ds, t.ctl.mode, t.hriLog.drop 1)) = some (.shutdown, .reset, [.deinit])
      ∧ after (exec .tick (sActive.setDs .shutdown)) (fun t => (t.ds, t.hriLog)) = some (.shutdown, sActive.hriLog) := by decide
/-- S4, S6: one drain, the burst, the bus-error hook. S14: APP's ENQTX falls between the drain and the first fill. R241: no
TICK starts inside another. -/
theorem test_tick_active :
    after (exec .tick ((withTxf sActive 2 0 [(0, frameA), (1, frameB)]).setHwrx [frameG, frameB]))
        (fun t => (t.ds, t.txf.rd, t.rxr.wr, t.hriLog.drop 1))
        = some (.activeOperation, 1, 2,
          [.tx1 frameA true, .rx1 (some frameG), .rx1 (some frameB), .rx1 none, .geterr ⟨false, 0#8, 0#8⟩])
      ∧ after (exec .tick (sActive.setSched [[.enqtx frameA]])) (fun t => (t.txf.wr, t.txf.rd, t.ctl.txReq)) = some (1, 0, false)
      ∧ refusal (exec .tick (sActive.setSched [[.tick]])) = some .overlappingRequest := by decide
theorem test_reqshut : after (exec .reqshut sActive) (fun t => t.shutReq) = some true := by decide
/-- P4: a rate that is not supported. -/
theorem test_drvinit :
    after (exec .drvinit (withTxf sStable 2 1 [])) (fun t => (t.ds, t.ctl.mode, t.txf.wr, t.respLog)) = some (.init, .normal, 0, [⟨0x23#8, [1#32]⟩])
      ∧ after (exec .drvinit { sStable with cfg := { Config.excfg with cfgRate := 3#8 } }) (fun t => (t.ds, t.ctl.mode, t.ctl.nbt, t.hriLog))
        = some (.init, .configuration, 0#32, [.hwinit 0#8 3#8 false false]) := by decide

/-! The step. -/

/-- R122, R232: with `CLK_WAIT_MAX = inf` DRV is stuck while nothing sets the clock, no boundary is passed, ENQTX
goes on, DEQRX and REQSHUT do not (R71 (h)), and no second TICK starts (R241). -/
theorem test_clock_wait :
    after (exec .tick (sUnbounded.setSched [[.evThl]])) (fun t => (t.drvWait, t.ds, t.hriLog, t.sched.length))
        = some (some .tick, .init, [], 1)
      ∧ after (step ((sUnbounded.setDrvWait (some .tick)).setInbox [1#32, 0x100#32, 0#32, 0#32, 0#32])) (fun t => t.txf.wr) = some 1
      ∧ [0x02#32, 0x11#32].map (fun w => refusal (step ((sUnbounded.setDrvWait (some .tick)).setInbox [w])))
        = List.replicate 2 (some .taskStepInsideOperation)
      ∧ refusal (exec .tick (sUnbounded.setDrvWait (some .tick))) = some .overlappingRequest := by decide
/-- Once the clock is stable the TICK goes on where it was, before any request that waits; at the boundary before its read
CLK may clear the flag again (R122), and APP does not step (R71 (h)). -/
theorem test_clock_wait_ends :
    after (step (sUnbounded.setDrvWait (some .tick))) (fun t => (t.drvWait, t.ds)) = some (some .tick, .init)
      ∧ after (step (((sUnbounded.setClkStable true).setDrvWait (some .tick)).setInbox [0x11#32]))
        (fun t => (t.drvWait, t.ds, t.ctl.mode, t.inbox)) = some (none, .activeOperation, .normal, [0x11#32])
      ∧ after (step (((sUnbounded.setClkStable true).setDrvWait (some .tick)).setSched [[.evClk false]]))
          (fun t => (t.drvWait, t.ds, t.ctl.clkStable)) = some (some .tick, .init, false)
      ∧ refusal (step (((sUnbounded.setClkStable true).setDrvWait (some .tick)).setSched [[.enqtx frameA]]))
          = some .taskStepInsideOperation := by decide
/-- The first step after reset with a request placed runs it; with none the machine waits. -/
theorem test_step :
    after (step (State.reset.withFetchWord 32 0x00000011)) (fun t => (t.shutReq, t.inbox)) = some (true, [])
      ∧ after (step State.reset) (fun t => t.shutReq) = some false
      ∧ refusal (step (State.reset.withFetchWord 32 0x00000110)) = some (.invalidRequest .reservedBitSet) := by decide
theorem test_reset_sound : State.reset.Sound ∧ State.reset.Lifecycle := by decide

/-! The text form (30_encoding.md R97, R98). -/

theorem test_text_read :
    readLine Config.excfg "EV_ERRCNT tec=136 rec=0xA # comment".toList = some (.request (.evErrcnt 136#8 10#8))
      ∧ readLine Config.excfg "HWINIT module=0 rate=R500K fd=0 -> true".toList = some (.request (.hwinit 0#8 2#8 false))
      ∧ readLine Config.excfg "TICKS 3".toList = some (.pseudo (.ticks 3))
      ∧ readLine Config.excfg "TICK x=1".toList = none := by decide
theorem test_text_round :
    readLine Config.excfg (showRequest (.enqtx frameA)).toList = some (.request (.enqtx frameA)) := by decide

/-! Witnesses: for each statement of Certificates/Slice0/Obligations.lean that has hypotheses, a state and operands that
meet all of them together, one conjunct per clause where it has several, at a boundary value where its range has one.
`runs` and `moves` show a step that answers a next state, and what of it meets the further premises. -/

/-- The step answers a next state. -/
def runs (r : Host.Outcome State Fault Refusal) : Bool := (after r (fun _ => true)).isSome

/-- The step answers a next state of which `p` holds. -/
def moves (r : Host.Outcome State Fault Refusal) (p : State → Bool) : Bool := after r p == some true

/-- `s` with the request words of `i` to serve. -/
def asking (s : State) (i : Instr) : State := s.setInbox (encode i)

/-- `sUnbounded` inside a TICK, its clock stable again. -/
def sWoken : State := (sUnbounded.setDrvWait (some .tick)).setClkStable true

/-- `s` under a CFG_RATE that is a member of RATES and not supported. -/
def unsupported (s : State) : State := { s with cfg := { s.cfg with cfgRate := 3#8 } }

/-- `s` with `CLK_WAIT_MAX = 0`. -/
def noReads (s : State) : State := { s with cfg := { s.cfg with clkWaitMax := some 0 } }

/-- A scheduled environment step at the next boundary. -/
def envSched : List (List Instr) := [[.evThl, .evErrcnt 1#8 2#8]]

theorem witness_DecodedWordsAreItsEncoding : decode [0x00000010#32, 7#32] = .ok .tick [7#32] := by decide
/-- Selectors next to the table's, the lowest and highest reserved bits of each format, W1 at 256. -/
theorem witness_InvalidRequestsAreRefused :
    [0x00#32, 0x03#32, 0x24#32, 0x91#32, 0xFF#32].all (fun w =>
        w.toNat % 256 ∉ [0x01, 0x02, 0x10, 0x11, 0x20, 0x21, 0x22, 0x23, 0x30, 0x31, 0x32, 0x33, 0x34, 0x35, 0x36,
          0x80, 0x81, 0x82, 0x83, 0x84, 0x85, 0x86, 0x90]) ∧
      [0x00000101#32, 0x80000010#32, 0x00000190#32].all (fun w =>
        w.toNat % 256 ∈ [0x01, 0x02, 0x10, 0x11, 0x20, 0x21, 0x22, 0x23, 0x32, 0x33, 0x34, 0x35, 0x36,
          0x81, 0x82, 0x84, 0x85, 0x86, 0x90] ∧ w.toNat / 256 ≠ 0) ∧
      [0x02000030#32, 0x80000030#32].all (fun w => w.toNat % 256 = 0x30 ∧ w &&& 0xFE000000#32 ≠ 0#32) ∧
      [0x00010031#32, 0x80000031#32].all (fun w => w.toNat % 256 = 0x31 ∧ w &&& 0xFFFF0000#32 ≠ 0#32) ∧
      [0x00000280#32, 0x80000080#32].all (fun w => w.toNat % 256 = 0x80 ∧ w &&& 0xFFFFFE00#32 ≠ 0#32) ∧
      [0x01000083#32, 0x80000083#32].all (fun w => w.toNat % 256 = 0x83 ∧ w &&& 0xFF000000#32 ≠ 0#32) ∧
      ((0x82#32).toNat ∈ [0x01, 0x33, 0x82] ∧ 256 ≤ (256#32).toNat) ∧
      (sReset.setInbox [0x82#32, 0#32, 256#32, 0#32, 0#32]).inbox = 0x82#32 :: [0#32, 256#32, 0#32, 0#32] ∧
      readyCall sStable = none ∧ readyCall (sReset.setDrvWait (some .tick)) = none := by decide
/-- With no DRV inside a request, and with one that is stuck; and one that goes on. -/
theorem witness_StepServesTheNextRequest :
    (readyCall (asking sStable .reqshut) = none ∧ decode (asking sStable .reqshut).inbox = .ok .reqshut []) ∧
      (readyCall (sReset.setDrvWait (some .tick)) = none ∧ sReset.inbox = []) ∧
      ((sReset.setDrvWait (some .tick)).drvWait ≠ none ∧ decode (asking (sReset.setDrvWait (some .tick)) .reqshut).inbox = .ok .reqshut []) ∧
      (sWoken.ctl.clkStable = true ∧ sWoken.drvWait = some .tick ∧ EnvOnly ((sWoken.setSched envSched).sched.headD [])) ∧
      moves (boundary .insideOperation (sWoken.setSched envSched)) (fun u => u.ctl.clkStable) ∧
      moves (boundary .insideOperation (sWoken.setSched [[.evClk false]])) (fun u => !u.ctl.clkStable) := by decide
theorem witness_EnqtxStoresOrAnswersFull :
    ((withTxf sReset 3 1 []).txf.wr < sReset.cfg.cTx ∧ ((withTxf sReset 3 1 []).txf.wr + 1) % sReset.cfg.cTx ≠ 1) ∧
      ((withTxf sReset 3 0 []).txf.wr < sReset.cfg.cTx ∧ ((withTxf sReset 3 0 []).txf.wr + 1) % sReset.cfg.cTx = 0) := by decide
theorem witness_DeqrxDeliversOrAnswersEmpty :
    ((withRxr sReset 0 3 []).rxr.rd < sReset.cfg.cRx ∧ (withRxr sReset 0 3 []).rxr.rd ≠ (withRxr sReset 0 3 []).rxr.wr) ∧
      sReset.rxr.rd = sReset.rxr.wr := by decide
theorem witness_ReqshutSetsTheLatch : sActive.drvWait = none ∧ sActive.ds ≠ .shutdown := by decide
/-- Empty; not empty with the mailbox free, and with a request pending, the read-pointer at the last slot. -/
theorem witness_DraintxSubmitsOneFrame :
    sActive.drvWait = none ∧ sActive.txf.rd = sActive.txf.wr ∧
      ((withTxf sActive 0 3 []).txf.rd ≠ (withTxf sActive 0 3 []).txf.wr ∧ 3 < sActive.cfg.cTx ∧
        (withTxf sActive 0 3 []).ctl.txReq = false) ∧
      ((withTxf sActive 0 3 []).setTxReq true).ctl.txReq = true := by decide
/-- Full; not full at the last slot, with environment steps at the boundary, the controller's FIFO empty and not. -/
theorem witness_FillrxMovesOneFrame :
    sActive.drvWait = none ∧ ((withRxr sActive 3 0 []).rxr.wr + 1) % sActive.cfg.cRx = (withRxr sActive 3 0 []).rxr.rd ∧
      (((withRxr sActive 3 1 []).rxr.wr + 1) % sActive.cfg.cRx ≠ (withRxr sActive 3 1 []).rxr.rd ∧ 3 < sActive.cfg.cRx ∧
        EnvOnly ((sActive.setSched envSched).sched.headD [])) ∧
      sActive.ctl.hwrx = [] ∧ (sActive.setHwrx [frameG]).ctl.hwrx = frameG :: [] := by decide
theorem witness_BufinitEmptiesBothBuffers : sReset.drvWait = none ∧ sReset.cfg.sizesOk = true := by decide
theorem witness_HwinitLeavesTheControllerOperating :
    sStable.drvWait = none ∧ (0#8).toNat < sStable.cfg.nModules ∧ sStable.ctl.clkStable = true ∧
      sStable.cfg.clkWaitMax ≠ some 0 ∧ timingOf sStable.cfg 2#8 = some 0x500#32 ∧
      EnvOnly ((sStable.setSched envSched).sched.headD []) := by decide
/-- A member of RATES that is not supported, and a number that is no member. -/
theorem witness_HwinitFailsClosedOnUnsupportedRate :
    sStable.drvWait = none ∧ (0#8).toNat < sStable.cfg.nModules ∧ sStable.ctl.clkStable = true ∧
      sStable.cfg.clkWaitMax ≠ some 0 ∧ timingOf sStable.cfg 3#8 = none ∧ timingOf sStable.cfg 4#8 = none ∧
      EnvOnly ((sStable.setSched envSched).sched.headD []) := by decide
/-- The clock not stable; and `CLK_WAIT_MAX = 0` with the clock stable. -/
theorem witness_HwinitTimesOutOnAnUnstableClock :
    sReset.drvWait = none ∧ (0#8).toNat < sReset.cfg.nModules ∧ sReset.cfg.clkWaitMax = some 3 ∧
      (sReset.ctl.clkStable = false ∧ sReset.sched = []) ∧
      (noReads sStable).cfg.clkWaitMax = some 0 ∧ (noReads sStable).drvWait = none ∧
      (0#8).toNat < (noReads sStable).cfg.nModules := by decide
theorem witness_HwinitArgumentsAreJudgedFirst : sReset.drvWait = none ∧ sReset.cfg.nModules ≤ (1#8).toNat := by decide
/-- With three reads, and with none. -/
theorem witness_BoundedHwinitAlwaysAnswers :
    sReset.drvWait = none ∧ (0#8).toNat < sReset.cfg.nModules ∧ sReset.cfg.clkWaitMax = some 3 ∧
      (∀ steps ∈ (sReset.setSched envSched).sched, EnvOnly steps) ∧ (noReads sReset).cfg.clkWaitMax = some 0 := by decide
/-- With room in TXF at its last slot, and with none. -/
theorem witness_UnboundedClockWaitSticks :
    sUnbounded.drvWait = none ∧ sUnbounded.ds = .init ∧ sUnbounded.shutReq = false ∧ InitAccepted sUnbounded.cfg ∧
      sUnbounded.cfg.clkWaitMax = none ∧ sUnbounded.ctl.clkStable = false ∧
      sUnbounded.inbox = [] ∧ (0#8).toNat < sUnbounded.cfg.nModules ∧
      ((withTxf sUnbounded 3 1 []).txf.wr < sUnbounded.cfg.cTx ∧
        ((withTxf sUnbounded 3 1 []).txf.wr + 1) % sUnbounded.cfg.cTx ≠ (withTxf sUnbounded 3 1 []).txf.rd) ∧
      ((withTxf sUnbounded 3 0 []).txf.wr + 1) % sUnbounded.cfg.cTx = (withTxf sUnbounded 3 0 []).txf.rd := by decide
/-- A HWINIT, a DRVINIT, and a TICK in Init and in ErrorHandling that wait, under a supported rate and another, with a
request in `inbox` and environment steps at the boundary that leave the flag set or clear it. -/
theorem witness_ClockWaitEndsWhenTheClockIsStable :
    sWoken.ctl.clkStable = true ∧ sWoken.cfg.cfgFd = false ∧
      (∀ steps ∈ ((asking sWoken .reqshut).setSched envSched).sched, EnvOnly steps) ∧
      moves (boundary .insideOperation ((asking sWoken .reqshut).setSched envSched)) (fun u => u.ctl.clkStable) ∧
      moves (boundary .insideOperation (sWoken.setSched [[.evClk false]])) (fun u => !u.ctl.clkStable) ∧
      (sWoken.setDrvWait (some (.hwinit 0#8 2#8 false))).drvWait = some (.hwinit 0#8 2#8 false) ∧
      (timingOf sWoken.cfg 2#8 = some 0x500#32 ∧ timingOf sWoken.cfg 3#8 = none) ∧
      (sWoken.setDrvWait (some .drvinit)).drvWait = some .drvinit ∧
      (true = (timingOf sWoken.cfg sWoken.cfg.cfgRate).isSome ∧
        false = (timingOf (unsupported sWoken).cfg (unsupported sWoken).cfg.cfgRate).isSome) ∧
      (sWoken.drvWait = some .tick ∧ sWoken.ds = .init) ∧ (sWoken.setDs .errorHandling).ds = .errorHandling := by decide
theorem witness_SetbaudWritesTheTiming :
    sReset.drvWait = none ∧ (sReset.setMode .configuration).ctl.mode = .configuration ∧
      timingOf sReset.cfg 1#8 = some 0x250#32 ∧ timingOf sReset.cfg 200#8 = none ∧ sReset.ctl.mode ≠ .configuration := by decide
theorem witness_CfgfltInstallsTheFilterTable :
    sReset.drvWait = none ∧ ((sReset.setMode .configuration).ctl.mode = .configuration ∧
        (sReset.setMode .configuration).ctl.fltWe = true) ∧
      (State.resetWith { Config.excfg with filterTable := [] } ResetDraws.zero).cfg.filterTable = [] ∧
      ((sActive.setMode .configuration).ctl.mode = .configuration ∧ (sActive.setMode .configuration).ctl.fltWe = false) ∧
      sActive.ctl.mode ≠ .configuration := by decide
theorem witness_TxOneLoadsTheMailboxOrReturnsFalse :
    sActive.drvWait = none ∧ sActive.ctl.txReq = false ∧ (sActive.setTxReq true).ctl.txReq = true := by decide
theorem witness_RxOneTakesTheOldestFrame :
    sActive.drvWait = none ∧ EnvOnly ((sActive.setSched envSched).sched.headD []) ∧ sActive.ctl.hwrx = [] ∧
      (sActive.setHwrx [frameG]).ctl.hwrx = frameG :: [] := by decide
/-- With one place left in the controller's FIFO. -/
theorem witness_FrameBetweenTheMicroStepsKeepsRxip :
    sActive.drvWait = none ∧ sActive.ctl.mode = .normal ∧ sActive.ctl.bo = false ∧ sActive.ctl.accepts frameA.id = true ∧
      (sActive.setHwrx [frameB, frameB]).ctl.hwrx.length < sActive.cfg.hwrxDepth ∧
      (sActive.setSched [[.evRxframe frameA]]).sched = [[.evRxframe frameA]] := by decide
theorem witness_GeterrReadsTheErrorStatus : sActive.drvWait = none := by decide
theorem witness_DeinitEntersResetMode : sActive.drvWait = none := by decide
theorem witness_EvTxdoneSendsTheMailboxFrame :
    ((sActive.loadMailbox frameA).ctl.mode = .normal ∧ (sActive.loadMailbox frameA).ctl.txReq = true ∧
        (sActive.loadMailbox frameA).ctl.bo = false ∧
        frameA.data.window0 = (sActive.loadMailbox frameA).ctl.txmb.data0 ∧
        frameA.data.window1 = (sActive.loadMailbox frameA).ctl.txmb.data1) ∧
      ¬(sActive.ctl.mode = .normal ∧ sActive.ctl.txReq = true ∧ sActive.ctl.bo = false) := by decide
/-- Accepted with one place left and with none; not accepted. -/
theorem witness_EvRxframeStoresAcceptedFrames :
    (sActive.ctl.mode = .normal ∧ sActive.ctl.bo = false ∧
        ∃ i, i < sActive.ctl.fltN ∧ ∃ r, sActive.ctl.flt[i]? = some r ∧ (0x2FF#32) &&& r.mask = r.id &&& r.mask) ∧
      (sActive.setHwrx [frameB, frameB]).ctl.hwrx.length < sActive.cfg.hwrxDepth ∧
      (sActive.setHwrx [frameB, frameB, frameB]).ctl.hwrx.length = sActive.cfg.hwrxDepth ∧ ¬sReset.ctl.mode = .normal :=
  ⟨⟨by decide, by decide, 1, by decide, ⟨0x200#32, 0x700#32, .rxFifo0⟩, by decide, by decide⟩, by decide, by decide, by decide⟩
theorem witness_EvErrcntSetsTheCounters : sActive.ctl.mode = .normal ∧ sReset.ctl.mode ≠ .normal := by decide
theorem witness_EvBusoffSetsTheStatus :
    (sActive.ctl.mode = .normal ∧ sActive.ctl.bo = false ∧ sActive.drvWait = none ∧ sActive.sched = [] ∧
        (sActive.setHwrx [frameG]).ctl.hwrx = frameG :: []) ∧
      ¬((sActive.setBo true).ctl.mode = .normal ∧ (sActive.setBo true).ctl.bo = false) := by decide
theorem witness_EvThlAndEvDlcerrRaiseTheirFlags : sActive.ctl.mode = .normal ∧ sReset.ctl.mode ≠ .normal := by decide
/-- One flag set and enabled; one set and not enabled. -/
theorem witness_IsrServesEveryEnabledFlag :
    ((sActive.setIfl ⟨false, true, false⟩).ctl.ifl.ml && (sActive.setIfl ⟨false, true, false⟩).ctl.ie.ml) = true ∧
      ((sReset.setIfl ⟨false, true, false⟩).ctl.irqLine) = false := by decide
theorem witness_IsrTouchesOnlyItsFlags :
    runs (exec .isr (sActive.setIfl ⟨true, false, false⟩)) ∧
      runs (exec .isr ((sActive.setIfl ⟨true, false, false⟩).setBo true)) ∧
      (sActive.setIfl ⟨true, false, false⟩).ctl.ie = ((sActive.setIfl ⟨true, false, false⟩).setBo true).ctl.ie := by decide
theorem witness_TickShutsDown :
    sActive.drvWait = none ∧ (sActive.setShutReq true).shutReq = true ∧ sActive.ds ≠ .shutdown ∧
      (sActive.setDs .shutdown).ds = .shutdown := by decide
theorem witness_TickInitializesTheDriver :
    sStable.drvWait = none ∧ sStable.ds = .init ∧ sStable.shutReq = false ∧ InitAccepted sStable.cfg ∧
      sStable.ctl.clkStable = true ∧ sStable.cfg.clkWaitMax ≠ some 0 ∧
      timingOf sStable.cfg sStable.cfg.cfgRate = some 0x500#32 ∧ sStable.sched = [] := by decide
/-- The clock not stable; no reads at all; a rate that is not supported (program P4). -/
theorem witness_TickRetriesInit :
    (sReset.drvWait = none ∧ sReset.ds = .init ∧ sReset.shutReq = false ∧ InitAccepted sReset.cfg ∧ sReset.sched = []) ∧
      (sReset.ctl.clkStable = false ∧ sReset.cfg.clkWaitMax = some 3) ∧ (noReads sStable).cfg.clkWaitMax = some 0 ∧
      (InitAccepted (unsupported sStable).cfg ∧ (unsupported sStable).ctl.clkStable = true ∧
        (unsupported sStable).cfg.clkWaitMax ≠ some 0 ∧
        timingOf (unsupported sStable).cfg (unsupported sStable).cfg.cfgRate = none) := by decide
/-- S_ACTIVE with a queued frame, a frame in the controller's FIFO and an interrupt-free bus; the mailbox free and taken. -/
theorem witness_ActiveCycleDrainsAndFills :
    ((withTxf sActive 0 3 [(3, frameA)]).setHwrx [frameG]).Sound ∧ sActive.drvWait = none ∧ sActive.ds = .activeOperation ∧
      sActive.shutReq = false ∧ sActive.sched = [] ∧
      3 = sActive.cfg.cRx - 1 - sActive.rxr.count sActive.cfg.cRx ∧
      1 = min sActive.cfg.rxBurst (min (sActive.setHwrx [frameG]).ctl.hwrx.length 3) ∧
      (sActive.ctl.txReq = false ∧ (withTxf sActive 0 3 [(3, frameA)]).txQueue = frameA :: []) ∧
      (sActive.setTxReq true).ctl.txReq = true ∧ sActive.txQueue = [] := by
  decide
theorem witness_TickWorkIsBounded :
    moves (exec .tick (sActive.setHwrx [frameG])) (fun t => t.hriLog.length == sActive.hriLog.length + 3) := by decide
/-- S_ACTIVE in bus-off, its state machine in ErrorHandling. -/
def sBusOff : State := ((withTxf sActive 2 1 [(1, frameB)]).setBo true).setDs .errorHandling
theorem witness_RecoveryKeepsTheBuffers :
    (sBusOff.drvWait = none ∧ sBusOff.ds = .errorHandling ∧ sBusOff.shutReq = false ∧ InitAccepted sBusOff.cfg ∧
        sBusOff.sched = []) ∧
      (sBusOff.ctl.clkStable = true ∧ sBusOff.cfg.clkWaitMax ≠ some 0 ∧
        timingOf sBusOff.cfg sBusOff.cfg.cfgRate = some 0x500#32) ∧
      (sBusOff.cfg.clkWaitMax = some 3 ∧ (sBusOff.setClkStable false).ctl.clkStable = false) ∧
      (InitAccepted (unsupported sBusOff).cfg ∧ (unsupported sBusOff).cfg.clkWaitMax ≠ some 0 ∧
        timingOf (unsupported sBusOff).cfg (unsupported sBusOff).cfg.cfgRate = none) := by decide
theorem witness_DrvinitInitializesBothHalves :
    sStable.drvWait = none ∧ InitAccepted sStable.cfg ∧ sStable.sched = [] ∧
      (sStable.ctl.clkStable = true ∧ sStable.cfg.clkWaitMax ≠ some 0 ∧
        timingOf sStable.cfg sStable.cfg.cfgRate = some 0x500#32) ∧
      (sReset.ctl.clkStable = false ∧ sReset.cfg.clkWaitMax = some 3) ∧
      (InitAccepted (unsupported sStable).cfg ∧ (unsupported sStable).cfg.clkWaitMax ≠ some 0 ∧
        timingOf (unsupported sStable).cfg (unsupported sStable).cfg.cfgRate = none) := by decide
theorem witness_TickIsAcceptedInEveryState :
    sBusOff.Sound ∧ sBusOff.drvWait = none ∧ InitAccepted sBusOff.cfg ∧
      (∀ steps ∈ (sBusOff.setSched envSched).sched, EnvOnly steps) := by decide
theorem witness_ResetIsSound :
    Config.excfg.sizesOk = true ∧ (⟨[(3, frameA)], 0, 0⟩ : Ring).Sound Config.excfg.cTx ∧
      (⟨[(0, frameG)], 0, 0⟩ : Ring).Sound Config.excfg.cRx := by decide
theorem witness_EveryStepKeepsSoundness : sActive.Sound ∧ runs (step (asking sActive .tick)) := by decide
theorem witness_SoundStatesNeverFault : (withTxf sActive 0 3 [(3, frameA)]).Sound := by decide
theorem witness_EveryStepKeepsTheLifecycle :
    (asking sActive .tick).Lifecycle ∧ (decode (asking sActive .tick).inbox = .ok .tick [] ∧ Instr.agent .tick ≠ .drv) ∧
      runs (step (asking sActive .tick)) ∧ sWoken.Lifecycle ∧ runs (step sWoken) := by decide
/-- A step along each arrow of the table. -/
theorem witness_DriverStateFollowsTheTable :
    moves (step (asking sStable .tick)) (fun t => t.ds == .activeOperation) ∧
      moves (step (asking (sActive.setBo true) .tick)) (fun t => t.ds == .errorHandling) ∧
      moves (step (asking sBusOff .tick)) (fun t => t.ds == .activeOperation) ∧
      moves (step (asking (sBusOff.setShutReq true) .tick)) (fun t => t.ds == .shutdown) ∧
      moves (step sWoken) (fun t => t.ds == .activeOperation) := by decide
theorem witness_ConfigurationIsCoherent :
    moves (step (asking (sReset.setMode .configuration) (.setbaud 1#8))) (fun t => t.ctl.nbt != sReset.ctl.nbt) ∧
      moves (step (asking (sReset.setMode .configuration) .cfgflt)) (fun t => t.ctl.fltN != sReset.ctl.fltN) := by decide
/-- A HWINIT and a DEINIT, which clear much else, with every latch set; a TICK in Shutdown. -/
theorem witness_LatchesAndShutdownStay :
    ((sStable.setShutReq true).setErrLog ⟨true, true, true⟩).shutReq = true ∧
      runs (step (asking ((sStable.setShutReq true).setErrLog ⟨true, true, true⟩) (.hwinit 0#8 2#8 false))) ∧
      runs (step (asking ((sStable.setShutReq true).setErrLog ⟨true, true, true⟩) .deinit)) ∧
      runs (step (asking (sActive.setDs .shutdown) .tick)) := by decide
theorem witness_HistoriesOnlyGrow : runs (step (asking (sActive.loadMailbox frameA) .evTxdone)) := by decide
theorem witness_BusOffEndsOnlyByResetEntry :
    sBusOff.ctl.bo = true ∧ moves (step (asking sBusOff .deinit)) (fun t => !t.ctl.bo) ∧
      moves (step (asking sBusOff .tick)) (fun t => !t.ctl.bo) := by decide
/-- A request of each writer, and a TICK in Init, in ActiveOperation and in ErrorHandling. -/
theorem witness_EachIndexHasItsWriter :
    sActive.sched = [] ∧ runs (exec .draintx (withTxf sActive 1 0 [])) ∧ runs (exec (.enqtx frameA) sActive) ∧
      runs (exec .fillrx (sActive.setHwrx [frameG])) ∧ runs (exec .deqrx (withRxr sActive 1 0 [])) ∧
      runs (exec .bufinit sActive) ∧ runs (exec .drvinit sStable) ∧
      (sStable.ds = .init ∧ sStable.sched = [] ∧ runs (exec .tick sStable)) ∧
      (sActive.ds ≠ .init ∧ runs (exec .tick ((withTxf sActive 1 0 []).setHwrx [frameG]))) ∧
      (sBusOff.ds ≠ .init ∧ sBusOff.ds ≠ .activeOperation ∧ sBusOff.sched = [] ∧ runs (exec .tick sBusOff)) := by decide
/-- A HWINIT under another filter table than the installed one. -/
theorem witness_FilterTableStaysLocked :
    sActive.ctl.fltWe = false ∧
      moves (step (asking { sActive with cfg := { Config.excfg with filterTable := [] } } (.hwinit 0#8 2#8 false)))
        (fun t => t.ctl.fltN != sActive.ctl.fltN) := by decide
/-- With DRV stuck in its clock wait and each request of APP and HOST, and with the clock stable again. -/
theorem witness_BoundariesAdmitTheRightAgents :
    isEnv .evBusoff = true ∧ isTask (.enqtx frameA) = true ∧ Instr.agent .tick = .sched ∧ Instr.agent .rx1 = .drv ∧
      (sWoken.drvWait = some .tick ∧ decode (asking sWoken (.enqtx frameA)).inbox = .ok (.enqtx frameA) []) ∧
      (sWoken.setClkStable false).ctl.clkStable = false ∧
      decode (asking sWoken .deqrx).inbox = .ok .deqrx [] ∧ decode (asking sWoken .reqshut).inbox = .ok .reqshut [] ∧
      sWoken.ctl.clkStable = true ∧ runs (step (asking sWoken (.enqtx frameA))) := by decide
theorem witness_EnvironmentStepsLeaveTheDriverAlone : isEnv .isr = true ∧ isEnv (.evRxframe frameA) = true := by decide
/-- The write-pointer wraps inside the run. -/
theorem witness_EnqtxCapacityIsOneLessThanSlots :
    (withTxf sActive 3 3 []).Sound ∧ (withTxf sActive 3 3 []).txf.rd = (withTxf sActive 3 3 []).txf.wr ∧
      [frameA, frameB, frameG, frameA].length = sActive.cfg.cTx := by decide
theorem witness_EnqueuedFrameReachesTheBus :
    sActive.Sound ∧ sActive.drvWait = none ∧ sActive.txf.rd = sActive.txf.wr ∧ sActive.ctl.mode = .normal ∧
      sActive.ctl.bo = false ∧ sActive.ctl.txReq = false := by decide
/-- Full and empty queues, and in between. -/
theorem witness_BuffersRefineBoundedQueues :
    (withTxf sActive 2 3 [(3, frameA)]).Sound ∧ runs (exec (.enqtx frameB) (withTxf sActive 2 3 [(3, frameA)])) ∧
      (withTxf sActive 2 3 [(3, frameA)]).txQueue.length = sActive.cfg.cTx - 1 ∧
      (runs (exec (.enqtx frameB) (withTxf sActive 1 3 [(3, frameA)])) ∧
        (withTxf sActive 1 3 [(3, frameA)]).txQueue.length ≠ sActive.cfg.cTx - 1) ∧
      runs (exec .draintx (withTxf sActive 2 3 [(3, frameA)])) ∧ sActive.sched = [] ∧
      runs (exec .fillrx (sActive.setHwrx [frameG])) ∧ runs (exec .deqrx (withRxr sActive 1 0 [(0, frameG)])) ∧
      (withRxr sActive 1 0 [(0, frameG)]).rxQueue.head? = some frameG := by decide
theorem witness_DataWindowsAreLittleEndian :
    frameA.data = ⟨0x11#8, 0x22#8, 0x33#8, 0x44#8, 0x55#8, 0x66#8, 0x77#8, 0x88#8⟩ := by decide

end Sys2Proof.Machine.Tests
end

section
/-! PROOF of O46 (00_scope.md R12, 20_memory.md R64). A fault is an access to a slot that does not exist (log 10), so it
is enough that the four buffer indices name slots: every update of a request keeps that (`preserved_indicesInRange`, by the
closure principle of Laws/Closure.lean), and from such a state each operation in turn never faults. -/

namespace Sys2Proof.Machine

/-! Outcomes that are no fault. -/

/-- The outcome is a next state or a refusal. -/
def NeverFaults {α : Type} (x : Res α) : Prop := ∀ r, x ≠ .fault r

@[simp] theorem neverFaults_next {α : Type} (a : α) : NeverFaults (.next a : Res α) := nofun

@[simp] theorem neverFaults_refused {α : Type} (e : Refusal) : NeverFaults (.refused e : Res α) := nofun

theorem NeverFaults.of_eq_next {α : Type} {x : Res α} {a : α} (h : x = .next a) : NeverFaults x := by
  rw [h]; exact neverFaults_next a

theorem NeverFaults.andThen {α β : Type} {x : Res α} {f : α → Res β} (hx : NeverFaults x)
    (hf : ∀ a, x = .next a → NeverFaults (f a)) : NeverFaults (Machine.andThen x f) := fun r hr => by
  rcases andThen_eq_fault.1 hr with h | ⟨a, ha, h⟩
  · exact hx r h
  · exact hf a ha r h

/-- What only reports on a result adds no fault. -/
theorem NeverFaults.thenNext {α β : Type} {x : Res α} {g : α → β} (hx : NeverFaults x) :
    NeverFaults (Machine.andThen x fun a => .next (g a)) :=
  hx.andThen fun a _ => neverFaults_next (g a)

theorem NeverFaults.drvRequest {s : State} {x : Res State} (hx : NeverFaults x) :
    NeverFaults (Machine.drvRequest s x) := by
  unfold Machine.drvRequest
  split
  · exact neverFaults_refused _
  · exact hx

theorem NeverFaults.taskStep {k : Boundary} {x : Res State} (hx : NeverFaults x) :
    NeverFaults (Machine.taskStep k x) := by
  cases k
  · exact hx
  · exact neverFaults_refused _

/-! The part of soundness that keeps slot accesses in range. -/

/-- Both indices of a buffer of `cap` slots name a slot (10_state.md R21, R25). -/
def Ring.IndicesBelow (cap : Nat) (r : Ring) : Prop := r.wr < cap ∧ r.rd < cap

/-- The indices of both buffers name slots. -/
def State.IndicesInRange (s : State) : Prop := s.txf.IndicesBelow s.cfg.cTx ∧ s.rxr.IndicesBelow s.cfg.cRx

theorem State.Sound.indicesInRange {s : State} (h : s.Sound) : s.IndicesInRange := by
  obtain ⟨-, ⟨htw, htr, -⟩, ⟨hrw, hrr, -⟩, -⟩ := h
  exact ⟨⟨htw, htr⟩, hrw, hrr⟩

/-- The pointer advance stays in range from any index of a slot. -/
theorem nextIndex_lt {cap p : Nat} (h : p < cap) : nextIndex cap p < cap := Nat.mod_lt _ (by omega)

theorem TaskStep.indicesInRange {s t : State} (h : TaskStep s t) (hs : s.IndicesInRange) : t.IndicesInRange := by
  obtain ⟨⟨htw, htr⟩, hrw, hrr⟩ := hs
  have hwr : t.txf.wr < s.cfg.cTx := by
    rcases h.tx with ⟨-, e⟩ | ⟨_, -, hlt, -, e⟩
    · rw [e]; exact htw
    · rw [e]; exact nextIndex_lt hlt
  have hrd : t.rxr.rd < s.cfg.cRx := by
    rcases h.rx with e | ⟨-, e⟩
    · rw [e]; exact hrr
    · rw [e]; exact nextIndex_lt hrr
  rw [h.same]
  exact ⟨⟨hwr, htr⟩, hrw, hrd⟩

theorem drainTransmit_indicesInRange {s : State} {r : State × Status} (h : drainTransmit s = .next r)
    (hs : s.IndicesInRange) : r.1.IndicesInRange := by
  rcases drainTransmit_eq_next.1 h with ⟨-, rfl⟩ | ⟨-, hlt, -, rfl⟩ | ⟨-, -, -, rfl⟩
  · exact hs
  · exact ⟨⟨hs.1.1, nextIndex_lt hlt⟩, hs.2⟩
  · exact hs

/-- Every elementary update keeps the indices in range. -/
theorem preserved_indicesInRange : Preserved (fun s t => s.IndicesInRange → t.IndicesInRange) where
  refl _ := id
  trans h h' hs := h' (h hs)
  env hi h hs := by rw [(exec_env hi h).same]; exact hs
  task hi h := (exec_task hi h).indicesInRange
  setSched _ _ := id
  setInbox _ _ := id
  setDrvWait _ _ := id
  respond _ _ _ := id
  clearRxip _ := id
  receiveNone _ := id
  receiveSome _ _ _ _ := id
  storeFrame _ _ _ _ hi hs := ⟨hs.1, nextIndex_lt hi, hs.2.2⟩
  setHriOut _ _ := id
  setErrOut _ _ := id
  setModSel _ _ := id
  operating _ _ _ _ _ _ := id
  failedClosed _ _ _ _ _ := id
  timedOut _ _ _ _ := id
  initBuffers _ hs :=
    have hTx := Nat.zero_lt_of_lt hs.1.1
    have hRx := Nat.zero_lt_of_lt hs.2.1
    ⟨⟨hTx, hTx⟩, hRx, hRx⟩
  drain h := drainTransmit_indicesInRange h
  transmit f s hs := by unfold transmitOne; split <;> exact hs
  readErrors _ := id
  deinit _ := id
  setbaud _ _ _ _ _ := id
  cfgflt _ _ _ := id

/-! The operations that access a slot: the index is one of the four. -/

theorem enqueueTransmit_neverFaults (f : CanFrame) {s : State} (h : s.IndicesInRange) :
    NeverFaults (enqueueTransmit f s) := by
  cases hf : s.txf.isFull s.cfg.cTx
  · exact .of_eq_next (enqueueTransmit_eq_next.2 (.inr ⟨hf, h.1.1, rfl⟩))
  · exact .of_eq_next (enqueueTransmit_eq_next.2 (.inl ⟨hf, rfl⟩))

theorem dequeueReceive_neverFaults {s : State} (h : s.IndicesInRange) : NeverFaults (dequeueReceive s) := by
  cases he : s.rxr.isEmpty
  · exact .of_eq_next (dequeueReceive_eq_next.2 (.inr ⟨he, h.2.2, rfl⟩))
  · exact .of_eq_next (dequeueReceive_eq_next.2 (.inl ⟨he, rfl⟩))

theorem drainTransmit_neverFaults {s : State} (h : s.IndicesInRange) : NeverFaults (drainTransmit s) := by
  cases he : s.txf.isEmpty
  · cases hq : s.ctl.txReq
    · exact .of_eq_next (drainTransmit_eq_next.2 (.inr (.inl ⟨he, h.1.2, hq, rfl⟩)))
    · exact .of_eq_next (drainTransmit_eq_next.2 (.inr (.inr ⟨he, h.1.2, hq, rfl⟩)))
  · exact .of_eq_next (drainTransmit_eq_next.2 (.inl ⟨he, rfl⟩))

theorem slotWrite_neverFaults {sp : SlotSpace} {i : Nat} {s : State} (c : CanFrame) (h : i < capacity s.cfg sp) :
    NeverFaults (slotWrite sp i c s) :=
  .of_eq_next (slotWrite_eq_next.2 ⟨h, rfl⟩)

/-! Steps of other agents at a boundary. -/

theorem exec_env_neverFaults {i : Instr} (s : State) (hi : isEnv i = true) : NeverFaults (exec i s) := by
  obtain ⟨t, ht⟩ := exec_env_next i s hi
  exact .of_eq_next ht

theorem exec_task_neverFaults {i : Instr} {s : State} (hi : isTask i = true) (h : s.IndicesInRange) :
    NeverFaults (exec i s) := by
  cases i <;> simp [isTask, Instr.agent] at hi
  case enqtx f => exact (enqueueTransmit_neverFaults f h).thenNext
  case deqrx => exact (dequeueReceive_neverFaults h).thenNext
  case reqshut => exact neverFaults_next _

theorem interject_task (k : Boundary) {i : Instr} (s : State) (hi : isTask i = true) :
    interject k i s = taskStep k (exec i s) := by
  cases i <;> simp [isTask, Instr.agent] at hi <;> rfl

theorem interject_overlapping (k : Boundary) {i : Instr} (s : State) (he : isEnv i = false) (ht : isTask i = false) :
    interject k i s = .refused .overlappingRequest := by
  cases i <;> simp [isEnv, isTask, Instr.agent] at he ht <;> rfl

theorem interject_neverFaults (k : Boundary) (i : Instr) {s : State} (h : s.IndicesInRange) :
    NeverFaults (interject k i s) := by
  cases he : isEnv i
  · cases ht : isTask i
    · rw [interject_overlapping k s he ht]; exact neverFaults_refused _
    · rw [interject_task k s ht]; exact (exec_task_neverFaults ht h).taskStep
  · rw [interject_env s he]; exact exec_env_neverFaults s he

theorem interjectAll_neverFaults (k : Boundary) (steps : List Instr) {s : State} (h : s.IndicesInRange) :
    NeverFaults (interjectAll k steps s) := by
  induction steps generalizing s with
  | nil => exact neverFaults_next s
  | cons i rest ih =>
    refine (interject_neverFaults k i h).andThen fun u hu => ih ?_
    obtain ⟨hx, hi | ⟨hi, -⟩⟩ := interject_eq_next hu
    · exact preserved_indicesInRange.env hi hx h
    · exact preserved_indicesInRange.task hi hx h

theorem boundary_neverFaults (k : Boundary) {s : State} (h : s.IndicesInRange) : NeverFaults (boundary k s) := by
  cases hs : s.sched with
  | nil => exact .of_eq_next (boundary_nil hs)
  | cons steps later => rw [boundary_cons hs]; exact interjectAll_neverFaults k steps h

/-! Reception. -/

theorem receiveFromFifo_neverFaults (s : State) : NeverFaults (receiveFromFifo s) := by
  cases hq : s.ctl.hwrx with
  | nil => exact .of_eq_next (receiveFromFifo_eq_next.2 (.inl ⟨hq, rfl⟩))
  | cons g rest => exact .of_eq_next (receiveFromFifo_eq_next.2 (.inr ⟨g, rest, hq, rfl⟩))

theorem receiveOne_neverFaults {s : State} (h : s.IndicesInRange) : NeverFaults (receiveOne s) :=
  (boundary_neverFaults (s := s.setRxip false) _ h).andThen fun u _ => receiveFromFifo_neverFaults u

/-- The write-pointer FILLRX has read before RX1 still names a slot after it, because no step changes CONFIG. -/
theorem fillReceive_neverFaults {s : State} (h : s.IndicesInRange) : NeverFaults (fillReceive s) := by
  unfold fillReceive
  split
  · exact neverFaults_next _
  · refine (receiveOne_neverFaults h).andThen fun r hr => ?_
    have hcfg : r.1.cfg = s.cfg := (preserved_cfg_ds.receiveOne hr).1
    split
    · exact neverFaults_next _
    · exact (slotWrite_neverFaults _ (by rw [hcfg]; exact h.2.1)).thenNext

theorem fillReceive_indicesInRange {s : State} {r : State × Status} (hr : fillReceive s = .next r)
    (h : s.IndicesInRange) : r.1.IndicesInRange :=
  (preserved_indicesInRange.withDs.fillReceive (fun _ _ hst => hst.2.1) hr).1 h

theorem fillBurst_neverFaults (n : Nat) {s : State} (h : s.IndicesInRange) : NeverFaults (fillBurst n s) := by
  induction n generalizing s with
  | zero => exact neverFaults_next s
  | succ m ih =>
    refine (boundary_neverFaults _ h).andThen fun u hu => ?_
    have hu' : u.IndicesInRange := preserved_indicesInRange.boundary hu h
    refine (fillReceive_neverFaults hu').andThen fun r hr => ?_
    split
    · exact ih (fillReceive_indicesInRange hr hu')
    · exact neverFaults_next _

/-! Initialization. -/

theorem setBaudRate_neverFaults (rate : Byte) (s : State) : NeverFaults (setBaudRate rate s) := by
  unfold setBaudRate
  split
  · split <;> exact neverFaults_next _
  · exact neverFaults_refused _

theorem configureFilters_neverFaults (s : State) : NeverFaults (configureFilters s) := by
  unfold configureFilters
  split
  · split
    · exact neverFaults_next _
    · exact neverFaults_refused _
  · exact neverFaults_refused _

theorem pollClock_neverFaults (n : Nat) {s : State} (h : s.IndicesInRange) : NeverFaults (pollClock n s) := by
  induction n generalizing s with
  | zero => exact neverFaults_next _
  | succ m ih =>
    unfold pollClock
    split
    · exact neverFaults_next _
    · exact (boundary_neverFaults _ h).andThen fun u hu => ih (preserved_indicesInRange.boundary hu h)

theorem clockWait_neverFaults {s : State} (h : s.IndicesInRange) : NeverFaults (clockWait s) := by
  unfold clockWait
  split
  · exact neverFaults_next _
  · exact (pollClock_neverFaults _ h).thenNext
  · exact neverFaults_next _

theorem finishInit_neverFaults (modSel rate : Byte) (fd : Bool) (s : State) :
    NeverFaults (finishInit modSel rate fd s) := by
  rw [finishInit_eq]
  split <;> exact neverFaults_next _

theorem afterClock_neverFaults (modSel rate : Byte) (fd : Bool) {w : State × Progress} (h : w.1.IndicesInRange) :
    NeverFaults (afterClock modSel rate fd w) := by
  unfold afterClock
  split
  · exact (boundary_neverFaults _ h).andThen fun u _ => finishInit_neverFaults modSel rate fd u
  · exact neverFaults_next _
  · exact neverFaults_next _

theorem initHardware_neverFaults (modSel rate : Byte) (fd : Bool) {s : State} (h : s.IndicesInRange) :
    NeverFaults (initHardware modSel rate fd s) := by
  unfold initHardware
  split
  · exact neverFaults_refused _
  · split
    · exact neverFaults_refused _
    · exact (clockWait_neverFaults (s := s.setModSel modSel) h).andThen fun w hw =>
        afterClock_neverFaults modSel rate fd (preserved_indicesInRange.clockWait hw h)

theorem resumeHardware_neverFaults (modSel rate : Byte) (fd : Bool) {s : State} (h : s.IndicesInRange) :
    NeverFaults (resumeHardware modSel rate fd s) :=
  afterClock_neverFaults modSel rate fd h

theorem afterHardware_neverFaults {r : State × Progress} (h : r.1.IndicesInRange) : NeverFaults (afterHardware r) := by
  unfold afterHardware
  split
  · exact neverFaults_next _
  · exact (boundary_neverFaults _ h).thenNext
  · exact (boundary_neverFaults _ h).thenNext

theorem initDriver_neverFaults {s : State} (h : s.IndicesInRange) : NeverFaults (initDriver s) :=
  (initHardware_neverFaults _ _ _ h).andThen fun _ hr =>
    afterHardware_neverFaults (preserved_indicesInRange.initHardware hr h)

/-! The periodic task. -/

theorem busError_neverFaults {s : State} (h : s.IndicesInRange) : NeverFaults (busError s) := by
  unfold busError
  split
  · exact neverFaults_next _
  · exact (boundary_neverFaults _ h).thenNext

theorem cycleActive_neverFaults {s : State} (h : s.IndicesInRange) : NeverFaults (cycleActive s) := by
  refine (drainTransmit_neverFaults h).andThen fun d hd => ?_
  have hd' : d.1.IndicesInRange := drainTransmit_indicesInRange hd h
  refine (fillBurst_neverFaults _ hd').andThen fun u hu => ?_
  have hu' : u.IndicesInRange := (preserved_indicesInRange.withDs.fillBurst (fun _ _ hst => hst.2.1) hu).1 hd'
  exact (busError_neverFaults hu').thenNext

theorem cycleErrorHandling_neverFaults {s : State} (h : s.IndicesInRange) : NeverFaults (cycleErrorHandling s) := by
  unfold cycleErrorHandling
  split
  exact (initHardware_neverFaults _ _ _ h).thenNext

theorem cycleWork_neverFaults {s : State} (h : s.IndicesInRange) : NeverFaults (cycleWork s) := by
  unfold cycleWork
  split
  · exact (initDriver_neverFaults h).thenNext
  · exact cycleActive_neverFaults h
  · exact cycleErrorHandling_neverFaults h
  · exact neverFaults_next _

theorem periodicTask_neverFaults {s : State} (h : s.IndicesInRange) : NeverFaults (periodicTask s) := by
  unfold periodicTask
  split
  · exact neverFaults_next _
  · exact cycleWork_neverFaults h

/-- DRVINIT going on after its clock wait: the rest of HWINIT, then BUFINIT, then the request's end. -/
theorem resumeThenBuffers_neverFaults (modSel rate : Byte) (fd : Bool) (g : State × Progress → State) {s : State}
    (h : s.IndicesInRange) :
    NeverFaults (andThen (resumeHardware modSel rate fd s) fun r => andThen (afterHardware r) fun d => .next (g d)) :=
  (resumeHardware_neverFaults modSel rate fd h).andThen fun _ hr =>
    (afterHardware_neverFaults (preserved_indicesInRange.resumeHardware hr h)).thenNext

theorem resumeRequest_neverFaults (c : DrvCall) {s : State} (h : s.IndicesInRange) :
    NeverFaults (resumeRequest c s) := by
  unfold resumeRequest
  split
  · exact (resumeHardware_neverFaults _ _ _ h).thenNext
  · exact resumeThenBuffers_neverFaults _ _ _ _ h
  · split
    · exact resumeThenBuffers_neverFaults _ _ _ _ h
    · exact (resumeHardware_neverFaults _ _ _ h).thenNext
    · exact neverFaults_next _
    · exact neverFaults_next _

/-! Every request, and the step. -/

theorem exec_neverFaults (i : Instr) {s : State} (h : s.IndicesInRange) : NeverFaults (exec i s) := by
  cases i with
  | enqtx f => exact exec_task_neverFaults rfl h
  | deqrx => exact exec_task_neverFaults rfl h
  | reqshut => exact exec_task_neverFaults rfl h
  | evClk b => exact exec_env_neverFaults s rfl
  | evTxdone => exact exec_env_neverFaults s rfl
  | evRxframe g => exact exec_env_neverFaults s rfl
  | evErrcnt a b => exact exec_env_neverFaults s rfl
  | evBusoff => exact exec_env_neverFaults s rfl
  | evThl => exact exec_env_neverFaults s rfl
  | evDlcerr => exact exec_env_neverFaults s rfl
  | isr => exact exec_env_neverFaults s rfl
  | tick => exact (periodicTask_neverFaults h).thenNext.drvRequest
  | draintx => exact (drainTransmit_neverFaults h).thenNext.drvRequest
  | fillrx => exact (fillReceive_neverFaults h).thenNext.drvRequest
  | bufinit => exact (neverFaults_next _).drvRequest
  | drvinit => exact (initDriver_neverFaults h).thenNext.drvRequest
  | hwinit m r fd => exact (initHardware_neverFaults m r fd h).thenNext.drvRequest
  | setbaud r => exact (setBaudRate_neverFaults r s).thenNext.drvRequest
  | cfgflt => exact (configureFilters_neverFaults s).thenNext.drvRequest
  | tx1 f => exact (neverFaults_next _).drvRequest
  | rx1 => exact (receiveOne_neverFaults h).thenNext.drvRequest
  | geterr => exact (neverFaults_next _).drvRequest
  | deinit => exact (neverFaults_next _).drvRequest

theorem fetch_neverFaults (s : State) : NeverFaults (fetch s) := by
  unfold fetch
  split
  · exact neverFaults_next _
  · exact neverFaults_refused _

theorem fetch_indicesInRange {s : State} {p : Instr × State} (hp : fetch s = .next p) (h : s.IndicesInRange) :
    p.2.IndicesInRange := by
  unfold fetch at hp
  split at hp
  · cases hp; exact h
  · cases hp

theorem serveRequest_neverFaults (i : Instr) {s : State} (h : s.IndicesInRange) : NeverFaults (serveRequest i s) := by
  unfold serveRequest
  split
  · exact neverFaults_refused _
  · exact exec_neverFaults i h

theorem serveInbox_neverFaults {s : State} (h : s.IndicesInRange) : NeverFaults (serveInbox s) := by
  unfold serveInbox
  split
  · exact neverFaults_next _
  · exact (fetch_neverFaults s).andThen fun p hp => serveRequest_neverFaults p.1 (fetch_indicesInRange hp h)

theorem goOn_neverFaults (c : DrvCall) {s : State} (h : s.IndicesInRange) : NeverFaults (goOn c s) := by
  refine (boundary_neverFaults _ h).andThen fun u hu => ?_
  split
  · exact resumeRequest_neverFaults c (preserved_indicesInRange.boundary hu h)
  · exact neverFaults_next u

/-- With the indices in range no step faults, whatever request it serves and whatever other agents do inside it. -/
theorem step_neverFaults {s : State} (h : s.IndicesInRange) : NeverFaults (step s) := by
  unfold step serveNext
  split
  · exact goOn_neverFaults _ h
  · exact serveInbox_neverFaults h

/-- Settles O46: a sound state has its buffer indices in range, and from there no step faults. -/
theorem soundStatesNeverFault : Obligations.SoundStatesNeverFault :=
  fun _ h => step_neverFaults h.indicesInRange

end Sys2Proof.Machine
end

section
/-! SUPPORT. The laws of a circular buffer as a bounded queue (10_state.md R22, R26): what a store at the write-pointer and an
advance of the read-pointer do to `Ring.queue`. -/

namespace Sys2Proof.Machine

/-! The arithmetic of the indices, for indices below the capacity. -/

theorem nextIndex_eq {cap p : Nat} (h : p < cap) : nextIndex cap p = if p + 1 = cap then 0 else p + 1 := by
  unfold nextIndex
  split
  · next hp => rw [hp, Nat.mod_self]
  · exact Nat.mod_eq_of_lt (by omega)

/-- The pointer advance wraps behind the last slot, and elsewhere goes one further. -/
theorem nextIndex_cases {cap p : Nat} (h : p < cap) :
    (p + 1 = cap ∧ nextIndex cap p = 0) ∨ (p + 1 < cap ∧ nextIndex cap p = p + 1) := by
  rw [nextIndex_eq h]
  split <;> omega

/-- The slot `k` places after the index `p`. -/
theorem add_mod_cap {cap p k : Nat} (hp : p < cap) (hk : k < cap) :
    (p + k) % cap = if p + k < cap then p + k else p + k - cap := by
  split
  · next h => exact Nat.mod_eq_of_lt h
  · rw [Nat.mod_eq_sub_mod (by omega), Nat.mod_eq_of_lt (by omega)]

/-- Advancing the start by one is counting from one place further. -/
theorem nextIndex_add_mod (cap p k : Nat) : (nextIndex cap p + k) % cap = (p + (k + 1)) % cap := by
  rw [nextIndex, Nat.mod_add_mod, Nat.add_assoc, Nat.add_comm 1 k]

theorem Ring.isEmpty_iff {r : Ring} : r.isEmpty = true ↔ r.rd = r.wr := by simp [Ring.isEmpty]

theorem Ring.count_lt {cap : Nat} {r : Ring} (h : r.IndicesBelow cap) : r.count cap < cap := by
  obtain ⟨hw, hr⟩ := h
  unfold Ring.count; split <;> omega

/-- The buffer is full when all slots but one are in use (R22, R26). -/
theorem Ring.isFull_iff {cap : Nat} {r : Ring} (h : r.IndicesBelow cap) :
    r.isFull cap = true ↔ r.count cap = cap - 1 := by
  obtain ⟨hw, hr⟩ := h
  simp only [Ring.isFull, decide_eq_true_eq, nextIndex_eq hw, Ring.count]
  split <;> split <;> omega

/-- The write-pointer stands behind the newest frame. -/
theorem Ring.rd_add_count {cap : Nat} {r : Ring} (h : r.IndicesBelow cap) : (r.rd + r.count cap) % cap = r.wr := by
  rw [add_mod_cap h.2 (Ring.count_lt h)]
  obtain ⟨hw, hr⟩ := h
  unfold Ring.count; split <;> split <;> omega

/-- No frame that the buffer holds stands at the write-pointer. -/
theorem Ring.rd_add_ne_wr {cap k : Nat} {r : Ring} (h : r.IndicesBelow cap) (hk : k < r.count cap) :
    (r.rd + k) % cap ≠ r.wr := by
  rw [add_mod_cap h.2 (Nat.lt_trans hk (Ring.count_lt h))]
  obtain ⟨hw, hr⟩ := h
  unfold Ring.count at hk; split at hk <;> split <;> omega

theorem Ring.count_of_advanceWr {cap : Nat} {r : Ring} (h : r.IndicesBelow cap) (hf : r.isFull cap = false)
    (m : SlotMem) : (⟨m, nextIndex cap r.wr, r.rd⟩ : Ring).count cap = r.count cap + 1 := by
  obtain ⟨hw, hr⟩ := h
  have hnext := nextIndex_cases hw
  simp only [Ring.isFull, decide_eq_false_iff_not] at hf
  simp only [Ring.count]
  split <;> split <;> omega

theorem Ring.count_of_advanceRd {cap : Nat} {r : Ring} (h : r.IndicesBelow cap) (he : r.isEmpty = false) :
    r.count cap = ({ r with rd := nextIndex cap r.rd } : Ring).count cap + 1 := by
  obtain ⟨hw, hr⟩ := h
  simp only [Ring.isEmpty, decide_eq_false_iff_not] at he
  simp only [Ring.count, nextIndex_eq hr]
  split <;> split <;> split <;> omega

/-! The queue. -/

theorem Ring.queue_length (cap : Nat) (r : Ring) : (r.queue cap).length = r.count cap := by simp [Ring.queue]

/-- A buffer with equal indices holds no frame (R22, R26). -/
theorem Ring.queue_of_empty {cap : Nat} {r : Ring} (h : r.rd = r.wr) : r.queue cap = [] := by
  simp [Ring.queue, Ring.count, h]

theorem Ring.isFull_iff_queue {cap : Nat} {r : Ring} (h : r.IndicesBelow cap) :
    r.isFull cap = true ↔ (r.queue cap).length = cap - 1 := by
  rw [Ring.queue_length, Ring.isFull_iff h]

/-- A queue whose indices are in range holds at most all slots but one. -/
theorem Ring.queue_length_le {cap : Nat} {r : Ring} (h : r.IndicesBelow cap) : (r.queue cap).length ≤ cap - 1 := by
  rw [Ring.queue_length]
  exact Nat.le_sub_one_of_lt (Ring.count_lt h)

/-- Storing a cell at the write-pointer of a buffer with room and advancing it appends the cell to the queue. -/
theorem Ring.queue_store {cap : Nat} {r : Ring} (h : r.IndicesBelow cap) (hf : r.isFull cap = false) (c : CanFrame) :
    (⟨Memory.write r.slots r.wr c, nextIndex cap r.wr, r.rd⟩ : Ring).queue cap = r.queue cap ++ [c] := by
  have hold : ∀ k ∈ List.range (r.count cap),
      Memory.read (Memory.write r.slots r.wr c) ((r.rd + k) % cap) = Memory.read r.slots ((r.rd + k) % cap) :=
    fun k hk => Memory.read_write_other _ c (Ring.rd_add_ne_wr h (List.mem_range.1 hk))
  simp only [Ring.queue, Ring.count_of_advanceWr h hf, List.range_succ, List.map_append, List.map_congr_left hold,
    List.map_cons, List.map_nil, Ring.rd_add_count h, Memory.read_write_same]

/-- A buffer that is not empty holds the frame at its read-pointer, and behind it what it holds once that is advanced. -/
theorem Ring.queue_eq_cons {cap : Nat} {r : Ring} (h : r.IndicesBelow cap) (he : r.isEmpty = false) :
    r.queue cap = Memory.read r.slots r.rd :: ({ r with rd := nextIndex cap r.rd } : Ring).queue cap := by
  rw [Ring.queue, Ring.count_of_advanceRd h he, List.range_succ_eq_map]
  simp [Ring.queue, Function.comp_def, nextIndex_add_mod, Nat.mod_eq_of_lt h.2]

end Sys2Proof.Machine
end

section
/-! PROOF of O45 (10_state.md R18, R21, R22, R25, R26, R36, R44). Every elementary update of a request keeps soundness; the
closure principle of Laws/Closure.lean carries that to every step. -/

namespace Sys2Proof.Machine

/-! The parts of soundness. -/

theorem Ring.Sound.wr_lt {cap : Nat} {r : Ring} (h : r.Sound cap) : r.wr < cap := h.1

theorem Ring.Sound.rd_lt {cap : Nat} {r : Ring} (h : r.Sound cap) : r.rd < cap := h.2.1

theorem State.Sound.fifo_le {s : State} (h : s.Sound) : s.ctl.hwrx.length ≤ s.cfg.hwrxDepth := h.2.2.2.1

theorem State.Sound.rules_le {s : State} (h : s.Sound) : s.ctl.fltN ≤ s.ctl.flt.length := h.2.2.2.2

/-! What keeps a buffer sound. -/

/-- Moving the indices within the buffer keeps it sound. -/
theorem Ring.Sound.moveIndices {cap wr rd : Nat} {r : Ring} (h : r.Sound cap) (hw : wr < cap) (hr : rd < cap) :
    ({ r with wr := wr, rd := rd } : Ring).Sound cap := by
  obtain ⟨-, -, hcells⟩ := h
  exact ⟨hw, hr, hcells⟩

/-- Storing a frame of legal length in a slot there is keeps the buffer sound. -/
theorem Ring.Sound.write {cap i : Nat} {r : Ring} {c : CanFrame} (h : r.Sound cap) (hi : i < cap)
    (hc : c.dlc.toNat ≤ 8) : ({ r with slots := Memory.write r.slots i c } : Ring).Sound cap := by
  obtain ⟨hw, hr, hwf, hbelow, hdlc⟩ := h
  refine ⟨hw, hr, Memory.wf_write _ _ _ hwf, Memory.below_write hi hbelow, fun e he => ?_⟩
  rcases Memory.mem_write he with rfl | he
  · exact hc
  · exact hdlc e he

/-- A new cell and the advance of the write-pointer over it, as ENQTX and FILLRX do, keep the buffer sound. -/
theorem Ring.Sound.store {cap i : Nat} {r : Ring} {c : CanFrame} (h : r.Sound cap) (hi : i < cap)
    (hc : c.dlc.toNat ≤ 8) :
    ({ r with slots := Memory.write r.slots i c, wr := nextIndex cap i } : Ring).Sound cap :=
  (h.write hi hc).moveIndices (nextIndex_lt hi) h.rd_lt

/-- ENQTX stores no frame longer than eight bytes (R101). -/
theorem enqueuedCell_dlc_le (f old : CanFrame) : (enqueuedCell f old).dlc.toNat ≤ 8 := clampDlc_le f.dlc

/-! What keeps a state sound. -/

/-- Soundness reads CONFIG, the buffers, the receive FIFO and the installed rules, and nothing else. -/
theorem State.Sound.congr {s t : State} (h : s.Sound) (hcfg : t.cfg = s.cfg) (htx : t.txf = s.txf) (hrx : t.rxr = s.rxr)
    (hfifo : t.ctl.hwrx.length ≤ s.cfg.hwrxDepth) (hflt : t.ctl.fltN ≤ t.ctl.flt.length) : t.Sound := by
  obtain ⟨hsizes, htxf, hrxr, -, -⟩ := h
  exact ⟨by rwa [hcfg], by rwa [hcfg, htx], by rwa [hcfg, hrx], by rwa [hcfg], hflt⟩

/-- A new controller keeps soundness if its FIFO and its rules are within bounds. -/
theorem State.Sound.setCtl {s : State} (h : s.Sound) (c : Ctl) (hfifo : c.hwrx.length ≤ s.cfg.hwrxDepth)
    (hflt : c.fltN ≤ c.flt.length) : (s.setCtl c).Sound :=
  h.congr rfl rfl rfl hfifo hflt

theorem EnvStep.sound {s t : State} (h : EnvStep s t) (hs : s.Sound) : t.Sound := by
  refine hs.congr (by rw [h.same]) (by rw [h.same]) (by rw [h.same]) (h.depth hs.fifo_le) ?_
  rw [h.ctl]; exact hs.rules_le

theorem TaskStep.txf_sound {s t : State} (h : TaskStep s t) (hs : s.txf.Sound s.cfg.cTx) : t.txf.Sound s.cfg.cTx := by
  have hrd : t.txf = { s.txf with slots := t.txf.slots, wr := t.txf.wr } := by rw [h.same]
  rcases h.tx with ⟨hslots, hwr⟩ | ⟨f, -, hlt, hslots, hwr⟩
  · rw [hrd, hslots, hwr]; exact hs
  · rw [hrd, hslots, hwr]; exact hs.store hlt (enqueuedCell_dlc_le f _)

theorem TaskStep.rxr_sound {s t : State} (h : TaskStep s t) (hs : s.rxr.Sound s.cfg.cRx) : t.rxr.Sound s.cfg.cRx := by
  have hwr : t.rxr = { s.rxr with rd := t.rxr.rd } := by rw [h.same]
  rcases h.rx with hrd | ⟨-, hrd⟩
  · rw [hwr, hrd]; exact hs
  · rw [hwr, hrd]; exact hs.moveIndices hs.wr_lt (nextIndex_lt hs.rd_lt)

theorem TaskStep.sound {s t : State} (h : TaskStep s t) (hs : s.Sound) : t.Sound := by
  obtain ⟨hsizes, htx, hrx, hctl⟩ := hs
  have hcfg : t.cfg = s.cfg := by rw [h.same]
  have hsame : t.ctl = s.ctl := by rw [h.same]
  exact ⟨by rwa [hcfg], by rw [hcfg]; exact h.txf_sound htx, by rw [hcfg]; exact h.rxr_sound hrx, by rwa [hcfg, hsame]⟩

theorem drainTransmit_sound {s : State} {r : State × Status} (h : drainTransmit s = .next r) (hs : s.Sound) :
    r.1.Sound := by
  obtain ⟨hsizes, htx, hrest⟩ := id hs
  rcases drainTransmit_eq_next.1 h with ⟨-, rfl⟩ | ⟨-, hlt, -, rfl⟩ | ⟨-, -, -, rfl⟩
  · exact hs
  · exact ⟨hsizes, htx.moveIndices htx.wr_lt (nextIndex_lt hlt), hrest⟩
  · exact hs

theorem transmitOne_sound (f : CanFrame) {s : State} (hs : s.Sound) : (transmitOne f s).1.Sound := by
  unfold transmitOne; split <;> exact hs

theorem initBuffers_sound {s : State} (hs : s.Sound) : (initBuffers s).Sound := by
  obtain ⟨hsizes, htx, hrx, hctl⟩ := hs
  have hTx := Nat.zero_lt_of_lt htx.wr_lt
  have hRx := Nat.zero_lt_of_lt hrx.wr_lt
  exact ⟨hsizes, htx.moveIndices hTx hTx, hrx.moveIndices hRx hRx, hctl⟩

/-- FILLRX's store: a received frame at slot `i`, the write-pointer behind it. -/
theorem storeFrame_sound {s : State} {g : CanFrame} {i : Nat} (hg : g.dlc.toNat ≤ 8) (hi : i < s.cfg.cRx)
    (hs : s.Sound) :
    (s.setRxr { s.rxr with slots := Memory.write s.rxr.slots i g, wr := nextIndex s.cfg.cRx i }).Sound := by
  obtain ⟨hsizes, htx, hrx, hctl⟩ := hs
  exact ⟨hsizes, htx, hrx.store hi hg, hctl⟩

/-- Installing the filter rules leaves a rule register for each (R36, R129). -/
theorem installFilters_sound {s : State} (rs : List FilterReg) (hs : s.Sound) : (s.installFilters rs).Sound :=
  hs.setCtl _ hs.fifo_le (by simp)

/-- Every elementary update keeps soundness: the entry into Reset mode empties the FIFO, and RX1 only shortens it. -/
theorem preserved_sound : Preserved (fun s t => s.Sound → t.Sound) where
  refl _ := id
  trans h h' hs := h' (h hs)
  env hi h := (exec_env hi h).sound
  task hi h := (exec_task hi h).sound
  setSched _ _ := id
  setInbox _ _ := id
  setDrvWait _ _ := id
  respond _ _ _ := id
  clearRxip _ := id
  receiveNone _ := id
  receiveSome s g rest hg hs := by
    have hfifo := hs.fifo_le
    rw [hg, List.length_cons] at hfifo
    exact hs.setCtl _ (Nat.le_of_succ_le hfifo) hs.rules_le
  storeFrame _ _ _ hg hi := storeFrame_sound hg hi
  setHriOut _ _ := id
  setErrOut _ _ := id
  setModSel _ _ := id
  operating s _ _ v fd _ hs := hs.setCtl (s.ctl.operating s.cfg v fd) (Nat.zero_le _) (by simp [Ctl.operating])
  failedClosed s _ _ fd _ hs := hs.setCtl (s.ctl.failedClosed s.cfg fd) (Nat.zero_le _) hs.rules_le
  timedOut _ _ _ _ := id
  initBuffers _ := initBuffers_sound
  drain h := drainTransmit_sound h
  transmit f _ := transmitOne_sound f
  readErrors _ := id
  deinit s hs := hs.setCtl (s.setIe ⟨false, false, false⟩).ctl.enterReset (Nat.zero_le _) hs.rules_le
  setbaud _ _ _ _ _ := id
  cfgflt s _ _ := installFilters_sound (filterRegs s.cfg)

/-- The moves of DS keep soundness, which does not read DS. -/
theorem dsMoves_sound : DsMoves (fun s t => s.Sound → t.Sound) where
  activate _ _ := id
  error _ _ _ := id
  shutdown _ _ _ := id

/-- Settles O45, by the closure principle. -/
theorem everyStepKeepsSoundness : Obligations.EveryStepKeepsSoundness :=
  fun _ _ hs hst => preserved_sound.step dsMoves_sound hst hs

end Sys2Proof.Machine
end

section
/-! PROOF of O51 (10_state.md R56, R57). Each elementary update keeps the three histories or appends to them; the closure
principle of Laws/Closure.lean carries that to every step. -/

namespace Sys2Proof.Machine

/-- `t` continues the histories of `s`: BUS_OUT, HRI_LOG and the answers given. -/
def Extends (s t : State) : Prop := s.busOut <+: t.busOut ∧ s.hriLog <+: t.hriLog ∧ s.respLog <+: t.respLog

theorem Extends.refl (s : State) : Extends s s := ⟨List.prefix_refl _, List.prefix_refl _, List.prefix_refl _⟩

theorem Extends.trans {s t u : State} (h : Extends s t) (h' : Extends t u) : Extends s u := by
  obtain ⟨hbus, hhri, hresp⟩ := h
  obtain ⟨hbus', hhri', hresp'⟩ := h'
  exact ⟨hbus.trans hbus', hhri.trans hhri', hresp.trans hresp'⟩

/-- An HRI call that is logged, whatever else it changes. -/
theorem Extends.pushHri {s t : State} (h : Extends s t) (c : HriCall) : Extends s (t.pushHri c) :=
  h.trans ⟨List.prefix_refl _, List.prefix_append _ _, List.prefix_refl _⟩

theorem Extends.respond {s t : State} (h : Extends s t) (op : Byte) (ws : List Word) : Extends s (t.respond op ws) :=
  h.trans ⟨List.prefix_refl _, List.prefix_refl _, List.prefix_append _ _⟩

theorem EnvStep.extends {s t : State} (h : EnvStep s t) : Extends s t := by
  have hhri : s.hriLog = t.hriLog := by rw [h.same]
  exact ⟨h.bus, hhri ▸ List.prefix_refl _, h.resp⟩

theorem TaskStep.extends {s t : State} (h : TaskStep s t) : Extends s t := by
  have hbus : s.busOut = t.busOut := by rw [h.same]
  have hhri : s.hriLog = t.hriLog := by rw [h.same]
  exact ⟨hbus ▸ List.prefix_refl _, hhri ▸ List.prefix_refl _, h.resp⟩

theorem drainTransmit_extends {s : State} {r : State × Status} (h : drainTransmit s = .next r) : Extends s r.1 := by
  rcases drainTransmit_eq_next.1 h with ⟨-, rfl⟩ | ⟨-, -, -, rfl⟩ | ⟨-, -, -, rfl⟩
  · exact .refl s
  · exact (Extends.refl s).pushHri _
  · exact (Extends.refl s).pushHri _

theorem transmitOne_extends (f : CanFrame) (s : State) : Extends s (transmitOne f s).1 := by
  unfold transmitOne; split <;> exact (Extends.refl s).pushHri _

/-- Every elementary update continues the histories. -/
theorem preserved_extends : Preserved Extends where
  refl := Extends.refl
  trans := Extends.trans
  env hi h := (exec_env hi h).extends
  task hi h := (exec_task hi h).extends
  setSched s _ := Extends.refl s
  setInbox s _ := Extends.refl s
  setDrvWait s _ := Extends.refl s
  respond s _ _ := (Extends.refl s).respond _ _
  clearRxip s := Extends.refl s
  receiveNone s := (Extends.refl s).pushHri _
  receiveSome s _ _ _ := (Extends.refl s).pushHri _
  storeFrame s _ _ _ _ := Extends.refl s
  setHriOut s _ := Extends.refl s
  setErrOut s _ := Extends.refl s
  setModSel s _ := Extends.refl s
  operating s _ _ _ _ _ := (Extends.refl s).pushHri _
  failedClosed s _ _ _ _ := (Extends.refl s).pushHri _
  timedOut s _ _ _ := (Extends.refl s).pushHri _
  initBuffers s := Extends.refl s
  drain := drainTransmit_extends
  transmit := transmitOne_extends
  readErrors s := (Extends.refl s).pushHri _
  deinit s := (Extends.refl s).pushHri _
  setbaud s _ _ _ _ := (Extends.refl s).pushHri _
  cfgflt s _ _ := (Extends.refl s).pushHri _

/-- The moves of DS write no history. -/
theorem dsMoves_extends : DsMoves Extends where
  activate s _ := Extends.refl s
  error s _ _ := Extends.refl s
  shutdown s _ _ := Extends.refl s

/-- Settles O51, by the closure principle. -/
theorem historiesOnlyGrow : Obligations.HistoriesOnlyGrow :=
  fun _ _ hst => preserved_extends.step dsMoves_extends hst

end Sys2Proof.Machine
end

section
/-! PROOF of O56 (10_state.md R51, 20_memory.md R61, 43_controller_events.md R171). `exec_env` says what an environment step
changes; left are the two registers of the controller that such a step changes in one direction only. -/

namespace Sys2Proof.Machine

/-- A frame from the bus is put behind those the receive FIFO holds, or nowhere (R174, R176). -/
theorem frameArrives_hwrx (g : CanFrame) (s : State) : s.ctl.hwrx <+: (frameArrives g s).ctl.hwrx := by
  rw [frameArrives_eq]
  split
  · split
    · exact List.prefix_append _ _
    · exact List.prefix_refl _
  · exact List.prefix_refl _

theorem frameArrives_txReq (g : CanFrame) (s : State) : (frameArrives g s).ctl.txReq = s.ctl.txReq := by
  rw [frameArrives_eq]
  split
  · split <;> rfl
  · rfl

/-- An event that is offered has its effect `u`, or, while it is disabled, none (R171). -/
theorem event_eq_next {enabled : Bool} {s t u : State} (h : (if enabled then .next u else .next s : Res State) = .next t) :
    t = u ∨ t = s := by
  split at h <;> cases h
  · exact .inl rfl
  · exact .inr rfl

/-- An environment step takes no frame out of the receive FIFO, and asserts no transmit request. -/
theorem exec_env_fifo {i : Instr} {s t : State} (hi : isEnv i = true) (h : exec i s = .next t) :
    s.ctl.hwrx <+: t.ctl.hwrx ∧ (t.ctl.txReq = true → s.ctl.txReq = true) := by
  cases i <;> simp [isEnv, Instr.agent] at hi
  case evRxframe g => cases h; exact ⟨frameArrives_hwrx g s, by simp [frameArrives_txReq]⟩
  case evTxdone =>
    obtain rfl | rfl := event_eq_next h
    · exact ⟨List.prefix_refl _, nofun⟩
    · exact ⟨List.prefix_refl _, id⟩
  case evClk b => cases h; exact ⟨List.prefix_refl _, id⟩
  case evErrcnt a b => obtain rfl | rfl := event_eq_next h <;> exact ⟨List.prefix_refl _, id⟩
  case evBusoff => obtain rfl | rfl := event_eq_next h <;> exact ⟨List.prefix_refl _, id⟩
  case evThl => obtain rfl | rfl := event_eq_next h <;> exact ⟨List.prefix_refl _, id⟩
  case evDlcerr => obtain rfl | rfl := event_eq_next h <;> exact ⟨List.prefix_refl _, id⟩
  case isr => obtain rfl | rfl := event_eq_next h <;> exact ⟨List.prefix_refl _, id⟩

/-- Settles O56. -/
theorem environmentStepsLeaveTheDriverAlone : Obligations.EnvironmentStepsLeaveTheDriverAlone := fun i s hi => by
  obtain ⟨t, ht⟩ := exec_env_next i s hi
  have hstep := exec_env hi ht
  exact ⟨t, ht, hstep.same, hstep.ctl, exec_env_fifo hi ht⟩

end Sys2Proof.Machine
end

section
/-! PROOF of O43 and O44: power-on reset (10_state.md R58, 70_reset_and_hazards.md R220). -/

namespace Sys2Proof.Machine

/-- Settles O43: each listed value is the one `State.resetWith` names. -/
theorem resetGivesTheListedValues : Obligations.ResetGivesTheListedValues := by
  rintro c d s rfl
  simp [State.resetWith, Ctl.resetWith]

/-- Reset leaves the buffers drawn with both indices at 0, the receive FIFO empty and no filter rule installed. -/
theorem resetWith_sound {c : Config} {d : ResetDraws} (hc : c.sizesOk = true)
    (htx : (⟨d.txSlots, 0, 0⟩ : Ring).Sound c.cTx) (hrx : (⟨d.rxSlots, 0, 0⟩ : Ring).Sound c.cRx) :
    (State.resetWith c d).Sound :=
  ⟨hc, htx, hrx, Nat.zero_le _, Nat.zero_le _⟩

/-- After reset the machine is in Init with no DRV inside a request, so R161 asks nothing of the controller. -/
theorem resetWith_lifecycle (c : Config) (d : ResetDraws) : (State.resetWith c d).Lifecycle :=
  ⟨nofun, nofun, .inl rfl⟩

/-- Settles O44. -/
theorem resetIsSound : Obligations.ResetIsSound := fun c d hc htx hrx =>
  ⟨resetWith_sound hc htx hrx, resetWith_lifecycle c d, rfl, Ring.queue_of_empty rfl, Ring.queue_of_empty rfl, rfl, rfl,
    rfl⟩

end Sys2Proof.Machine
end

section
/-! PROOF of O53 (10_state.md R21, R23, R25, R51; 20_memory.md R61). With nothing scheduled inside it each request makes
one kind of move on the two buffers (`RingMove`), which `exec_ringMove` reads off request by request. -/

namespace Sys2Proof.Machine

/-! What leaves both buffers alone. -/

/-- Both buffers, and what is scheduled, are as before. -/
structure SameRings (s t : State) : Prop where
  tx : t.txf = s.txf
  rx : t.rxr = s.rxr
  sched : t.sched = s.sched

theorem SameRings.refl (s : State) : SameRings s s := ⟨rfl, rfl, rfl⟩

theorem SameRings.trans {s t u : State} (h : SameRings s t) (h' : SameRings t u) : SameRings s u :=
  ⟨h'.tx.trans h.tx, h'.rx.trans h.rx, h'.sched.trans h.sched⟩

theorem answer_sameRings (i : Instr) (ws : List Word) (s : State) : SameRings s (answer i ws s) := ⟨rfl, rfl, rfl⟩

theorem answerProgress_sameRings (c : DrvCall) (p : Progress) (s : State) : SameRings s (answerProgress c p s) := by
  cases p <;> exact ⟨rfl, rfl, rfl⟩

theorem finishTick_sameRings (s : State) : SameRings s (finishTick s) := by
  unfold finishTick; split <;> exact ⟨rfl, rfl, rfl⟩

theorem enterActiveOn_sameRings (p : Progress) (s : State) : SameRings s (enterActiveOn p s) := by
  cases p <;> exact ⟨rfl, rfl, rfl⟩

theorem transmitOne_sameRings (f : CanFrame) (s : State) : SameRings s (transmitOne f s).1 := by
  unfold transmitOne; split <;> exact ⟨rfl, rfl, rfl⟩

theorem receiveFromFifo_sameRings {s : State} {r : State × Option CanFrame} (h : receiveFromFifo s = .next r) :
    SameRings s r.1 := by
  rcases receiveFromFifo_eq_next.1 h with ⟨-, rfl⟩ | ⟨_, _, -, rfl⟩ <;> exact ⟨rfl, rfl, rfl⟩

theorem deliverHri_sameRings (out : Option CanFrame) (s : State) : SameRings s (deliverHri out s) := by
  cases out <;> exact ⟨rfl, rfl, rfl⟩

theorem setBaudRate_sameRings {rate : Byte} {s : State} {r : State × Bool} (h : setBaudRate rate s = .next r) :
    SameRings s r.1 := by
  obtain ⟨-, ⟨v, -, rfl⟩ | ⟨-, rfl⟩⟩ := setBaudRate_eq_next.1 h <;> exact ⟨rfl, rfl, rfl⟩

theorem configureFilters_sameRings {s t : State} (h : configureFilters s = .next t) : SameRings s t := by
  obtain ⟨-, -, rfl⟩ := configureFilters_eq_next.1 h; exact ⟨rfl, rfl, rfl⟩

theorem finishInit_sameRings {m r : Byte} {fd : Bool} {s : State} {p : State × Progress}
    (h : finishInit m r fd s = .next p) : SameRings s p.1 := by
  rw [finishInit_eq] at h
  split at h <;> cases h <;> exact ⟨rfl, rfl, rfl⟩

/-! The calls of DRV, with nothing scheduled inside. -/

theorem receiveOne_sameRings {s : State} {r : State × Option CanFrame} (hs : s.sched = [])
    (h : receiveOne s = .next r) : SameRings s r.1 := by
  obtain ⟨u, hu, hr⟩ := receiveOne_eq_next.1 h
  rw [boundary_nil (s := s.setRxip false) hs] at hu
  cases hu
  exact SameRings.trans (t := s.setRxip false) ⟨rfl, rfl, rfl⟩ (receiveFromFifo_sameRings hr)

/-- The clock wait by itself only reads. -/
theorem clockWait_alone {s : State} {w : State × Progress} (hs : s.sched = []) (h : clockWait s = .next w) : w.1 = s := by
  unfold clockWait at h
  split at h
  · cases h; rfl
  · rw [pollClock_alone hs] at h; cases h; rfl
  · cases h; rfl

theorem afterClock_sameRings {m r : Byte} {fd : Bool} {w p : State × Progress} (hs : w.1.sched = [])
    (h : afterClock m r fd w = .next p) : SameRings w.1 p.1 := by
  unfold afterClock at h
  split at h
  · rw [boundary_nil hs] at h; exact finishInit_sameRings h
  · cases h; exact ⟨rfl, rfl, rfl⟩
  · cases h; exact ⟨rfl, rfl, rfl⟩

theorem initHardware_sameRings {m r : Byte} {fd : Bool} {s : State} {p : State × Progress} (hs : s.sched = [])
    (h : initHardware m r fd s = .next p) : SameRings s p.1 := by
  obtain ⟨-, -, w, hw, hp⟩ := initHardware_eq_next.1 h
  have hw1 : w.1 = s.setModSel m := clockWait_alone (s := s.setModSel m) hs hw
  have hwp := afterClock_sameRings (by rw [hw1]; exact hs) hp
  rw [hw1] at hwp
  exact SameRings.trans (t := s.setModSel m) ⟨rfl, rfl, rfl⟩ hwp

/-- Both buffers are emptied by their indices, cells kept (R112). -/
structure RingsEmptied (s t : State) : Prop where
  tx : t.txf = { s.txf with wr := 0, rd := 0 }
  rx : t.rxr = { s.rxr with wr := 0, rd := 0 }

theorem RingsEmptied.sameRings {s t u : State} (h : RingsEmptied s t) (h' : SameRings t u) : RingsEmptied s u :=
  ⟨h'.tx.trans h.tx, h'.rx.trans h.rx⟩

theorem initBuffers_emptied {s t : State} (h : SameRings s t) : RingsEmptied s (initBuffers t) := by
  constructor <;> simp [initBuffers, h.tx, h.rx]

/-- DRVINIT empties both buffers, or is stuck in its HWINIT with both untouched (R152, R122). -/
theorem initDriver_rings {s : State} {p : State × Progress} (hs : s.sched = []) (h : initDriver s = .next p) :
    SameRings s p.1 ∨ RingsEmptied s p.1 := by
  obtain ⟨r, hr, hp⟩ := andThen_eq_next.1 h
  have hsr := initHardware_sameRings hs hr
  have hr0 : r.1.sched = [] := hsr.sched.trans hs
  unfold afterHardware at hp
  rw [boundary_nil hr0] at hp
  split at hp <;> cases hp
  · exact .inl hsr
  · exact .inr (initBuffers_emptied hsr)
  · exact .inr (initBuffers_emptied hsr)

/-- What DRV's own part in both buffers leaves alone: TXF's write side and RXR's read side (R23, R61). -/
structure DrvMove (s t : State) : Prop where
  txWr : t.txf.wr = s.txf.wr
  txSlots : t.txf.slots = s.txf.slots
  rxRd : t.rxr.rd = s.rxr.rd
  sched : t.sched = s.sched

theorem DrvMove.refl (s : State) : DrvMove s s := ⟨rfl, rfl, rfl, rfl⟩

theorem DrvMove.trans {s t u : State} (h : DrvMove s t) (h' : DrvMove t u) : DrvMove s u :=
  ⟨h'.txWr.trans h.txWr, h'.txSlots.trans h.txSlots, h'.rxRd.trans h.rxRd, h'.sched.trans h.sched⟩

theorem SameRings.drvMove {s t : State} (h : SameRings s t) : DrvMove s t :=
  ⟨by rw [h.tx], by rw [h.tx], by rw [h.rx], h.sched⟩

theorem drainTransmit_drvMove {s : State} {r : State × Status} (h : drainTransmit s = .next r) :
    DrvMove s r.1 ∧ r.1.rxr = s.rxr := by
  rcases drainTransmit_eq_next.1 h with ⟨-, rfl⟩ | ⟨-, -, -, rfl⟩ | ⟨-, -, -, rfl⟩ <;> exact ⟨⟨rfl, rfl, rfl, rfl⟩, rfl⟩

theorem fillReceive_drvMove {s : State} {r : State × Status} (hs : s.sched = []) (h : fillReceive s = .next r) :
    DrvMove s r.1 ∧ r.1.txf = s.txf := by
  rcases fillReceive_eq_next.1 h with ⟨-, rfl⟩ | ⟨-, u, hu, hr⟩
  · exact ⟨.refl s, rfl⟩
  · rw [boundary_nil (s := s.setRxip false) hs] at hu
    cases hu
    rcases hr with ⟨-, rfl⟩ | ⟨g, rest, -, -, rfl⟩ <;> exact ⟨⟨rfl, rfl, rfl, rfl⟩, rfl⟩

theorem fillBurst_drvMove {n : Nat} {s t : State} (hs : s.sched = []) (h : fillBurst n s = .next t) : DrvMove s t := by
  induction n generalizing s with
  | zero => cases h; exact .refl _
  | succ m ih =>
    rw [fillBurst, boundary_nil hs, andThen_next] at h
    obtain ⟨r, hr, h⟩ := andThen_eq_next.1 h
    have hsr := (fillReceive_drvMove hs hr).1
    split at h
    · exact hsr.trans (ih (hsr.sched.trans hs) h)
    · cases h; exact hsr

theorem busError_sameRings {s : State} {e : State × Bool} (hs : s.sched = []) (h : busError s = .next e) :
    SameRings s e.1 := by
  unfold busError at h
  rw [boundary_nil hs] at h
  split at h <;> cases h
  · exact .refl s
  · exact ⟨rfl, rfl, rfl⟩

theorem cycleActive_drvMove {s t : State} (hs : s.sched = []) (h : cycleActive s = .next t) : DrvMove s t := by
  obtain ⟨d, hd, h⟩ := andThen_eq_next.1 h
  obtain ⟨u, hu, h⟩ := andThen_eq_next.1 h
  obtain ⟨e, he, h⟩ := andThen_eq_next.1 h
  have hsd := (drainTransmit_drvMove hd).1
  have hsu := hsd.trans (fillBurst_drvMove (hsd.sched.trans hs) hu)
  have hse := hsu.trans (busError_sameRings (hsu.sched.trans hs) he).drvMove
  cases h
  split
  · exact hse.trans ⟨rfl, rfl, rfl, rfl⟩
  · exact hse

/-! The moves of the requests. -/

/-- The move that the request `i` makes on the two buffers, from `s` to `t`. -/
inductive RingMove (i : Instr) (s t : State) : Prop
  /-- no index and no cell changes -/
  | keep (tx : t.txf = s.txf) (rx : t.rxr = s.rxr)
  /-- ENQTX moves TXF's write side (R100) -/
  | enqueue (f : CanFrame) (hi : i = .enqtx f) (txRd : t.txf.rd = s.txf.rd) (rx : t.rxr = s.rxr)
  /-- DEQRX moves RXR's read-pointer (R109) -/
  | dequeue (hi : i = .deqrx) (tx : t.txf = s.txf) (rx : t.rxr = { s.rxr with rd := t.rxr.rd })
  /-- DRAINTX moves TXF's read-pointer (R103) -/
  | drain (hi : i = .draintx) (drv : DrvMove s t) (rx : t.rxr = s.rxr)
  /-- FILLRX moves RXR's write side (R106) -/
  | fill (hi : i = .fillrx) (drv : DrvMove s t) (tx : t.txf = s.txf)
  /-- BUFINIT, or one of the two requests that call it, empties both buffers (R112, R151, R152) -/
  | empty (hi : i = .bufinit ∨ i = .drvinit ∨ (i = .tick ∧ s.ds = .init)) (reset : RingsEmptied s t)
  /-- a TICK in ActiveOperation drains and fills (R154, R155) -/
  | cycle (hi : i = .tick) (hds : s.ds = .activeOperation) (drv : DrvMove s t)

theorem SameRings.ringMove {i : Instr} {s t : State} (h : SameRings s t) : RingMove i s t := .keep h.tx h.rx

theorem EnvStep.ringMove {i : Instr} {s t : State} (h : EnvStep s t) : RingMove i s t :=
  .keep (by rw [h.same]) (by rw [h.same])

/-- A request that ends in what leaves the buffers alone makes the move that its work made. -/
theorem RingMove.sameRings {i : Instr} {s t u : State} (h : RingMove i s t) (h' : SameRings t u) : RingMove i s u := by
  cases h with
  | keep tx rx => exact .keep (h'.tx.trans tx) (h'.rx.trans rx)
  | enqueue f hi txRd rx => exact .enqueue f hi (by rw [h'.tx, txRd]) (h'.rx.trans rx)
  | dequeue hi tx rx => exact .dequeue hi (h'.tx.trans tx) (by rw [h'.rx]; exact rx)
  | drain hi drv rx => exact .drain hi (drv.trans h'.drvMove) (h'.rx.trans rx)
  | fill hi drv tx => exact .fill hi (drv.trans h'.drvMove) (h'.tx.trans tx)
  | empty hi reset => exact .empty hi (reset.sameRings h')
  | cycle hi hds drv => exact .cycle hi hds (drv.trans h'.drvMove)

/-- The work of a TICK: a shutdown leaves the buffers alone, and so does a recovery (R157, R158). -/
theorem periodicTask_ringMove {s t : State} (hs : s.sched = []) (h : periodicTask s = .next t) : RingMove .tick s t := by
  unfold periodicTask at h
  split at h
  · cases h; exact .keep rfl rfl
  · unfold cycleWork at h
    split at h
    case h_1 hds =>
      obtain ⟨p, hp, h⟩ := andThen_eq_next.1 h
      cases h
      rcases initDriver_rings hs hp with hsp | hsp
      · exact (hsp.trans (enterActiveOn_sameRings _ _)).ringMove
      · exact .empty (.inr (.inr ⟨rfl, hds⟩)) (hsp.sameRings (enterActiveOn_sameRings _ _))
    case h_2 hds => exact .cycle rfl hds (cycleActive_drvMove hs h)
    case h_3 hds =>
      unfold cycleErrorHandling at h
      split at h
      obtain ⟨p, hp, h⟩ := andThen_eq_next.1 h
      cases h
      exact ((initHardware_sameRings hs hp).trans (enterActiveOn_sameRings _ _)).ringMove
    case h_4 hds => cases h; exact .keep rfl rfl

/-- What each request does to the two buffers, with nothing scheduled inside it. -/
theorem exec_ringMove {i : Instr} {s t : State} (hs : s.sched = []) (h : exec i s = .next t) : RingMove i s t := by
  cases i with
  | enqtx f =>
    obtain ⟨r, hr, h⟩ := andThen_eq_next.1 h
    rcases enqueueTransmit_eq_next.1 hr with ⟨-, rfl⟩ | ⟨-, -, rfl⟩ <;> cases h <;> exact .enqueue f rfl rfl rfl
  | deqrx =>
    obtain ⟨r, hr, h⟩ := andThen_eq_next.1 h
    rcases dequeueReceive_eq_next.1 hr with ⟨-, rfl⟩ | ⟨-, -, rfl⟩ <;> cases h <;> exact .dequeue rfl rfl rfl
  | tick =>
    obtain ⟨u, hu, h⟩ := andThen_eq_next.1 (drvRequest_eq_next.1 h).2
    cases h; exact (periodicTask_ringMove hs hu).sameRings (finishTick_sameRings u)
  | reqshut => cases h; exact .keep rfl rfl
  | draintx =>
    obtain ⟨r, hr, h⟩ := andThen_eq_next.1 (drvRequest_eq_next.1 h).2
    obtain ⟨hdrv, hrx⟩ := drainTransmit_drvMove hr
    cases h; exact (RingMove.drain rfl hdrv hrx).sameRings (answer_sameRings _ _ _)
  | fillrx =>
    obtain ⟨r, hr, h⟩ := andThen_eq_next.1 (drvRequest_eq_next.1 h).2
    obtain ⟨hdrv, htx⟩ := fillReceive_drvMove hs hr
    cases h; exact (RingMove.fill rfl hdrv htx).sameRings (answer_sameRings _ _ _)
  | bufinit =>
    cases (drvRequest_eq_next.1 h).2
    exact (RingMove.empty (.inl rfl) (initBuffers_emptied (.refl s))).sameRings (answer_sameRings _ _ _)
  | drvinit =>
    obtain ⟨p, hp, h⟩ := andThen_eq_next.1 (drvRequest_eq_next.1 h).2
    cases h
    rcases initDriver_rings hs hp with hsp | hsp
    · exact (hsp.trans (answerProgress_sameRings _ _ _)).ringMove
    · exact .empty (.inr (.inl rfl)) (hsp.sameRings (answerProgress_sameRings _ _ _))
  | hwinit m r fd =>
    obtain ⟨p, hp, h⟩ := andThen_eq_next.1 (drvRequest_eq_next.1 h).2
    cases h; exact ((initHardware_sameRings hs hp).trans (answerProgress_sameRings _ _ _)).ringMove
  | setbaud r =>
    obtain ⟨p, hp, h⟩ := andThen_eq_next.1 (drvRequest_eq_next.1 h).2
    cases h; exact (setBaudRate_sameRings hp).ringMove.sameRings ⟨rfl, rfl, rfl⟩
  | cfgflt =>
    obtain ⟨u, hu, h⟩ := andThen_eq_next.1 (drvRequest_eq_next.1 h).2
    cases h; exact (configureFilters_sameRings hu).ringMove.sameRings ⟨rfl, rfl, rfl⟩
  | tx1 f =>
    cases (drvRequest_eq_next.1 h).2
    exact ((transmitOne_sameRings f s).trans (answer_sameRings _ _ _)).ringMove
  | rx1 =>
    obtain ⟨r, hr, h⟩ := andThen_eq_next.1 (drvRequest_eq_next.1 h).2
    cases h; exact ((receiveOne_sameRings hs hr).trans (deliverHri_sameRings _ _)).ringMove
  | geterr => cases (drvRequest_eq_next.1 h).2; exact .keep rfl rfl
  | deinit => cases (drvRequest_eq_next.1 h).2; exact .keep rfl rfl
  | evClk b => exact (exec_env rfl h).ringMove
  | evTxdone => exact (exec_env rfl h).ringMove
  | evRxframe g => exact (exec_env rfl h).ringMove
  | evErrcnt a b => exact (exec_env rfl h).ringMove
  | evBusoff => exact (exec_env rfl h).ringMove
  | evThl => exact (exec_env rfl h).ringMove
  | evDlcerr => exact (exec_env rfl h).ringMove
  | isr => exact (exec_env rfl h).ringMove

/-- Settles O53, move by move. -/
theorem eachIndexHasItsWriter : Obligations.EachIndexHasItsWriter := fun i s t hs h => by
  cases exec_ringMove hs h with
  | keep tx rx => simp [tx, rx]
  | enqueue f hi txRd rx => simp [hi, txRd, rx]
  | dequeue hi tx rx => rw [rx]; simp [hi, tx]
  | drain hi drv rx => simp [hi, drv.txWr, drv.txSlots, rx]
  | fill hi drv tx => simp [hi, drv.rxRd, tx]
  | empty hi reset => rcases hi with rfl | rfl | ⟨rfl, hds⟩ <;> simp [*, reset.tx, reset.rx]
  | cycle hi hds drv => simp [hi, hds, drv.txWr, drv.txSlots, drv.rxRd]

end Sys2Proof.Machine
end

section
/-! PROOF of O59 (40_buffer_ops.md R100 to R102, R105, R108, R109, R111). Each of the four buffer requests stores at a
write-pointer or advances a read-pointer, so the laws of `Ring.queue` say what it does to the queue. -/

namespace Sys2Proof.Machine

/-- The first `n` bytes of a copy of `n` bytes are the source's. -/
theorem copyBytes_take (n : Nat) (src dst : Payload) : (copyBytes n src dst).bytes.take n = src.bytes.take n := by
  rcases n with _ | _ | _ | _ | _ | _ | _ | _ | n <;> simp [copyBytes, Payload.bytes]

/-- ENQTX appends to the queue unless that holds `C_TX - 1` frames (R101, R102). -/
theorem enqtx_queue {f : CanFrame} {s t : State} (hs : s.IndicesInRange) (h : exec (.enqtx f) s = .next t) :
    t.txQueue = if s.txQueue.length = s.cfg.cTx - 1 then s.txQueue
      else s.txQueue ++ [enqueuedCell f (s.cell .transmit s.txf.wr)] := by
  have hfull : s.txf.isFull s.cfg.cTx = true ↔ s.txQueue.length = s.cfg.cTx - 1 := Ring.isFull_iff_queue hs.1
  obtain ⟨r, hr, h⟩ := andThen_eq_next.1 h
  rcases enqueueTransmit_eq_next.1 hr with ⟨hf, rfl⟩ | ⟨hf, -, rfl⟩ <;> cases h
  · rw [if_pos (hfull.1 hf)]; rfl
  · rw [if_neg (by simp [← hfull, hf])]; exact Ring.queue_store hs.1 hf _

/-- DRAINTX takes the oldest frame if the mailbox is free; an empty queue has none (R104, R105). -/
theorem draintx_queue {s t : State} (hs : s.IndicesInRange) (h : exec .draintx s = .next t) :
    t.txQueue = if s.ctl.txReq = true then s.txQueue else s.txQueue.tail := by
  obtain ⟨r, hr, h⟩ := andThen_eq_next.1 (drvRequest_eq_next.1 h).2
  rcases drainTransmit_eq_next.1 hr with ⟨he, rfl⟩ | ⟨he, -, hq, rfl⟩ | ⟨-, -, hq, rfl⟩ <;> cases h
  · have hnil : s.txQueue = [] := Ring.queue_of_empty (Ring.isEmpty_iff.1 he)
    simp only [hnil, List.tail_nil, ite_self]; exact hnil
  · have hcons : s.txQueue = _ := Ring.queue_eq_cons hs.1 he
    rw [if_neg (by simp [hq]), hcons]; rfl
  · rw [if_pos hq]; rfl

/-- FILLRX appends the oldest frame of the controller's FIFO, if there is one and there is room (R107, R108, R138). -/
theorem fillrx_queue {s t : State} (hs : s.IndicesInRange) (halone : s.sched = []) (h : exec .fillrx s = .next t) :
    t.rxQueue = if s.rxQueue.length = s.cfg.cRx - 1 then s.rxQueue
      else s.rxQueue ++ (s.ctl.hwrx.take 1).map delivered := by
  have hfull : s.rxr.isFull s.cfg.cRx = true ↔ s.rxQueue.length = s.cfg.cRx - 1 := Ring.isFull_iff_queue hs.2
  obtain ⟨r, hr, h⟩ := andThen_eq_next.1 (drvRequest_eq_next.1 h).2
  rcases fillReceive_eq_next.1 hr with ⟨hf, rfl⟩ | ⟨hf, u, hu, hr⟩
  · cases h; rw [if_pos (hfull.1 hf)]; rfl
  · rw [if_neg (by simp [← hfull, hf])]
    rw [boundary_nil (s := s.setRxip false) halone] at hu
    cases hu
    rcases hr with ⟨hq, rfl⟩ | ⟨g, rest, hq, -, rfl⟩ <;> cases h
    · have hnil : s.ctl.hwrx = [] := hq
      rw [hnil]; exact (List.append_nil _).symm
    · have hcons : s.ctl.hwrx = g :: rest := hq
      rw [hcons]; exact Ring.queue_store hs.2 hf (delivered g)

/-- DEQRX takes the oldest frame and leaves it in the caller's output; an empty queue has none (R109 to R111). -/
theorem deqrx_queue {s t : State} (hs : s.IndicesInRange) (h : exec .deqrx s = .next t) :
    t.rxQueue = s.rxQueue.tail ∧ ∀ g, s.rxQueue.head? = some g → t.appOut = dequeuedFrame g s.appOut := by
  obtain ⟨r, hr, h⟩ := andThen_eq_next.1 h
  rcases dequeueReceive_eq_next.1 hr with ⟨he, rfl⟩ | ⟨he, -, rfl⟩ <;> cases h
  · have hnil : s.rxQueue = [] := Ring.queue_of_empty (Ring.isEmpty_iff.1 he)
    rw [hnil]; exact ⟨hnil, nofun⟩
  · have hcons : s.rxQueue = _ := Ring.queue_eq_cons hs.2 he
    rw [hcons]
    refine ⟨rfl, fun g hg => ?_⟩
    cases hg; rfl

/-- What ENQTX stores of a frame: its identifier, its clamped `dlc` and that many payload bytes (R100, R101). -/
theorem enqueuedCell_spec (f old : CanFrame) :
    (enqueuedCell f old).id = f.id ∧ (enqueuedCell f old).dlc.toNat = min f.dlc.toNat 8 ∧
      (enqueuedCell f old).data.bytes.take (min f.dlc.toNat 8) = f.data.bytes.take (min f.dlc.toNat 8) := by
  refine ⟨rfl, clampDlc_toNat _, ?_⟩
  rw [← clampDlc_toNat]
  exact copyBytes_take _ _ _

/-- Settles O59. -/
theorem buffersRefineBoundedQueues : Obligations.BuffersRefineBoundedQueues := fun s t hsound => by
  have hs := hsound.indicesInRange
  refine ⟨Ring.queue_length_le hs.1, Ring.queue_length_le hs.2, fun f h => ?_, draintx_queue hs, fillrx_queue hs,
    fun h => ?_⟩
  · rw [enqtx_queue hs h]
    split
    · rfl
    · exact ⟨_, rfl, enqueuedCell_spec f _⟩
  · obtain ⟨htail, hout⟩ := deqrx_queue hs h
    refine ⟨htail, fun g hg => ?_⟩
    rw [hout g hg]
    exact ⟨rfl, rfl, copyBytes_take _ _ _⟩

end Sys2Proof.Machine
end

section
/-! PROOF of O5 (20_memory.md R70, 30_encoding.md R89, 41_hri_ops.md R122). The step as equations: DRV goes on where it can,
else the request that `inbox` begins with is served, or the machine waits. -/

namespace Sys2Proof.Machine

theorem barredInside_iff {i : Instr} : barredInside i = true ↔ i = .deqrx ∨ i = .reqshut := by
  cases i <;> simp [barredInside]

/-- A DEQRX or REQSHUT that arrives while DRV is inside a request is refused (20_memory.md R71 (h); log 9). -/
theorem serveRequest_barred {i : Instr} {s : State} (hd : s.drvWait ≠ none) (hb : barredInside i = true) :
    serveRequest i s = .refused .taskStepInsideOperation := by
  simp [serveRequest, Option.isSome_iff_ne_none.2 hd, hb]

theorem step_of_ready {s : State} {c : DrvCall} (hc : s.ctl.clkStable = true) (hd : s.drvWait = some c) :
    step s = goOn c s := by
  simp only [step, serveNext, readyCall_eq_some.2 ⟨hc, hd⟩]

theorem step_of_not_ready {s : State} (hn : s.ctl.clkStable = true → s.drvWait = none) : step s = serveInbox s := by
  simp only [step, serveNext, readyCall_eq_none.2 hn]

theorem serveInbox_of_decode {s : State} {i : Instr} {rest : List Word} (hi : decode s.inbox = .ok i rest) :
    serveInbox s = serveRequest i (s.setInbox rest) := by
  unfold serveInbox
  cases hw : s.inbox with
  | nil => rw [hw] at hi; cases hi
  | cons w ws => simp only [fetch, hi, andThen_next]

theorem serveInbox_of_empty {s : State} (hi : s.inbox = []) : serveInbox s = .next s := by
  simp only [serveInbox, hi]

/-- Where no DRV can go on, the step serves the request that the words of `inbox` begin with. -/
theorem step_of_decode {s : State} {i : Instr} {rest : List Word} (hn : s.ctl.clkStable = true → s.drvWait = none)
    (hi : decode s.inbox = .ok i rest) : step s = serveRequest i (s.setInbox rest) := by
  rw [step_of_not_ready hn, serveInbox_of_decode hi]

/-- DRV goes on with its request where the clock is still stable behind the boundary `u`. -/
theorem goOn_of_stable {c : DrvCall} {s u : State} (hu : boundary .insideOperation s = .next u)
    (hc : u.ctl.clkStable = true) : goOn c s = resumeRequest c u := by
  simp [goOn, hu, hc]

/-- DRV is stuck again where the clock's flag was cleared at the boundary `u`. -/
theorem goOn_of_unstable {c : DrvCall} {s u : State} (hu : boundary .insideOperation s = .next u)
    (hc : u.ctl.clkStable = false) : goOn c s = .next u := by
  simp [goOn, hu, hc]

/-- Settles O5. -/
theorem stepServesTheNextRequest : Obligations.StepServesTheNextRequest := by
  refine ⟨fun s i rest hn hi => ⟨fun hfree => ?_, fun ⟨hd, hb⟩ => ?_⟩, fun s hn hi => ?_, fun s c hc hd henv => ?_⟩
  · rw [step_of_decode hn hi]
    refine serveRequest_free (s := s.setInbox rest) (hfree.imp_right fun hi => ?_)
    simpa [← barredInside_iff] using hi
  · rw [step_of_decode hn hi]
    exact serveRequest_barred (s := s.setInbox rest) hd (barredInside_iff.2 (by simpa using hb))
  · rw [step_of_not_ready hn, serveInbox_of_empty hi]
  · obtain ⟨u, hu⟩ := boundary_env_next .insideOperation s henv
    rw [step_of_ready hc hd]
    refine ⟨u, hu, fun hs => ?_, goOn_of_stable hu, goOn_of_unstable hu⟩
    rw [boundary_nil hs] at hu
    cases hu; rfl

end Sys2Proof.Machine
end

section
/-! PROOF of O55 (20_memory.md R71 (h), R73; 41_hri_ops.md R122, R146; 70_reset_and_hazards.md R232, R241; log 9, log 12).
Who may step at a boundary is read off `interject`; that a DRV with a step of its own comes before every request is seen on
`inbox`, which nothing that goes on inside a request touches. -/

namespace Sys2Proof.Machine

/-! SCHED and DRV are neither the environment nor a task, and do not overlap. -/

theorem isEnv_of_driver {i : Instr} (h : i.agent = .sched ∨ i.agent = .drv) : isEnv i = false := by
  rcases h with h | h <;> simp [isEnv, h]

theorem isTask_of_driver {i : Instr} (h : i.agent = .sched ∨ i.agent = .drv) : isTask i = false := by
  rcases h with h | h <;> simp [isTask, h]

theorem drvRequest_busy {s : State} (h : s.drvWait ≠ none) (r : Res State) :
    drvRequest s r = .refused .overlappingRequest := by
  simp [drvRequest, Option.isSome_iff_ne_none.2 h]

/-- A request of SCHED or DRV that arrives while DRV is inside another has no meaning (R73). -/
theorem exec_driver_busy {i : Instr} {s : State} (hi : i.agent = .sched ∨ i.agent = .drv) (h : s.drvWait ≠ none) :
    exec i s = .refused .overlappingRequest := by
  cases i <;> simp [Instr.agent] at hi <;> exact drvRequest_busy h _

/-- The environment's and the interrupt's steps, and ENQTX, are not barred while DRV is stuck (R71 (h), R232). -/
theorem barredInside_of_env_or_enqtx {i : Instr} (h : isEnv i = true ∨ ∃ f, i = .enqtx f) : barredInside i = false := by
  rcases h with h | ⟨f, rfl⟩
  · cases i <;> simp [isEnv, Instr.agent] at h <;> rfl
  · rfl

/-! What goes on inside a request takes no word out of `inbox`. -/

theorem interjectAll_inbox {k : Boundary} {steps : List Instr} {s t : State} (h : interjectAll k steps s = .next t) :
    t.inbox = s.inbox := by
  induction steps generalizing s with
  | nil => cases h; rfl
  | cons i rest ih =>
    obtain ⟨u, hu, ht⟩ := andThen_eq_next.1 h
    rw [ih ht]
    obtain ⟨he, hi | ⟨hi, -⟩⟩ := interject_eq_next hu
    · rw [(exec_env hi he).same]
    · rw [(exec_task hi he).same]

theorem boundary_inbox {k : Boundary} {s t : State} (h : boundary k s = .next t) : t.inbox = s.inbox := by
  cases hs : s.sched with
  | nil => rw [boundary_nil hs] at h; cases h; rfl
  | cons steps later => rw [boundary_cons hs] at h; rw [interjectAll_inbox h]; rfl

theorem finishInit_inbox {m r : Byte} {fd : Bool} {s : State} {p : State × Progress}
    (h : finishInit m r fd s = .next p) : p.1.inbox = s.inbox := by
  rw [finishInit_eq] at h
  split at h <;> cases h <;> rfl

/-- The boundary inside HWINIT, then steps 3 to 10. -/
theorem resumeHardware_inbox {m r : Byte} {fd : Bool} {s : State} {p : State × Progress}
    (h : resumeHardware m r fd s = .next p) : p.1.inbox = s.inbox := by
  obtain ⟨u, hu, hp⟩ := andThen_eq_next.1 h
  rw [finishInit_inbox hp, boundary_inbox hu]; rfl

theorem afterHardware_inbox {r p : State × Progress} (h : afterHardware r = .next p) : p.1.inbox = r.1.inbox := by
  unfold afterHardware at h
  split at h
  · cases h; rfl
  · obtain ⟨u, hu, h⟩ := andThen_eq_next.1 h
    cases h; exact boundary_inbox (t := u) hu
  · obtain ⟨u, hu, h⟩ := andThen_eq_next.1 h
    cases h; exact boundary_inbox (t := u) hu

theorem answerProgress_inbox (c : DrvCall) (p : Progress) (s : State) : (answerProgress c p s).inbox = s.inbox := by
  cases p <;> rfl

theorem finishTick_inbox (s : State) : (finishTick s).inbox = s.inbox := by
  unfold finishTick; split <;> rfl

theorem enterActiveOn_inbox (p : Progress) (s : State) : (enterActiveOn p s).inbox = s.inbox := by
  cases p <;> rfl

theorem resumeRequest_inbox {c : DrvCall} {s t : State} (h : resumeRequest c s = .next t) : t.inbox = s.inbox := by
  unfold resumeRequest at h
  split at h
  · obtain ⟨r, hr, h⟩ := andThen_eq_next.1 h
    cases h; rw [answerProgress_inbox, resumeHardware_inbox hr]
  · obtain ⟨r, hr, h⟩ := andThen_eq_next.1 h
    obtain ⟨d, hd, h⟩ := andThen_eq_next.1 h
    cases h; rw [answerProgress_inbox, afterHardware_inbox hd, resumeHardware_inbox hr]
  · split at h
    · obtain ⟨r, hr, h⟩ := andThen_eq_next.1 h
      obtain ⟨d, hd, h⟩ := andThen_eq_next.1 h
      cases h; rw [finishTick_inbox, enterActiveOn_inbox, afterHardware_inbox hd, resumeHardware_inbox hr]
    · obtain ⟨r, hr, h⟩ := andThen_eq_next.1 h
      cases h; rw [finishTick_inbox, enterActiveOn_inbox, resumeHardware_inbox hr]
    · cases h; rfl
    · cases h; rfl

theorem goOn_inbox {c : DrvCall} {s t : State} (h : goOn c s = .next t) : t.inbox = s.inbox := by
  obtain ⟨u, hu, ⟨-, h⟩ | ⟨-, rfl⟩⟩ := goOn_eq_next.1 h
  · rw [resumeRequest_inbox h, boundary_inbox hu]
  · exact boundary_inbox hu

/-- Settles O55. -/
theorem boundariesAdmitTheRightAgents : Obligations.BoundariesAdmitTheRightAgents := fun i s => by
  refine ⟨fun hi k => interject_env s hi, fun hi => ⟨interject_task _ s hi, interject_task _ s hi⟩,
    fun hi => ⟨fun k => interject_overlapping k s (isEnv_of_driver hi) (isTask_of_driver hi), exec_driver_busy hi⟩,
    fun c rest hd hdec => ?_⟩
  have hserves (hc : s.ctl.clkStable = false) : step s = serveRequest i (s.setInbox rest) :=
    step_of_decode (by simp [hc]) hdec
  refine ⟨fun hc hi => ?_, fun hc hi => ?_, fun hc t ht => ?_⟩
  · rw [hserves hc]
    exact serveRequest_free (.inr (barredInside_of_env_or_enqtx hi))
  · rw [hserves hc]
    exact serveRequest_barred (s := s.setInbox rest) (by simp [hd]) (barredInside_iff.2 hi)
  · rw [step_of_ready hc hd] at ht
    exact goOn_inbox ht

end Sys2Proof.Machine
end

section
/-! PROOF of O49 and O54 (00_scope.md R9, 20_memory.md R68, R76; 10_state.md R35, R36; log 8). One relation says what an
update may do to CONFIG, to the timing and to the filter table, and which HRI call it has then logged; the closure principle
of Laws/Closure.lean carries it to every step. -/

namespace Sys2Proof.Machine

/-! The calls that a step has logged. -/

/-- HRI_LOG has grown from `s` to `t` by a call that satisfies `P`. -/
def Logged (P : HriCall → Prop) (s t : State) : Prop := ∃ c ∈ t.hriLog.drop s.hriLog.length, P c

theorem Logged.imp {P Q : HriCall → Prop} {s t : State} (h : Logged P s t) (hPQ : ∀ c, P c → Q c) : Logged Q s t := by
  obtain ⟨c, hc, hP⟩ := h
  exact ⟨c, hc, hPQ c hP⟩

/-- A call logged early stands in the log that grows on. -/
theorem Logged.extend {P : HriCall → Prop} {s t u : State} (h : Logged P s t) (htu : t.hriLog <+: u.hriLog) :
    Logged P s u := by
  obtain ⟨c, hc, hP⟩ := h
  obtain ⟨later, hu⟩ := htu
  refine ⟨c, ?_, hP⟩
  rw [← hu, List.drop_append]
  exact List.mem_append_left _ hc

/-- A call logged late is one logged since an earlier state. -/
theorem Logged.since {P : HriCall → Prop} {s t u : State} (h : Logged P t u) (hst : s.hriLog <+: t.hriLog) :
    Logged P s u := by
  obtain ⟨c, hc, hP⟩ := h
  exact ⟨c, (List.drop_sublist_drop_left _ hst.length_le).subset hc, hP⟩

theorem Logged.of_append {P : HriCall → Prop} {s t : State} {c : HriCall} (hlog : t.hriLog = s.hriLog ++ [c])
    (hP : P c) : Logged P s t :=
  ⟨c, by simp [hlog], hP⟩

/-- What holds unless a call was logged, from `s` to `t` and then from `t` to `u`, holds from `s` to `u` unless one was. -/
theorem Logged.or_trans {P : HriCall → Prop} {s t u : State} {A B C : Prop} (hst : s.hriLog <+: t.hriLog)
    (htu : t.hriLog <+: u.hriLog) (h : A ∨ Logged P s t) (h' : A → B ∨ Logged P t u) (hC : A → B → C) :
    C ∨ Logged P s u := by
  rcases h with hA | hlogged
  · exact (h' hA).imp (hC hA) (·.since hst)
  · exact .inr (hlogged.extend htu)

def HriCall.IsHwinit (c : HriCall) : Prop := ∃ m r fd b, c = .hwinit m r fd b

/-- The calls that write CTL.NBT (10_state.md R34). -/
def HriCall.WritesTiming (c : HriCall) : Prop := c.IsHwinit ∨ ∃ r b, c = .setbaud r b

/-- The calls that write the filter table (R36). -/
def HriCall.WritesFilters (c : HriCall) : Prop := c.IsHwinit ∨ ∃ b, c = .cfgflt b

/-! The filter table. -/

/-- The rule registers and their number are as before. -/
def SameFilters (c d : Ctl) : Prop := d.flt = c.flt ∧ d.fltN = c.fltN

theorem SameFilters.trans {c d e : Ctl} (h : SameFilters c d) (h' : SameFilters d e) : SameFilters c e :=
  ⟨h'.1.trans h.1, h'.2.trans h.2⟩

/-- CFGFLT is refused: the table is locked, or the mode is not Configuration (R130). -/
def Ctl.TableClosed (c : Ctl) : Prop := c.fltWe = false ∨ c.mode ≠ .configuration

/-- What may change of the configuration from `s` to `t`, and the calls logged for it. DEINIT unlocks the filter table and
logs no HWINIT, but it leaves Configuration mode, so a closed table stays closed. -/
structure ConfigMove (s t : State) : Prop where
  cfg : t.cfg = s.cfg
  log : s.hriLog <+: t.hriLog
  timing : t.ctl.nbt = s.ctl.nbt ∨ Logged HriCall.WritesTiming s t
  filters : SameFilters s.ctl t.ctl ∨ Logged HriCall.WritesFilters s t
  closed : s.ctl.TableClosed → (SameFilters s.ctl t.ctl ∧ t.ctl.TableClosed) ∨ Logged HriCall.IsHwinit s t

/-- What the configuration is made of: CONFIG, the timing, the filter table with its lock, and the mode that opens it. -/
structure Setup where
  cfg : Config
  nbt : Word
  flt : List FilterReg
  fltN : Nat
  fltWe : Bool
  mode : CtlMode

def State.setup (s : State) : Setup :=
  ⟨s.cfg, s.ctl.nbt, s.ctl.flt, s.ctl.fltN, s.ctl.fltWe, s.ctl.mode⟩

theorem Ctl.TableClosed.of_setup {s t : State} (h : s.ctl.TableClosed) (e : t.setup = s.setup) : t.ctl.TableClosed := by
  have hlock : t.ctl.fltWe = s.ctl.fltWe := congrArg Setup.fltWe e
  have hmode : t.ctl.mode = s.ctl.mode := congrArg Setup.mode e
  unfold Ctl.TableClosed
  rwa [hlock, hmode]

theorem ConfigMove.trans {s t u : State} (h : ConfigMove s t) (h' : ConfigMove t u) : ConfigMove s u where
  cfg := h'.cfg.trans h.cfg
  log := h.log.trans h'.log
  timing := Logged.or_trans h.log h'.log h.timing (fun _ => h'.timing) fun e e' => e'.trans e
  filters := Logged.or_trans h.log h'.log h.filters (fun _ => h'.filters) SameFilters.trans
  closed hs := Logged.or_trans h.log h'.log (h.closed hs) (fun ⟨_, ht⟩ => h'.closed ht)
    fun ⟨e, _⟩ ⟨e', hu⟩ => ⟨e.trans e', hu⟩

/-- An update that leaves the setup alone and only appends to the log. -/
theorem ConfigMove.of_setup {s t : State} (e : t.setup = s.setup) (hlog : s.hriLog <+: t.hriLog) : ConfigMove s t :=
  have hfilters : SameFilters s.ctl t.ctl := ⟨congrArg Setup.flt e, congrArg Setup.fltN e⟩
  ⟨congrArg Setup.cfg e, hlog, .inl (congrArg Setup.nbt e), .inl hfilters, fun hs => .inl ⟨hfilters, hs.of_setup e⟩⟩

/-- An update that logs no call and leaves the setup alone. -/
theorem ConfigMove.quiet {s t : State} (e : t.setup = s.setup) (hlog : t.hriLog = s.hriLog) : ConfigMove s t :=
  .of_setup e (hlog ▸ List.prefix_refl _)

/-- A call that is logged and leaves the setup alone. -/
theorem ConfigMove.call {s t : State} {c : HriCall} (e : t.setup = s.setup) (hlog : t.hriLog = s.hriLog ++ [c]) :
    ConfigMove s t :=
  .of_setup e (hlog ▸ List.prefix_append _ _)

/-- A logged HWINIT may write all of the setup. -/
theorem ConfigMove.hwinit {s t : State} {m r : Byte} {fd b : Bool} (hcfg : t.cfg = s.cfg)
    (hlog : t.hriLog = s.hriLog ++ [.hwinit m r fd b]) : ConfigMove s t :=
  have hlogged : Logged HriCall.IsHwinit s t := .of_append hlog ⟨m, r, fd, b, rfl⟩
  { cfg := hcfg
    log := hlog ▸ List.prefix_append _ _
    timing := .inr (hlogged.imp fun _ => .inl)
    filters := .inr (hlogged.imp fun _ => .inl)
    closed := fun _ => .inr hlogged }

/-- SETBAUD writes the timing alone, and is logged (R126, R147). -/
theorem ConfigMove.setbaud (s : State) (r : Byte) (v : Word) (b : Bool) :
    ConfigMove s ((s.setNbt v).pushHri (.setbaud r b)) where
  cfg := rfl
  log := List.prefix_append _ _
  timing := .inr (.of_append rfl (.inr ⟨r, b, rfl⟩))
  filters := .inl ⟨rfl, rfl⟩
  closed hs := .inl ⟨⟨rfl, rfl⟩, hs⟩

/-- CFGFLT writes the filter table, which it has found open, and is logged (R129, R130, R147). -/
theorem ConfigMove.cfgflt {s : State} (hmode : s.ctl.mode = .configuration) (hopen : s.ctl.fltWe = true) :
    ConfigMove s ((s.installFilters (filterRegs s.cfg)).pushHri (.cfgflt true)) where
  cfg := rfl
  log := List.prefix_append _ _
  timing := .inl rfl
  filters := .inr (.of_append rfl (.inr ⟨true, rfl⟩))
  closed hs := by
    rcases hs with hlocked | hother
    · exact absurd (hlocked.symm.trans hopen) nofun
    · exact absurd hmode hother

/-- DEINIT keeps the timing and the rules, and enters Reset mode (R144, R123). -/
theorem ConfigMove.deinit (s : State) : ConfigMove s (deinitHardware s) where
  cfg := rfl
  log := List.prefix_append _ _
  timing := .inl rfl
  filters := .inl ⟨rfl, rfl⟩
  closed _ := .inl ⟨⟨rfl, rfl⟩, .inr nofun⟩

theorem EnvStep.configMove {s t : State} (h : EnvStep s t) : ConfigMove s t := by
  have hcfg : t.cfg = s.cfg := by rw [h.same]
  exact .quiet (by rw [State.setup, hcfg, h.ctl]; rfl) (by rw [h.same])

theorem TaskStep.configMove {s t : State} (h : TaskStep s t) : ConfigMove s t := by
  rw [h.same]; exact .quiet rfl rfl

theorem transmitOne_configMove (f : CanFrame) (s : State) : ConfigMove s (transmitOne f s).1 := by
  unfold transmitOne; split <;> exact .call rfl rfl

theorem drainTransmit_configMove {s : State} {r : State × Status} (h : drainTransmit s = .next r) :
    ConfigMove s r.1 := by
  rcases drainTransmit_eq_next.1 h with ⟨-, rfl⟩ | ⟨-, -, -, rfl⟩ | ⟨-, -, -, rfl⟩
  · exact .quiet rfl rfl
  · exact .call rfl rfl
  · exact .call rfl rfl

/-- Every elementary update changes the configuration only by the calls it logs. -/
theorem preserved_configMove : Preserved ConfigMove where
  refl _ := .quiet rfl rfl
  trans := ConfigMove.trans
  env hi h := (exec_env hi h).configMove
  task hi h := (exec_task hi h).configMove
  setSched _ _ := .quiet rfl rfl
  setInbox _ _ := .quiet rfl rfl
  setDrvWait _ _ := .quiet rfl rfl
  respond _ _ _ := .quiet rfl rfl
  clearRxip _ := .quiet rfl rfl
  receiveNone _ := .call rfl rfl
  receiveSome _ _ _ _ := .call rfl rfl
  storeFrame _ _ _ _ _ := .quiet rfl rfl
  setHriOut _ _ := .quiet rfl rfl
  setErrOut _ _ := .quiet rfl rfl
  setModSel _ _ := .quiet rfl rfl
  operating _ _ _ _ _ _ := .hwinit rfl rfl
  failedClosed _ _ _ _ _ := .hwinit rfl rfl
  timedOut _ _ _ _ := .hwinit rfl rfl
  initBuffers _ := .quiet rfl rfl
  drain := drainTransmit_configMove
  transmit := transmitOne_configMove
  readErrors _ := .call rfl rfl
  deinit := .deinit
  setbaud s r v b _ := .setbaud s r v b
  cfgflt _ hmode hopen := .cfgflt hmode hopen

/-- The moves of DS touch no configuration. -/
theorem dsMoves_configMove : DsMoves ConfigMove where
  activate _ _ := .quiet rfl rfl
  error _ _ _ := .quiet rfl rfl
  shutdown _ _ _ := .quiet rfl rfl

theorem step_configMove {s t : State} (h : step s = .next t) : ConfigMove s t :=
  preserved_configMove.step dsMoves_configMove h

/-- Where a rule register or their number has changed, the filters are not the same. -/
theorem not_sameFilters {c d : Ctl} (h : d.flt ≠ c.flt ∨ d.fltN ≠ c.fltN) : ¬ SameFilters c d := fun e =>
  h.elim (· e.1) (· e.2)

/-- Settles O49. -/
theorem configurationIsCoherent : Obligations.ConfigurationIsCoherent := fun _ _ hst =>
  have h := step_configMove hst
  ⟨h.cfg, h.timing.resolve_left, fun hchanged => h.filters.resolve_left (not_sameFilters hchanged)⟩

/-- Settles O54: a locked table is closed, and only a HWINIT opens a closed table. -/
theorem filterTableStaysLocked : Obligations.FilterTableStaysLocked := fun _ _ hst hlocked hchanged =>
  ((step_configMove hst).closed (.inl hlocked)).resolve_left fun hsame => not_sameFilters hchanged hsame.1

end Sys2Proof.Machine
end

section
/-! PROOF of O1, O2, O3, O6 and O60 (30_encoding.md R81 to R83, R89, R90, R93, R95). Words are compared as numbers: the first
word of a format is below a power of 2 and its operands are digits of it, so each format has one lemma that says when a word
is the first word of given operands. It serves the round trip in both directions. -/

namespace Sys2Proof

/-! Words as numbers. -/

theorem toNat_append_eq_add {m n : Nat} (x : BitVec m) (y : BitVec n) :
    (x ++ y).toNat = x.toNat * 2 ^ n + y.toNat := by
  rw [BitVec.toNat_append, ← Nat.shiftLeft_add_eq_or_of_lt y.isLt, Nat.shiftLeft_eq]

theorem toNat_extractLsb'_eq_div {n : Nat} (w : BitVec n) (start len : Nat) :
    (w.extractLsb' start len).toNat = w.toNat / 2 ^ start % 2 ^ len := by
  rw [BitVec.extractLsb'_toNat, Nat.shiftRight_eq_div_pow]

theorem eq_ofNat_of_toNat_eq {n c : Nat} {w : BitVec n} (h : w.toNat = c) : w = BitVec.ofNat n c := by
  rw [← h, BitVec.ofNat_toNat, BitVec.setWidth_eq]

theorem getLsbD_eq_iff {n : Nat} {w : BitVec n} {k : Nat} {b : Bool} :
    w.getLsbD k = b ↔ w.toNat / 2 ^ k % 2 = b.toNat := by
  rw [← Nat.toNat_testBit, BitVec.testBit_toNat]
  cases w.getLsbD k <;> cases b <;> simp

@[simp] theorem toNat_opOf (w : Word) : (opOf w).toNat = w.toNat % 256 := by
  simp [opOf]

@[simp] theorem toNat_firstWord (operands : BitVec 24) (op : Byte) :
    (firstWord operands op).toNat = operands.toNat * 256 + op.toNat :=
  toNat_append_eq_add operands op

/-- The packing formula (R82). -/
@[simp] theorem toNat_pack (b0 b1 b2 b3 : Byte) :
    (pack b0 b1 b2 b3).toNat = b0.toNat + 256 * b1.toNat + 65536 * b2.toNat + 16777216 * b3.toNat := by
  simp only [pack, toNat_append_eq_add]
  omega

/-! The data windows and the image of a frame (R81 to R83). -/

theorem unpack_pack (b0 b1 b2 b3 : Byte) : unpack (pack b0 b1 b2 b3) = (b0, b1, b2, b3) := by
  have := b0.isLt; have := b1.isLt; have := b2.isLt; have := b3.isLt
  simp only [unpack, Prod.mk.injEq, ← BitVec.toNat_inj, toNat_extractLsb'_eq_div, toNat_pack]
  omega

theorem pack_unpack (w : Word) : pack (unpack w).1 (unpack w).2.1 (unpack w).2.2.1 (unpack w).2.2.2 = w := by
  simp only [unpack, ← BitVec.toNat_inj, toNat_extractLsb'_eq_div, toNat_pack]
  omega

/-- Settles O6. -/
theorem packAndUnpackAreInverse : Obligations.PackAndUnpackAreInverse :=
  ⟨toNat_pack, unpack_pack, pack_unpack, fun _ => ⟨rfl, rfl⟩⟩

/-- Settles O60. -/
theorem dataWindowsAreLittleEndian : Obligations.DataWindowsAreLittleEndian := by
  refine ⟨fun b0 b1 b2 b3 => ⟨rfl, toNat_pack b0 b1 b2 b3⟩, fun _ => rfl, fun f hdata => ?_⟩
  have hwindows : f.image.drop 2 = [f.data.window0, f.data.window1] := rfl
  rw [hwindows, hdata]
  decide

@[simp] theorem Payload.window0_ofWindows (w0 w1 : Word) : (Payload.ofWindows w0 w1).window0 = w0 := pack_unpack w0

@[simp] theorem Payload.window1_ofWindows (w0 w1 : Word) : (Payload.ofWindows w0 w1).window1 = w1 := pack_unpack w1

/-- The bits 31:8 of W1 are 0 exactly if it holds a DLC and nothing more (R93, R95). -/
theorem dlcBits_eq_zero_iff {w : Word} : w.extractLsb' 8 24 = 0#24 ↔ w.toNat < 256 := by
  rw [← BitVec.toNat_inj, toNat_extractLsb'_eq_div, BitVec.toNat_ofNat]
  omega

theorem ofImage_image (f : CanFrame) :
    CanFrame.ofImage f.id (f.dlc.setWidth 32) f.data.window0 f.data.window1 = f := by
  have hdlc : (f.dlc.setWidth 32).extractLsb' 0 8 = f.dlc := by
    apply BitVec.eq_of_toNat_eq
    simp only [BitVec.toNat_setWidth, toNat_extractLsb'_eq_div]
    omega
  simp [CanFrame.ofImage, hdlc]

theorem image_ofImage {w1 : Word} (h : w1.toNat < 256) (w0 w2 w3 : Word) :
    (CanFrame.ofImage w0 w1 w2 w3).image = [w0, w1, w2, w3] := by
  have hdlc : (w1.extractLsb' 0 8).setWidth 32 = w1 := by
    apply BitVec.eq_of_toNat_eq
    simp only [BitVec.toNat_setWidth, toNat_extractLsb'_eq_div]
    omega
  simp [CanFrame.image, CanFrame.ofImage, hdlc]

/-- A frame operand is read from its own image and from no other words. -/
theorem decodeFrame_eq_ok {ws rest : List Word} {k : CanFrame → Instr} {i : Instr} :
    decodeFrame ws k = .ok i rest ↔ ∃ f, i = k f ∧ f.image ++ rest = ws := by
  constructor
  · intro h
    unfold decodeFrame at h
    split at h
    next w0 w1 w2 w3 tail =>
      split at h
      next hdlc =>
        cases h
        exact ⟨_, rfl, by rw [image_ofImage (dlcBits_eq_zero_iff.1 hdlc)]; rfl⟩
      next => cases h
    next => cases h
  · rintro ⟨f, rfl, rfl⟩
    have hdlc : (f.dlc.setWidth 32).extractLsb' 8 24 = 0#24 :=
      dlcBits_eq_zero_iff.2 (by simp; omega)
    simp [CanFrame.image, decodeFrame, hdlc, ofImage_image]

/-! The first word (R89): its must-be-zero bits, and when it holds given operands. -/

/-- The number of low bits of the first word that a format uses. -/
def Format.usedBits (k : Format) : Nat :=
  match k with
  | .n => 8
  | .f => 8
  | .b => 16
  | .i => 25
  | .c => 9
  | .q => 24

theorem Format.zeroBits_eq_shiftLeft (k : Format) : k.zeroBits = BitVec.allOnes 32 <<< k.usedBits := by
  cases k <;> rfl

/-- The must-be-zero bits are those above the used ones. -/
theorem and_zeroBits_eq_zero_iff (w : Word) (k : Format) : w &&& k.zeroBits = 0#32 ↔ w.toNat < 2 ^ k.usedBits := by
  have hle : w.toNat / 2 ^ k.usedBits * 2 ^ k.usedBits < 2 ^ 32 :=
    Nat.lt_of_le_of_lt (Nat.div_mul_le_self ..) w.isLt
  have hpos : 0 < 2 ^ k.usedBits := Nat.two_pow_pos _
  rw [k.zeroBits_eq_shiftLeft, ← BitVec.shiftLeft_ushiftRight, ← BitVec.toNat_inj, BitVec.toNat_shiftLeft,
    BitVec.toNat_ushiftRight, Nat.shiftLeft_eq, Nat.shiftRight_eq_div_pow, Nat.mod_eq_of_lt hle, BitVec.toNat_ofNat,
    Nat.zero_mod, Nat.mul_eq_zero, or_iff_left (Nat.ne_of_gt hpos), Nat.div_eq_zero_iff_lt hpos]

/-- Formats N and F: the selector alone. -/
theorem eq_firstWord_zero_iff {w : Word} {op : Byte} :
    w = firstWord 0#24 op ↔ w.toNat < 2 ^ 8 ∧ opOf w = op := by
  have := op.isLt
  simp only [← BitVec.toNat_inj, toNat_firstWord, toNat_opOf, BitVec.toNat_ofNat]
  omega

/-- Format B: a byte in bits 15:8. -/
theorem eq_firstWord_byte_iff {w : Word} {op r : Byte} :
    w = firstWord (r.setWidth 24) op ↔ w.toNat < 2 ^ 16 ∧ opOf w = op ∧ w.extractLsb' 8 8 = r := by
  have := op.isLt; have := r.isLt
  simp only [← BitVec.toNat_inj, toNat_firstWord, toNat_opOf, BitVec.toNat_setWidth, toNat_extractLsb'_eq_div]
  omega

/-- Format C: a flag in bit 8. -/
theorem eq_firstWord_flag_iff {w : Word} {op : Byte} {b : Bool} :
    w = firstWord (BitVec.setWidth 24 (BitVec.ofBool b)) op ↔ w.toNat < 2 ^ 9 ∧ opOf w = op ∧ w.getLsbD 8 = b := by
  have := op.isLt; have := b.toNat_lt
  simp only [← BitVec.toNat_inj, getLsbD_eq_iff, toNat_firstWord, toNat_opOf, BitVec.toNat_setWidth,
    BitVec.toNat_ofBool]
  omega

/-- Format Q: two bytes, the first in bits 15:8. -/
theorem eq_firstWord_bytes_iff {w : Word} {op t r : Byte} :
    w = firstWord (0#8 ++ r ++ t) op ↔
      w.toNat < 2 ^ 24 ∧ opOf w = op ∧ w.extractLsb' 8 8 = t ∧ w.extractLsb' 16 8 = r := by
  have := op.isLt; have := t.isLt; have := r.isLt
  simp only [← BitVec.toNat_inj, toNat_firstWord, toNat_opOf, toNat_append_eq_add, BitVec.toNat_ofNat,
    toNat_extractLsb'_eq_div]
  omega

/-- Format I: a flag in bit 24 above two bytes. -/
theorem eq_firstWord_flag_bytes_iff {w : Word} {op m r : Byte} {fd : Bool} :
    w = firstWord (BitVec.setWidth 8 (BitVec.ofBool fd) ++ m ++ r) op ↔
      w.toNat < 2 ^ 25 ∧ opOf w = op ∧ w.extractLsb' 16 8 = m ∧ w.extractLsb' 8 8 = r ∧ w.getLsbD 24 = fd := by
  have := op.isLt; have := m.isLt; have := r.isLt; have := fd.toNat_lt
  simp only [← BitVec.toNat_inj, getLsbD_eq_iff, toNat_firstWord, toNat_opOf, toNat_append_eq_add,
    BitVec.toNat_setWidth, BitVec.toNat_ofBool, toNat_extractLsb'_eq_div]
  omega

/-! The table of selectors (R90). -/

def Format.selectors (k : Format) : List Nat :=
  match k with
  | .n => [0x02, 0x10, 0x11, 0x20, 0x21, 0x22, 0x23, 0x32, 0x34, 0x35, 0x36, 0x81, 0x84, 0x85, 0x86, 0x90]
  | .f => [0x01, 0x33, 0x82]
  | .b => [0x31]
  | .i => [0x30]
  | .c => [0x80]
  | .q => [0x83]

theorem formatOf_of_mem_selectors (k : Format) : ∀ c ∈ k.selectors, formatOf (BitVec.ofNat 8 c) = some k := by
  cases k <;> decide

theorem formatOf_eq_some_iff {op : Byte} {k : Format} : formatOf op = some k ↔ op.toNat ∈ k.selectors := by
  constructor
  · intro h
    unfold formatOf at h
    split at h <;> cases h
    all_goals
      next hop =>
        rw [hop]
        decide
  · intro h
    rw [eq_ofNat_of_toNat_eq (w := op) rfl]
    exact formatOf_of_mem_selectors k _ h

/-- The selector of a format that has only one. -/
theorem eq_of_formatOf {op : Byte} {k : Format} {c : Nat} (h : formatOf op = some k) (hk : k.selectors = [c]) :
    op = BitVec.ofNat 8 c :=
  eq_ofNat_of_toNat_eq (List.mem_singleton.1 (hk ▸ formatOf_eq_some_iff.1 h))

/-! What `decodeOperands` reads in each format (R93). -/

section
variable {w : Word} {ws rest : List Word} {i : Instr}

/-- An operation of format N is its selector. -/
theorem decodeOperands_of_n (hn : formatOf (opOf w) = some .n) (h : decodeOperands w ws = .ok i rest) :
    encode i = [firstWord 0#24 (opOf w)] ∧ rest = ws := by
  unfold formatOf at hn
  split at hn <;> cases hn
  all_goals
    next hop =>
      rw [decodeOperands, hop] at h
      cases h
      exact ⟨by rw [eq_ofNat_of_toNat_eq hop]; rfl, rfl⟩

/-- An operation of format F is its selector and a frame. -/
theorem decodeOperands_of_f (hf : formatOf (opOf w) = some .f) (h : decodeOperands w ws = .ok i rest) :
    ∃ f : CanFrame, encode i = firstWord 0#24 (opOf w) :: f.image ∧ f.image ++ rest = ws := by
  unfold formatOf at hf
  split at hf <;> cases hf
  all_goals
    next hop =>
      rw [decodeOperands, hop] at h
      obtain ⟨f, rfl, hws⟩ := decodeFrame_eq_ok.1 h
      exact ⟨f, by rw [eq_ofNat_of_toNat_eq hop]; rfl, hws⟩

theorem decodeOperands_setbaud (hop : opOf w = 0x31#8) :
    decodeOperands w ws = .ok (.setbaud (w.extractLsb' 8 8)) ws := by
  rw [decodeOperands, hop]; rfl

theorem decodeOperands_hwinit (hop : opOf w = 0x30#8) :
    decodeOperands w ws = .ok (.hwinit (w.extractLsb' 16 8) (w.extractLsb' 8 8) (w.getLsbD 24)) ws := by
  rw [decodeOperands, hop]; rfl

theorem decodeOperands_evClk (hop : opOf w = 0x80#8) : decodeOperands w ws = .ok (.evClk (w.getLsbD 8)) ws := by
  rw [decodeOperands, hop]; rfl

theorem decodeOperands_evErrcnt (hop : opOf w = 0x83#8) :
    decodeOperands w ws = .ok (.evErrcnt (w.extractLsb' 8 8) (w.extractLsb' 16 8)) ws := by
  rw [decodeOperands, hop]; rfl

/-! The decoder in two steps: the selector fixes the format, and the must-be-zero bits are judged before the operands. -/

theorem decode_of_format {k : Format} (hk : formatOf (opOf w) = some k) :
    decode (w :: ws) = if w.toNat < 2 ^ k.usedBits then decodeOperands w ws else .bad .reservedBitSet := by
  simp only [decode, hk, and_zeroBits_eq_zero_iff]

theorem decode_of_lt {op : Byte} {k : Format} (hk : formatOf op = some k) (hop : opOf w = op)
    (hlt : w.toNat < 2 ^ k.usedBits) : decode (w :: ws) = decodeOperands w ws := by
  rw [decode_of_format (hop ▸ hk), if_pos hlt]

theorem decode_cons_eq_ok (h : decode (w :: ws) = .ok i rest) :
    ∃ k, formatOf (opOf w) = some k ∧ w.toNat < 2 ^ k.usedBits ∧ decodeOperands w ws = .ok i rest := by
  cases hk : formatOf (opOf w) with
  | none => simp [decode, hk] at h
  | some k =>
    rw [decode_of_format hk] at h
    split at h
    next hlt => exact ⟨k, rfl, hlt, h⟩
    next => cases h

end

/-! The round trip. -/

/-- Settles O1. -/
theorem decodeGivesBackEncoded : Obligations.DecodeGivesBackEncoded := by
  intro i rest
  cases i
  case enqtx f | tx1 f | evRxframe f => exact decodeFrame_eq_ok.2 ⟨f, rfl, rfl⟩
  case setbaud r =>
    obtain ⟨hlt, hop, hr⟩ := eq_firstWord_byte_iff.1 (Eq.refl (firstWord (r.setWidth 24) 0x31#8))
    rw [encode, List.singleton_append, decode_of_lt (k := .b) rfl hop hlt, decodeOperands_setbaud hop, hr]
  case hwinit m r fd =>
    obtain ⟨hlt, hop, hm, hr, hfd⟩ :=
      eq_firstWord_flag_bytes_iff.1 (Eq.refl (firstWord (BitVec.setWidth 8 (BitVec.ofBool fd) ++ m ++ r) 0x30#8))
    rw [encode, List.singleton_append, decode_of_lt (k := .i) rfl hop hlt, decodeOperands_hwinit hop, hm, hr, hfd]
  case evClk b =>
    obtain ⟨hlt, hop, hb⟩ :=
      eq_firstWord_flag_iff.1 (Eq.refl (firstWord (BitVec.setWidth 24 (BitVec.ofBool b)) 0x80#8))
    rw [encode, List.singleton_append, decode_of_lt (k := .c) rfl hop hlt, decodeOperands_evClk hop, hb]
  case evErrcnt t r =>
    obtain ⟨hlt, hop, ht, hr⟩ := eq_firstWord_bytes_iff.1 (Eq.refl (firstWord (0#8 ++ r ++ t) 0x83#8))
    rw [encode, List.singleton_append, decode_of_lt (k := .q) rfl hop hlt, decodeOperands_evErrcnt hop, ht, hr]
  all_goals rfl

/-- Settles O2: the selector fixes the format, and in each format the first word is that of the operands read from it. -/
theorem decodedWordsAreItsEncoding : Obligations.DecodedWordsAreItsEncoding := by
  rintro (_ | ⟨w, ws⟩) i rest h
  · cases h
  obtain ⟨k, hk, hlt, h⟩ := decode_cons_eq_ok h
  cases k with
  | n =>
    obtain ⟨hi, rfl⟩ := decodeOperands_of_n hk h
    rw [hi, ← eq_firstWord_zero_iff.2 ⟨hlt, rfl⟩, List.singleton_append]
  | f =>
    obtain ⟨f, hi, rfl⟩ := decodeOperands_of_f hk h
    rw [hi, ← eq_firstWord_zero_iff.2 ⟨hlt, rfl⟩, List.cons_append]
  | b =>
    have hop := eq_of_formatOf hk rfl
    cases (decodeOperands_setbaud hop).symm.trans h
    rw [encode, ← eq_firstWord_byte_iff.2 ⟨hlt, hop, rfl⟩, List.singleton_append]
  | i =>
    have hop := eq_of_formatOf hk rfl
    cases (decodeOperands_hwinit hop).symm.trans h
    rw [encode, ← eq_firstWord_flag_bytes_iff.2 ⟨hlt, hop, rfl, rfl, rfl⟩, List.singleton_append]
  | c =>
    have hop := eq_of_formatOf hk rfl
    cases (decodeOperands_evClk hop).symm.trans h
    rw [encode, ← eq_firstWord_flag_iff.2 ⟨hlt, hop, rfl⟩, List.singleton_append]
  | q =>
    have hop := eq_of_formatOf hk rfl
    cases (decodeOperands_evErrcnt hop).symm.trans h
    rw [encode, ← eq_firstWord_bytes_iff.2 ⟨hlt, hop, rfl, rfl⟩, List.singleton_append]

/-- Settles O3: the words are the encodings of the six operations. -/
theorem wordsOfEachFormatDecode : Obligations.WordsOfEachFormatDecode :=
  ⟨decodeGivesBackEncoded .tick [], decodeGivesBackEncoded (.hwinit 1#8 2#8 false) [],
    decodeGivesBackEncoded (.setbaud 200#8) [], decodeGivesBackEncoded (.evClk true) [],
    decodeGivesBackEncoded (.evErrcnt 255#8 127#8) [],
    decodeGivesBackEncoded
      (.enqtx ⟨0x100#32, 2#8, ⟨0xAA#8, 0xBB#8, 0#8, 0#8, 0#8, 0#8, 0#8, 0x88#8⟩⟩) [0x00000020#32]⟩

end Sys2Proof
end

section
/-! PROOF of O4 (30_encoding.md R95; log 9): what the decoder reports invalid, the step that comes to serve it refuses. -/

namespace Sys2Proof.Machine

theorem rejectsWords_of_decode {s : State} {w : Word} {ws : List Word} {e : DecodeError} (hi : s.inbox = w :: ws)
    (h : decode (w :: ws) = .bad e) : s.RejectsWords e := by
  refine ⟨hi ▸ h, fun hn => ?_⟩
  rw [step_of_not_ready (readyCall_eq_none.1 hn)]
  simp [serveInbox, fetch, hi, h]

theorem decode_reservedSelector {w : Word} {ws : List Word} (h : ∀ k : Format, w.toNat % 256 ∉ k.selectors) :
    decode (w :: ws) = .bad .reservedSelector := by
  have hnone : formatOf (opOf w) = none := by
    refine Option.eq_none_iff_forall_ne_some.2 fun k hk => h k ?_
    rw [← toNat_opOf]
    exact formatOf_eq_some_iff.1 hk
  simp only [decode, hnone]

theorem decode_reservedBitSet {w : Word} {ws : List Word} (k : Format) (hk : w.toNat % 256 ∈ k.selectors)
    (hbit : w &&& k.zeroBits ≠ 0#32) : decode (w :: ws) = .bad .reservedBitSet := by
  rw [decode_of_format (formatOf_eq_some_iff.2 (by rwa [toNat_opOf])),
    if_neg (mt (and_zeroBits_eq_zero_iff w k).2 hbit)]

theorem decodeFrame_dlcWordHighBits {w0 w1 w2 w3 : Word} {rest : List Word} {k : CanFrame → Instr}
    (h : 256 ≤ w1.toNat) : decodeFrame (w0 :: w1 :: w2 :: w3 :: rest) k = .bad .dlcWordHighBits :=
  if_neg (mt dlcBits_eq_zero_iff.1 (Nat.not_lt.2 h))

/-- A word that is a selector of format F is followed by a frame operand. -/
theorem decode_of_mem_selectors_f {w : Word} (ws : List Word) (h : w.toNat ∈ Format.f.selectors) :
    ∃ k, decode (w :: ws) = decodeFrame ws k := by
  simp only [Format.selectors, List.mem_cons, List.not_mem_nil, or_false] at h
  rcases h with h | h | h
  · exact eq_ofNat_of_toNat_eq h ▸ ⟨.enqtx, rfl⟩
  · exact eq_ofNat_of_toNat_eq h ▸ ⟨.tx1, rfl⟩
  · exact eq_ofNat_of_toNat_eq h ▸ ⟨.evRxframe, rfl⟩

/-- Settles O4. -/
theorem invalidRequestsAreRefused : Obligations.InvalidRequestsAreRefused := by
  intro s w ws hi
  refine ⟨fun h => ?_, fun h hbits => ?_, fun h hbit => ?_, fun h hbit => ?_, fun h hbit => ?_, fun h hbit => ?_, ?_⟩
  · refine rejectsWords_of_decode hi (decode_reservedSelector fun k hk => h ?_)
    exact (show k.selectors ⊆ _ by cases k <;> decide) hk
  · have hmask : w &&& 0xFFFFFF00#32 ≠ 0#32 :=
      mt (and_zeroBits_eq_zero_iff w .n).1 (by simp only [Format.usedBits]; omega)
    have hsel : w.toNat % 256 ∈ Format.n.selectors ∨ w.toNat % 256 ∈ Format.f.selectors := by
      simp only [Format.selectors, List.mem_cons, List.not_mem_nil, or_false] at h ⊢
      omega
    rcases hsel with hn | hf
    · exact rejectsWords_of_decode hi (decode_reservedBitSet .n hn hmask)
    · exact rejectsWords_of_decode hi (decode_reservedBitSet .f hf hmask)
  · exact rejectsWords_of_decode hi (decode_reservedBitSet .i (List.mem_singleton.2 h) hbit)
  · exact rejectsWords_of_decode hi (decode_reservedBitSet .b (List.mem_singleton.2 h) hbit)
  · exact rejectsWords_of_decode hi (decode_reservedBitSet .c (List.mem_singleton.2 h) hbit)
  · exact rejectsWords_of_decode hi (decode_reservedBitSet .q (List.mem_singleton.2 h) hbit)
  · rintro w0 w1 w2 w3 rest hw rfl hdlc
    obtain ⟨k, hk⟩ := decode_of_mem_selectors_f (w0 :: w1 :: w2 :: w3 :: rest) hw
    exact rejectsWords_of_decode hi (hk.trans (decodeFrame_dlcWordHighBits hdlc))

end Sys2Proof.Machine
end

section
/-! PROOF of O7, O8, O10, O11 and O12 (40_buffer_ops.md R100 to R112). Each buffer request has one equation per outcome,
which says what state it answers; the statements are read off these equations field by field. -/

namespace Sys2Proof.Machine

/-! Full and empty, in the form of the statements (10_state.md R22, R26). -/

theorem Ring.isFull_eq_true_iff {cap : Nat} {r : Ring} : r.isFull cap = true ↔ (r.wr + 1) % cap = r.rd :=
  decide_eq_true_iff

theorem Ring.isFull_eq_false_iff {cap : Nat} {r : Ring} : r.isFull cap = false ↔ (r.wr + 1) % cap ≠ r.rd :=
  decide_eq_false_iff_not

theorem Ring.isEmpty_eq_false_iff {r : Ring} : r.isEmpty = false ↔ r.rd ≠ r.wr := decide_eq_false_iff_not

/-- An empty buffer of at least two slots has room for a frame (00_scope.md R6, R7). -/
theorem Ring.isFull_of_empty {cap : Nat} {r : Ring} (h2 : 2 ≤ cap) (hw : r.wr < cap) (he : r.rd = r.wr) :
    r.isFull cap = false := by
  rw [Ring.isFull_eq_false_iff, he]
  have hnext := nextIndex_cases hw
  unfold nextIndex at hnext
  omega

theorem Config.two_le_capacities {c : Config} (h : c.sizesOk = true) : 2 ≤ c.cTx ∧ 2 ≤ c.cRx := by
  simp only [Config.sizesOk, Config.cTxOk, Config.cRxOk, Bool.and_eq_true, decide_eq_true_eq] at h
  obtain ⟨⟨⟨hcaps, -⟩, -⟩, -⟩ := h
  exact hcaps

/-! Bytes and cells. -/

/-- A copy of `n` bytes has the source's first `n` bytes and keeps the others of the destination. -/
theorem copyBytes_bytes (n : Nat) (src dst : Payload) :
    (copyBytes n src dst).bytes = src.bytes.take n ++ dst.bytes.drop n := by
  rcases n with _ | _ | _ | _ | _ | _ | _ | _ | n <;> simp [copyBytes, Payload.bytes]

/-- What RX1 delivers of a frame is the frame with its `dlc` clamped (41_hri_ops.md R138). -/
theorem delivered_eq (g : CanFrame) : delivered g = ⟨g.id, clampDlc g.dlc, g.data⟩ := rfl

/-- The transmit FIFO after ENQTX of `f` into one with room: the cell at the write-pointer, then the pointer (R100). -/
def Ring.enqueue (cap : Nat) (f : CanFrame) (r : Ring) : Ring :=
  ⟨Memory.write r.slots r.wr (enqueuedCell f (Memory.read r.slots r.wr)), nextIndex cap r.wr, r.rd⟩

theorem Ring.read_enqueue (cap : Nat) (r : Ring) (f : CanFrame) :
    Memory.read (r.enqueue cap f).slots r.wr = enqueuedCell f (Memory.read r.slots r.wr) :=
  Memory.read_write_same _ _ _

/-! One equation per outcome of each buffer request. -/

theorem exec_enqtx_of_full {f : CanFrame} {s : State} (h : s.txf.isFull s.cfg.cTx = true) :
    exec (.enqtx f) s = .next (answer (.enqtx f) [Status.full.code] s) :=
  andThen_eq_next.2 ⟨_, enqueueTransmit_eq_next.2 (.inl ⟨h, rfl⟩), rfl⟩

theorem exec_enqtx_of_room {f : CanFrame} {s : State} (hw : s.txf.wr < s.cfg.cTx) (h : s.txf.isFull s.cfg.cTx = false) :
    exec (.enqtx f) s =
      .next (answer (.enqtx f) [Status.success.code] (s.setTxf (s.txf.enqueue s.cfg.cTx f))) :=
  andThen_eq_next.2 ⟨_, enqueueTransmit_eq_next.2 (.inr ⟨h, hw, rfl⟩), rfl⟩

theorem exec_deqrx_of_empty {s : State} (h : s.rxr.isEmpty = true) :
    exec .deqrx s = .next (answer .deqrx [Status.empty.code] s) :=
  andThen_eq_next.2 ⟨_, dequeueReceive_eq_next.2 (.inl ⟨h, rfl⟩), rfl⟩

/-- `out` is the caller's output with the oldest cell copied into it. -/
theorem exec_deqrx_of_frame {s : State} {out : CanFrame} (hr : s.rxr.rd < s.cfg.cRx) (h : s.rxr.isEmpty = false)
    (hout : out = dequeuedFrame (s.cell .receive s.rxr.rd) s.appOut) :
    exec .deqrx s = .next (answer .deqrx (Status.success.code :: out.image)
      ((s.setAppOut out).setRxr { s.rxr with rd := nextIndex s.cfg.cRx s.rxr.rd })) := by
  subst hout
  exact andThen_eq_next.2 ⟨_, dequeueReceive_eq_next.2 (.inr ⟨h, hr, rfl⟩), rfl⟩

/-- A DRAINTX that is served answers what its operation returns. -/
theorem exec_draintx_of_eq {s : State} {r : State × Status} (hd : s.drvWait = none) (h : drainTransmit s = .next r) :
    exec .draintx s = .next (answer .draintx [r.2.code] r.1) :=
  drvRequest_eq_next.2 ⟨hd, andThen_eq_next.2 ⟨r, h, rfl⟩⟩

theorem exec_draintx_of_empty {s : State} (hd : s.drvWait = none) (h : s.txf.isEmpty = true) :
    exec .draintx s = .next (answer .draintx [Status.empty.code] s) :=
  exec_draintx_of_eq hd (drainTransmit_eq_next.2 (.inl ⟨h, rfl⟩))

theorem exec_draintx_of_free {s : State} {f : CanFrame} (hd : s.drvWait = none) (h : s.txf.isEmpty = false)
    (hr : s.txf.rd < s.cfg.cTx) (hq : s.ctl.txReq = false) (hf : f = s.cell .transmit s.txf.rd) :
    exec .draintx s = .next (answer .draintx [Status.success.code]
      (((s.loadMailbox f).pushHri (.tx1 f true)).setTxf { s.txf with rd := nextIndex s.cfg.cTx s.txf.rd })) := by
  subst hf
  exact exec_draintx_of_eq hd (drainTransmit_eq_next.2 (.inr (.inl ⟨h, hr, hq, rfl⟩)))

theorem exec_draintx_of_pending {s : State} {f : CanFrame} (hd : s.drvWait = none) (h : s.txf.isEmpty = false)
    (hr : s.txf.rd < s.cfg.cTx) (hq : s.ctl.txReq = true) (hf : f = s.cell .transmit s.txf.rd) :
    exec .draintx s = .next (answer .draintx [Status.hardwareNotReady.code] (s.pushHri (.tx1 f false))) := by
  subst hf
  exact exec_draintx_of_eq hd (drainTransmit_eq_next.2 (.inr (.inr ⟨h, hr, hq, rfl⟩)))

/-- A FILLRX that is served answers what its operation returns. -/
theorem exec_fillrx_of_eq {s : State} {r : State × Status} (hd : s.drvWait = none) (h : fillReceive s = .next r) :
    exec .fillrx s = .next (answer .fillrx [r.2.code] r.1) :=
  drvRequest_eq_next.2 ⟨hd, andThen_eq_next.2 ⟨r, h, rfl⟩⟩

theorem exec_fillrx_of_full {s : State} (hd : s.drvWait = none) (h : s.rxr.isFull s.cfg.cRx = true) :
    exec .fillrx s = .next (answer .fillrx [Status.full.code] s) :=
  exec_fillrx_of_eq hd (fillReceive_eq_next.2 (.inl ⟨h, rfl⟩))

theorem exec_fillrx_of_noFrame {s u : State} (hd : s.drvWait = none) (h : s.rxr.isFull s.cfg.cRx = false)
    (hu : boundary .insideOperation (s.setRxip false) = .next u) (hq : u.ctl.hwrx = []) :
    exec .fillrx s = .next (answer .fillrx [Status.empty.code] (u.pushHri (.rx1 none))) :=
  exec_fillrx_of_eq hd (fillReceive_eq_next.2 (.inr ⟨h, u, hu, .inl ⟨hq, rfl⟩⟩))

theorem exec_fillrx_of_frame {s u : State} {g : CanFrame} {rest : List CanFrame} (hd : s.drvWait = none)
    (h : s.rxr.isFull s.cfg.cRx = false) (hu : boundary .insideOperation (s.setRxip false) = .next u)
    (hq : u.ctl.hwrx = g :: rest) (hw : s.rxr.wr < u.cfg.cRx) :
    exec .fillrx s = .next (answer .fillrx [Status.success.code]
      (((u.setHwrx rest).pushHri (.rx1 (some (delivered g)))).setRxr
        { u.rxr with
          slots := Memory.write u.rxr.slots s.rxr.wr (delivered g)
          wr := nextIndex s.cfg.cRx s.rxr.wr })) := by
  rw [delivered_eq]
  exact exec_fillrx_of_eq hd (fillReceive_eq_next.2 (.inr ⟨h, u, hu, .inr ⟨g, rest, hq, hw, rfl⟩⟩))

theorem exec_bufinit {s : State} (hd : s.drvWait = none) :
    exec .bufinit s = .next (answer .bufinit [voidCode] (initBuffers s)) :=
  drvRequest_free hd

/-! The statements. -/

/-- Settles O7. -/
theorem enqtxStoresOrAnswersFull : Obligations.EnqtxStoresOrAnswersFull := by
  intro f s hw
  refine ⟨fun hroom => ?_, fun hfull => exec_enqtx_of_full (Ring.isFull_eq_true_iff.2 hfull)⟩
  refine ⟨_, exec_enqtx_of_room hw (Ring.isFull_eq_false_iff.2 hroom), rfl, rfl, rfl,
    fun i hi => Memory.read_write_other _ _ hi, ?_⟩
  have hcell : (answer (.enqtx f) [Status.success.code] (s.setTxf (s.txf.enqueue s.cfg.cTx f))).cell .transmit s.txf.wr =
      enqueuedCell f (s.cell .transmit s.txf.wr) := Ring.read_enqueue _ _ f
  rw [hcell, ← clampDlc_toNat]
  exact ⟨rfl, rfl, copyBytes_bytes _ _ _⟩

/-- Settles O8. -/
theorem deqrxDeliversOrAnswersEmpty : Obligations.DeqrxDeliversOrAnswersEmpty := by
  intro s
  refine ⟨fun hr hne => ?_, fun he => exec_deqrx_of_empty (Ring.isEmpty_iff.2 he)⟩
  exact ⟨_, exec_deqrx_of_frame hr (Ring.isEmpty_eq_false_iff.2 hne) rfl, rfl, rfl, rfl, copyBytes_bytes _ _ _⟩

/-- Settles O10. -/
theorem draintxSubmitsOneFrame : Obligations.DraintxSubmitsOneFrame := by
  intro s hd
  refine ⟨fun he => exec_draintx_of_empty hd (Ring.isEmpty_iff.2 he), fun hne hr f hf => ?_⟩
  have hframe := Ring.isEmpty_eq_false_iff.2 hne
  exact ⟨fun hq => exec_draintx_of_free hd hframe hr hq hf, fun hq => exec_draintx_of_pending hd hframe hr hq hf⟩

/-- Settles O11: the boundary leaves CONFIG alone, so the slot at the write-pointer is still there behind it. -/
theorem fillrxMovesOneFrame : Obligations.FillrxMovesOneFrame := by
  intro s hd
  refine ⟨fun hfull => exec_fillrx_of_full hd (Ring.isFull_eq_true_iff.2 hfull), fun hroom hw henv => ?_⟩
  have hroom := Ring.isFull_eq_false_iff.2 hroom
  obtain ⟨u, hu⟩ := boundary_env_next .insideOperation (s.setRxip false) henv
  have halone : s.sched = [] → u = s.setRxip false := fun hs => by
    rw [boundary_nil (s := s.setRxip false) hs] at hu
    cases hu; rfl
  have hcfg : u.cfg = s.cfg := by rw [(boundary_envSteps (s := s.setRxip false) henv hu).same]; rfl
  cases hq : u.ctl.hwrx with
  | nil =>
    exact ⟨u, _, hu, exec_fillrx_of_noFrame hd hroom hu hq, halone, fun _ => rfl,
      fun _ _ hg => (nomatch hq.symm.trans hg)⟩
  | cons g rest =>
    refine ⟨u, _, hu, exec_fillrx_of_frame hd hroom hu hq (by rwa [hcfg]), halone,
      fun hnil => (nomatch hq.symm.trans hnil), fun g' rest' hg => ?_⟩
    obtain ⟨rfl, rfl⟩ := List.cons.inj (hq.symm.trans hg)
    exact ⟨rfl, rfl, rfl, Memory.read_write_same _ _ _, fun i hi => Memory.read_write_other _ _ hi⟩

/-- Settles O12: with both indices of a buffer at 0 it is empty, and of two slots or more one is free. -/
theorem bufinitEmptiesBothBuffers : Obligations.BufinitEmptiesBothBuffers := by
  refine ⟨by decide, rfl, fun s hd => ⟨_, exec_bufinit hd, rfl, Ring.queue_of_empty rfl, Ring.queue_of_empty rfl,
    Ring.isEmpty_iff.2 rfl, Ring.isEmpty_iff.2 rfl, fun hsizes => ?_⟩⟩
  obtain ⟨hTx, hRx⟩ := Config.two_le_capacities hsizes
  exact ⟨Ring.isFull_of_empty hTx (Nat.zero_lt_of_lt hTx) rfl, Ring.isFull_of_empty hRx (Nat.zero_lt_of_lt hRx) rfl⟩

end Sys2Proof.Machine
end

section
/-! PROOF of O57 and O58 (40_buffer_ops.md R100 to R105, 43_controller_events.md R172): requests served one after another, by
the equations of the single requests. -/

namespace Sys2Proof.Machine

theorem serve_cons {i : Instr} {is : List Instr} {s t : State} (h : exec i s = .next t) :
    serve (i :: is) s = serve is t := by
  rw [serve, h, andThen_next]

/-! The laws of a store in the transmit FIFO. -/

theorem Ring.enqueue_indicesBelow {cap : Nat} {r : Ring} (h : r.IndicesBelow cap) (f : CanFrame) :
    (r.enqueue cap f).IndicesBelow cap :=
  ⟨nextIndex_lt h.1, h.2⟩

theorem Ring.count_enqueue {cap : Nat} {r : Ring} (h : r.IndicesBelow cap) (hroom : r.isFull cap = false) (f : CanFrame) :
    (r.enqueue cap f).count cap = r.count cap + 1 :=
  Ring.count_of_advanceWr h hroom _

theorem Ring.isEmpty_enqueue {cap : Nat} {r : Ring} (hroom : r.isFull cap = false) (f : CanFrame) :
    (r.enqueue cap f).isEmpty = false :=
  Ring.isEmpty_eq_false_iff.2 (Ne.symm (Ring.isFull_eq_false_iff.1 hroom))

/-! Capacity (R102). -/

/-- ENQTX of as many frames as there is room for all succeed, and one more is turned away. -/
theorem serve_enqtx_until_full (fs : List CanFrame) (f : CanFrame) {s : State} (h : s.txf.IndicesBelow s.cfg.cTx)
    (hroom : s.txf.count s.cfg.cTx + fs.length = s.cfg.cTx - 1) :
    ∃ t, serve ((fs ++ [f]).map Instr.enqtx) s = .next t ∧
      t.respLog = s.respLog ++ List.replicate fs.length ⟨0x01#8, [0#32]⟩ ++ [⟨0x01#8, [1#32]⟩] := by
  induction fs generalizing s with
  | nil =>
    refine ⟨_, serve_cons (exec_enqtx_of_full ((Ring.isFull_iff h).2 hroom)), ?_⟩
    rw [answer_respLog, List.length_nil, List.replicate_zero, List.append_nil]
    rfl
  | cons g gs ih =>
    rw [List.length_cons] at hroom
    have hfree : s.txf.isFull s.cfg.cTx = false := by
      rw [← Bool.not_eq_true, Ring.isFull_iff h]; omega
    have hcount := Ring.count_enqueue h hfree g
    obtain ⟨t, ht, hlog⟩ :=
      ih (s := answer (.enqtx g) [Status.success.code] (s.setTxf (s.txf.enqueue s.cfg.cTx g)))
        (Ring.enqueue_indicesBelow h g) (by simp only [answer_txf, answer_cfg, State.setTxf_txf, State.setTxf_cfg]; omega)
    refine ⟨t, (serve_cons (exec_enqtx_of_room h.1 hfree)).trans ht, ?_⟩
    rw [hlog, answer_respLog, State.setTxf_respLog, List.length_cons, List.replicate_succ,
      List.append_assoc s.respLog, List.singleton_append]
    rfl

/-- Settles O57: an empty FIFO has room for `C_TX - 1` frames. -/
theorem enqtxCapacityIsOneLessThanSlots : Obligations.EnqtxCapacityIsOneLessThanSlots := by
  intro fs s hs he hlen
  have hidx := hs.indicesInRange.1
  have hne : fs ≠ [] := List.ne_nil_of_length_pos (hlen ▸ Nat.zero_lt_of_lt hidx.1)
  have hgs : fs.dropLast.length = s.cfg.cTx - 1 := by rw [List.length_dropLast, hlen]
  have hzero : s.txf.count s.cfg.cTx = 0 := by simp [Ring.count, he]
  rw [← List.dropLast_concat_getLast hne, ← hgs]
  exact serve_enqtx_until_full fs.dropLast _ hidx (by rw [hzero, hgs, Nat.zero_add])

/-! From ENQTX to the bus (R105 (c)). -/

theorem exec_evTxdone_of_enabled {s : State} (h : s.ctl.txDoneEnabled = true) :
    exec .evTxdone s = .next (answer .evTxdone [voidCode] (mailboxSent s)) :=
  if_pos h

theorem clampDlc_idem (d : Byte) : clampDlc (clampDlc d) = clampDlc d := if_pos (clampDlc_le d)

/-- The mailbox loaded with a frame puts that frame on the bus, its `dlc` clamped (R172). -/
theorem Mailbox.busFrame_ofFrame (g : CanFrame) :
    (Mailbox.ofFrame g).busFrame = ⟨g.id, clampDlc g.dlc, g.data.bytes.take (clampDlc g.dlc).toNat⟩ := by
  simp [Mailbox.busFrame, Mailbox.ofFrame]

/-- What ENQTX stores of `f` goes on the bus as `f`'s identifier, clamped `dlc` and that many bytes. -/
theorem Mailbox.busFrame_enqueuedCell (f old : CanFrame) :
    (Mailbox.ofFrame (enqueuedCell f old)).busFrame =
      ⟨f.id, clampDlc f.dlc, f.data.bytes.take (min f.dlc.toNat 8)⟩ := by
  obtain ⟨-, -, hbytes⟩ := enqueuedCell_spec f old
  have hdlc : clampDlc (enqueuedCell f old).dlc = clampDlc f.dlc := clampDlc_idem f.dlc
  rw [Mailbox.busFrame_ofFrame, hdlc, clampDlc_toNat, hbytes]
  rfl

/-- DRAINTX with the mailbox free, then EV_TXDONE: the oldest frame is on the bus and has left the queue. -/
theorem serve_draintx_evTxdone {s : State} {g : CanFrame} (is : List Instr) (hd : s.drvWait = none)
    (hne : s.txf.isEmpty = false) (hr : s.txf.rd < s.cfg.cTx) (hq : s.ctl.txReq = false) (hbus : s.ctl.onBus = true)
    (hg : g = s.cell .transmit s.txf.rd) :
    ∃ t, serve (.draintx :: .evTxdone :: is) s = serve is t ∧ t.busOut = s.busOut ++ [(Mailbox.ofFrame g).busFrame] ∧
      t.hriLog = s.hriLog ++ [.tx1 g true] ∧ t.txf = { s.txf with rd := nextIndex s.cfg.cTx s.txf.rd } ∧
      t.drvWait = none := by
  have hdrain := serve_cons (is := .evTxdone :: is) (exec_draintx_of_free hd hne hr hq hg)
  have hsent := serve_cons (is := is) (exec_evTxdone_of_enabled
    (s := answer .draintx [Status.success.code]
      (((s.loadMailbox g).pushHri (.tx1 g true)).setTxf { s.txf with rd := nextIndex s.cfg.cTx s.txf.rd }))
    (Bool.and_eq_true_iff.2 ⟨hbus, rfl⟩))
  exact ⟨_, hdrain.trans hsent, by simp [mailboxSent], by simp [mailboxSent], by simp [mailboxSent],
    by simpa [mailboxSent] using hd⟩

/-- Settles O58: with its one frame submitted the FIFO is empty again, so the second DRAINTX makes no call. -/
theorem enqueuedFrameReachesTheBus : Obligations.EnqueuedFrameReachesTheBus := by
  intro f s hs hd he hmode hbo hq
  obtain ⟨hw, hr⟩ := hs.indicesInRange.1
  have hroom := Ring.isFull_of_empty (Config.two_le_capacities hs.1).1 hw he
  have hbus : s.ctl.onBus = true := by simp [Ctl.onBus, hmode, hbo]
  have hcell : enqueuedCell f (s.cell .transmit s.txf.wr) =
      Memory.read (s.txf.enqueue s.cfg.cTx f).slots s.txf.rd := by
    rw [he]; exact (Ring.read_enqueue _ _ f).symm
  have henq := serve_cons (is := [.draintx, .evTxdone, .draintx]) (exec_enqtx_of_room (f := f) hw hroom)
  obtain ⟨u, hu, hout, hlog, htxf, hwait⟩ := serve_draintx_evTxdone [.draintx]
    (s := answer (.enqtx f) [Status.success.code] (s.setTxf (s.txf.enqueue s.cfg.cTx f)))
    hd (Ring.isEmpty_enqueue hroom f) hr hq hbus hcell
  have hempty : u.txf.rd = u.txf.wr := by
    rw [htxf]; exact congrArg (nextIndex s.cfg.cTx) he
  have hlast := serve_cons (is := []) (exec_draintx_of_empty hwait (Ring.isEmpty_iff.2 hempty))
  rw [Mailbox.busFrame_enqueuedCell] at hout
  exact ⟨_, _, henq.trans (hu.trans hlast), hout, rfl, clampDlc_toNat _, rfl, Ring.queue_of_empty hempty, _, hlog⟩

end Sys2Proof.Machine
end

section
/-! PROOF of O16, O20, O21, O22, O25 and O26 (41_hri_ops.md R121 to R147): the operations of the Hardware Register Interface
that no other agent steps into. Each has one equation per outcome, and its statement is read off them. -/

namespace Sys2Proof.Machine

/-! Each request answers what its operation returns, with the log entry of the call (R147). -/

theorem exec_hwinit_of_eq {m r : Byte} {fd : Bool} {s : State} {p : State × Progress} (hd : s.drvWait = none)
    (h : initHardware m r fd s = .next p) :
    exec (.hwinit m r fd) s = .next (answerProgress (.hwinit m r fd) p.2 p.1) :=
  drvRequest_eq_next.2 ⟨hd, andThen_eq_next.2 ⟨p, h, rfl⟩⟩

/-- A HWINIT whose operation is refused is refused for the same reason. -/
theorem exec_hwinit_of_refused {m r : Byte} {fd : Bool} {s : State} {e : Refusal} (hd : s.drvWait = none)
    (h : initHardware m r fd s = .refused e) : exec (.hwinit m r fd) s = .refused e := by
  simp only [exec, execHwinit, drvRequest_free hd, h, andThen_refused]

theorem exec_setbaud_of_eq {r : Byte} {s : State} {p : State × Bool} (hd : s.drvWait = none)
    (h : setBaudRate r s = .next p) :
    exec (.setbaud r) s = .next (answer (.setbaud r) [boolCode p.2] (p.1.pushHri (.setbaud r p.2))) :=
  drvRequest_eq_next.2 ⟨hd, andThen_eq_next.2 ⟨p, h, rfl⟩⟩

theorem exec_cfgflt_of_open {s : State} (hd : s.drvWait = none) (hmode : s.ctl.mode = .configuration)
    (hopen : s.ctl.fltWe = true) :
    exec .cfgflt s =
      .next (answer .cfgflt [boolCode true] ((s.installFilters (filterRegs s.cfg)).pushHri (.cfgflt true))) :=
  drvRequest_eq_next.2 ⟨hd, andThen_eq_next.2 ⟨_, configureFilters_eq_next.2 ⟨hmode, hopen, rfl⟩, rfl⟩⟩

theorem exec_cfgflt_of_refused {s : State} {e : Refusal} (hd : s.drvWait = none)
    (h : configureFilters s = .refused e) : exec .cfgflt s = .refused e := by
  simp only [exec, execCfgflt, drvRequest_free hd, h, andThen_refused]

theorem transmitOne_of_free {f : CanFrame} {s : State} (h : s.ctl.txReq = false) :
    transmitOne f s = ((s.loadMailbox f).pushHri (.tx1 f true), true) :=
  if_neg (by simp [h])

theorem transmitOne_of_pending {f : CanFrame} {s : State} (h : s.ctl.txReq = true) :
    transmitOne f s = (s.pushHri (.tx1 f false), false) :=
  if_pos h

theorem exec_tx1_of_eq {f : CanFrame} {s : State} {p : State × Bool} (hd : s.drvWait = none)
    (h : transmitOne f s = p) : exec (.tx1 f) s = .next (answer (.tx1 f) [boolCode p.2] p.1) := by
  subst h; exact drvRequest_free hd

theorem exec_geterr {s : State} (hd : s.drvWait = none) :
    exec .geterr s =
      .next (answer .geterr [s.ctl.errRecord.word] ((s.pushHri (.geterr s.ctl.errRecord)).setErrOut s.ctl.errRecord)) :=
  drvRequest_free hd

theorem exec_deinit {s : State} (hd : s.drvWait = none) :
    exec .deinit s = .next (answer .deinit [voidCode] (deinitHardware s)) :=
  drvRequest_free hd

/-! The register contents the statements name. -/

/-- The packing of GETERR's record (30_encoding.md R92). -/
theorem ErrRecord.toNat_word (e : ErrRecord) :
    e.word.toNat = e.busOff.toNat + 256 * e.txErrorCount.toNat + 65536 * e.rxErrorCount.toNat := by
  have := e.busOff.toNat_lt
  simp only [ErrRecord.word, toNat_append_eq_add, BitVec.toNat_setWidth, BitVec.toNat_ofBool, BitVec.toNat_ofNat]
  omega

/-- With no rule installed no identifier is accepted (R175). -/
theorem Ctl.accepts_of_noRules {c : Ctl} (h : c.fltN = 0) (x : Word) : c.accepts x = false := by
  simp [Ctl.accepts, h]

/-! The statements. -/

/-- Settles O16. -/
theorem hwinitArgumentsAreJudgedFirst : Obligations.HwinitArgumentsAreJudgedFirst := by
  refine fun m r s hd => ⟨exec_hwinit_of_refused hd rfl, fun hmodule => exec_hwinit_of_refused hd ?_⟩
  simp [initHardware, hmodule]

/-- Settles O26. -/
theorem deinitEntersResetMode : Obligations.DeinitEntersResetMode := fun _ => exec_deinit

/-- Settles O20. -/
theorem setbaudWritesTheTiming : Obligations.SetbaudWritesTheTiming := by
  refine ⟨fun r => ?_, fun r s hd => ⟨fun v hmode hv => ?_, fun hmode hnone => ?_, fun hmode => ?_⟩⟩
  · have := r.isLt
    simp only [encode, List.map_cons, List.map_nil, toNat_firstWord, BitVec.toNat_setWidth, BitVec.toNat_ofNat,
      List.cons.injEq, and_true]
    omega
  · exact exec_setbaud_of_eq hd (setBaudRate_eq_next.2 ⟨hmode, .inl ⟨v, hv, rfl⟩⟩)
  · exact exec_setbaud_of_eq hd (setBaudRate_eq_next.2 ⟨hmode, .inr ⟨hnone, rfl⟩⟩)
  · simp only [exec, execSetbaud, drvRequest_free hd, setBaudRate, if_neg hmode, andThen_refused]

/-- Settles O21. -/
theorem cfgfltInstallsTheFilterTable : Obligations.CfgfltInstallsTheFilterTable := by
  refine ⟨rfl, fun s hd => ⟨fun hmode hopen => ?_, fun hmode hlocked => ?_, fun hmode => ?_⟩⟩
  · have hlen := filterRegs_length s.cfg
    refine ⟨_, exec_cfgflt_of_open hd hmode hopen, by rw [← hlen]; rfl, List.take_left' hlen, ?_, fun hnil x => ?_⟩
    · rw [← hlen]; exact List.drop_left
    · exact Ctl.accepts_of_noRules (hlen.trans (by rw [hnil]; rfl)) x
  · exact exec_cfgflt_of_refused hd (by simp [configureFilters, hmode, hlocked])
  · exact exec_cfgflt_of_refused hd (by simp [configureFilters, hmode])

/-- Settles O22. -/
theorem txOneLoadsTheMailboxOrReturnsFalse : Obligations.TxOneLoadsTheMailboxOrReturnsFalse := fun _ _ hd =>
  ⟨fun hfree => exec_tx1_of_eq hd (transmitOne_of_free hfree),
    fun hpending => exec_tx1_of_eq hd (transmitOne_of_pending hpending)⟩

/-- Settles O25. -/
theorem geterrReadsTheErrorStatus : Obligations.GeterrReadsTheErrorStatus :=
  ⟨rfl, fun s hd => ⟨s.ctl.errRecord.word, exec_geterr hd, s.ctl.errRecord.toNat_word⟩⟩

end Sys2Proof.Machine
end

section
/-! PROOF of O23 and O24 (41_hri_ops.md R136 to R139): RX1 is read off the state `u` behind its inner boundary, and a frame
that arrives at that boundary is one such `u`. -/

namespace Sys2Proof.Machine

/-- With nothing scheduled a boundary changes nothing. -/
theorem boundary_eq_self {k : Boundary} {s u : State} (hu : boundary k s = .next u) (hs : s.sched = []) : u = s := by
  rw [boundary_nil hs] at hu
  cases hu; rfl

/-- A boundary with one step of the environment scheduled. -/
theorem boundary_of_single {k : Boundary} {i : Instr} {s : State} (hi : isEnv i = true) (hs : s.sched = [[i]]) :
    boundary k s = exec i (s.setSched []) := by
  rw [boundary_cons hs, interjectAll_cons, interject_env _ hi]
  cases exec i (s.setSched []) <;> rfl

/-! RX1 after its inner boundary. -/

theorem exec_rx1_of_eq {s : State} {p : State × Option CanFrame} (hd : s.drvWait = none) (h : receiveOne s = .next p) :
    exec .rx1 s = .next (deliverHri p.2 p.1) :=
  drvRequest_eq_next.2 ⟨hd, andThen_eq_next.2 ⟨p, h, rfl⟩⟩

theorem exec_rx1_of_noFrame {s u : State} (hd : s.drvWait = none)
    (hu : boundary .insideOperation (s.setRxip false) = .next u) (hq : u.ctl.hwrx = []) :
    exec .rx1 s = .next (answer .rx1 [boolCode false] (u.pushHri (.rx1 none))) :=
  exec_rx1_of_eq hd (receiveOne_eq_next.2 ⟨u, hu, receiveFromFifo_eq_next.2 (.inl ⟨hq, rfl⟩)⟩)

theorem exec_rx1_of_frame {s u : State} {g : CanFrame} {rest : List CanFrame} (hd : s.drvWait = none)
    (hu : boundary .insideOperation (s.setRxip false) = .next u) (hq : u.ctl.hwrx = g :: rest) :
    exec .rx1 s = .next (answer .rx1 (boolCode true :: (delivered g).image)
      (((u.setHwrx rest).pushHri (.rx1 (some (delivered g)))).setHriOut (delivered g))) := by
  have hframe : u.windowFrame = delivered g := State.windowFrame_cons hq
  refine exec_rx1_of_eq (p := ((u.setHwrx rest).pushHri (.rx1 (some (delivered g))), some (delivered g))) hd
    (receiveOne_eq_next.2 ⟨u, hu, receiveFromFifo_eq_next.2 (.inr ⟨g, rest, hq, ?_⟩)⟩)
  rw [hframe]

/-- Settles O23. -/
theorem rxOneTakesTheOldestFrame : Obligations.RxOneTakesTheOldestFrame := by
  intro s hd henv
  obtain ⟨u, hu⟩ := boundary_env_next .insideOperation (s.setRxip false) henv
  refine ⟨u, ?_⟩
  cases hq : u.ctl.hwrx with
  | nil => exact ⟨_, hu, exec_rx1_of_noFrame hd hu hq, boundary_eq_self hu, fun _ => rfl, nofun⟩
  | cons g rest =>
    refine ⟨_, hu, exec_rx1_of_frame hd hu hq, boundary_eq_self hu, nofun, fun g' rest' hg => ?_⟩
    cases hg; rfl

/-- EV_RXFRAME of an accepted frame into a FIFO with room (43_controller_events.md R174, R176). -/
theorem exec_evRxframe_of_stored {g : CanFrame} {s : State} (hbus : s.ctl.onBus = true)
    (hacc : s.ctl.accepts g.id = true) (hroom : s.ctl.hwrx.length < s.cfg.hwrxDepth) :
    exec (.evRxframe g) s = .next (answer (.evRxframe g) [voidCode]
      (s.setCtl { s.ctl with hwrx := s.ctl.hwrx ++ [g], rxip := true })) := by
  simp only [exec, execEvRxframe, frameArrives_eq, if_pos (And.intro hbus hacc), if_pos hroom]

/-- Settles O24: behind the boundary the FIFO ends in the new frame and CTL.RXIP is 1, and RX1's second micro-step takes the
FIFO's head and leaves CTL.RXIP alone. -/
theorem frameBetweenTheMicroStepsKeepsRxip : Obligations.FrameBetweenTheMicroStepsKeepsRxip := by
  intro g s hd hmode hbo hacc hroom hsched
  have hbus : s.ctl.onBus = true := by simp [Ctl.onBus, hmode, hbo]
  have hu := (boundary_of_single (k := .insideOperation) (s := s.setRxip false) (i := .evRxframe g) rfl hsched).trans
    (exec_evRxframe_of_stored (s := (s.setRxip false).setSched []) hbus hacc hroom)
  cases hq : s.ctl.hwrx ++ [g] with
  | nil => exact absurd hq (by simp)
  | cons head rest => exact ⟨_, exec_rx1_of_frame hd hu hq, rfl, rfl, rfl, rfl⟩

end Sys2Proof.Machine
end

section
/-! PROOF of O13, O14, O15 and O17 (41_hri_ops.md R120 to R125, R162, R190): HWINIT is its clock wait, and then, where a read
saw the clock stable, a boundary and steps 3 to 10. What those steps leave is said by two equations, and as a frame
(`HwinitEnded`) that the environment's steps keep. -/

namespace Sys2Proof.Machine

/-! From a stable clock on. -/

theorem initHardware_of_clockWait {m r : Byte} {s : State} {w : State × Progress} (hm : m.toNat < s.cfg.nModules)
    (hw : clockWait (s.setModSel m) = .next w) : initHardware m r false s = afterClock m r false w := by
  have hm' : ¬ s.cfg.nModules ≤ m.toNat := Nat.not_le.2 hm
  simp [initHardware, hm', hw]

theorem afterClock_succeeded {m r : Byte} {fd : Bool} {s u : State} (hu : boundary .insideOperation s = .next u) :
    afterClock m r fd (s, .succeeded) = finishInit m r fd u := by
  simp only [afterClock, hu, andThen_next]

/-- HWINIT that finds the clock stable at its first read is the inner boundary and steps 3 to 10. -/
theorem initHardware_of_stable {m r : Byte} {s u : State} (hm : m.toNat < s.cfg.nModules)
    (hc : s.ctl.clkStable = true) (h0 : s.cfg.clkWaitMax ≠ some 0)
    (hu : boundary .insideOperation (s.setModSel m) = .next u) :
    initHardware m r false s = finishInit m r false u :=
  (initHardware_of_clockWait hm (clockWait_stable (s := s.setModSel m) hc h0)).trans (afterClock_succeeded hu)

theorem finishInit_of_supported {m r : Byte} {v : Word} {fd : Bool} {s : State} (h : timingOf s.cfg r = some v) :
    finishInit m r fd s =
      .next ((s.setCtl (s.ctl.operating s.cfg v fd)).pushHri (.hwinit m r fd true), .succeeded) := by
  simp only [finishInit_eq, h]

theorem finishInit_of_unsupported {m r : Byte} {fd : Bool} {s : State} (h : timingOf s.cfg r = none) :
    finishInit m r fd s =
      .next ((s.setCtl (s.ctl.failedClosed s.cfg fd)).pushHri (.hwinit m r fd false), .failed) := by
  simp only [finishInit_eq, h]

/-! What the environment's steps keep of the fields that HWINIT's end reads and that the statements name. -/

section
variable {s t : State}

theorem EnvSteps.cfg (h : EnvSteps s t) : t.cfg = s.cfg := by rw [h.same]
theorem EnvSteps.ds (h : EnvSteps s t) : t.ds = s.ds := by rw [h.same]
theorem EnvSteps.shutReq (h : EnvSteps s t) : t.shutReq = s.shutReq := by rw [h.same]
theorem EnvSteps.txf (h : EnvSteps s t) : t.txf = s.txf := by rw [h.same]
theorem EnvSteps.rxr (h : EnvSteps s t) : t.rxr = s.rxr := by rw [h.same]
theorem EnvSteps.hriLog (h : EnvSteps s t) : t.hriLog = s.hriLog := by rw [h.same]
theorem EnvSteps.drvWait (h : EnvSteps s t) : t.drvWait = s.drvWait := by rw [h.same]
theorem EnvSteps.modSel (h : EnvSteps s t) : t.ctl.modSel = s.ctl.modSel := by rw [h.ctl]
theorem EnvSteps.mode (h : EnvSteps s t) : t.ctl.mode = s.ctl.mode := by rw [h.ctl]

end

/-- Settles O13. -/
theorem hwinitLeavesTheControllerOperating : Obligations.HwinitLeavesTheControllerOperating := by
  intro m r v s hd hm hc h0 hv henv
  obtain ⟨u, hu⟩ := boundary_env_next .insideOperation (s.setModSel m) henv
  have hsteps := boundary_envSteps (s := s.setModSel m) henv hu
  have hcfg : u.cfg = s.cfg := hsteps.cfg
  have hlog : u.hriLog = s.hriLog := hsteps.hriLog
  have hmod : u.ctl.modSel = m := hsteps.modSel
  have hend := (initHardware_of_stable (r := r) hm hc h0 hu).trans (finishInit_of_supported (hcfg ▸ hv))
  refine ⟨u, _, hu, exec_hwinit_of_eq hd hend, boundary_eq_self hu, ?_, ?_, ?_⟩
  · rw [← hlog]; rfl
  · rw [← hmod, ← hcfg]; rfl
  · rw [← hcfg]; exact List.take_left' (filterRegs_length u.cfg)

/-- Settles O14. -/
theorem hwinitFailsClosedOnUnsupportedRate : Obligations.HwinitFailsClosedOnUnsupportedRate := by
  intro m r s hd hm hc h0 hnone henv
  obtain ⟨u, hu⟩ := boundary_env_next .insideOperation (s.setModSel m) henv
  have hsteps := boundary_envSteps (s := s.setModSel m) henv hu
  have hcfg : u.cfg = s.cfg := hsteps.cfg
  have hlog : u.hriLog = s.hriLog := hsteps.hriLog
  have hmod : u.ctl.modSel = m := hsteps.modSel
  have hend := (initHardware_of_stable (r := r) hm hc h0 hu).trans (finishInit_of_unsupported (hcfg ▸ hnone))
  refine ⟨u, _, hu, exec_hwinit_of_eq hd hend, boundary_eq_self hu, ?_⟩
  rw [← hlog, ← hmod, ← hcfg]; rfl

/-- Settles O15. -/
theorem hwinitTimesOutOnAnUnstableClock : Obligations.HwinitTimesOutOnAnUnstableClock := fun _ _ _ _ hd hm hn hwait =>
  exec_hwinit_of_eq hd (initHardware_timesOut hm hn hwait)

/-! What HWINIT leaves whatever the environment does meanwhile. -/

/-- The controller as steps 3 to 10 of HWINIT with `rate` leave it, in the registers that no environment step writes
(R120, R124, R125). -/
structure Ctl.Configured (c : Ctl) (cfg : Config) (rate : Byte) : Prop where
  operating : ∀ v, timingOf cfg rate = some v → c.mode = .normal ∧ c.fltWe = false ∧
    c.flt.take c.fltN = filterRegs cfg ∧ c.ie = ⟨true, true, true⟩ ∧ c.nbt = v ∧ c.fdEn = false
  failedClosed : timingOf cfg rate = none → c.mode = .configuration ∧ c.nbt = cfg.nbtDefault

theorem Ctl.configured_operating {c : Ctl} {cfg : Config} {rate : Byte} {v : Word} (h : timingOf cfg rate = some v) :
    (c.operating cfg v false).Configured cfg rate where
  operating w hw := by
    cases h.symm.trans hw
    exact ⟨rfl, rfl, List.take_left' (filterRegs_length cfg), rfl, rfl, rfl⟩
  failedClosed hnone := nomatch h.symm.trans hnone

theorem Ctl.configured_failedClosed {c : Ctl} {cfg : Config} {rate : Byte} (h : timingOf cfg rate = none) :
    (c.failedClosed cfg false).Configured cfg rate where
  operating _ hw := nomatch h.symm.trans hw
  failedClosed _ := ⟨rfl, rfl⟩

/-- A HWINIT of module `m` with `rate` has gone on from `s` to its end in `t`, other agents of the environment stepping
before, inside and after it. -/
structure HwinitEnded (m rate : Byte) (s t : State) : Prop where
  same : t = { s with
    errLog := t.errLog, ctl := t.ctl, busOut := t.busOut, respLog := t.respLog, sched := t.sched
    drvWait := none
    hriLog := s.hriLog ++ [.hwinit m rate false (timingOf s.cfg rate).isSome] }
  configured : t.ctl.Configured s.cfg rate

theorem HwinitEnded.before {m rate : Byte} {s t u : State} (h : EnvSteps s t) (h' : HwinitEnded m rate t u) :
    HwinitEnded m rate s u :=
  ⟨by rw [h'.same, h.same], h.cfg ▸ h'.configured⟩

theorem HwinitEnded.after {m rate : Byte} {s t u : State} (h : HwinitEnded m rate s t) (h' : EnvSteps t u) :
    HwinitEnded m rate s u := by
  refine ⟨by rw [h'.same, h.same], ?_⟩
  rw [h'.ctl]
  exact ⟨h.configured.operating, h.configured.failedClosed⟩

/-- How HWINIT ends once it has seen the clock stable. -/
def initProgress (cfg : Config) (rate : Byte) : Progress := if (timingOf cfg rate).isSome then .succeeded else .failed

theorem answerProgress_initProgress (c : DrvCall) (cfg : Config) (rate : Byte) (s : State) :
    answerProgress c (initProgress cfg rate) s = answer c.request [boolCode (timingOf cfg rate).isSome] s := by
  unfold initProgress
  cases timingOf cfg rate <;> rfl

/-- Steps 3 to 10 with the log entry always end, and in one of the two forms of R124 and R125. -/
theorem finishInit_ended {m rate : Byte} {s : State} (hd : s.drvWait = none) :
    ∃ t, finishInit m rate false s = .next (t, initProgress s.cfg rate) ∧ HwinitEnded m rate s t ∧
      t.sched = s.sched := by
  unfold initProgress
  cases hv : timingOf s.cfg rate with
  | some v => exact ⟨_, finishInit_of_supported hv, ⟨by rw [hv, ← hd]; rfl, Ctl.configured_operating hv⟩, rfl⟩
  | none => exact ⟨_, finishInit_of_unsupported hv, ⟨by rw [hv, ← hd]; rfl, Ctl.configured_failedClosed hv⟩, rfl⟩

/-- HWINIT from the read that saw the clock stable on, with only environment steps at its boundary. -/
theorem afterClock_ended {m rate : Byte} {s : State} (hd : s.drvWait = none) (henv : EnvOnly (s.sched.headD [])) :
    ∃ t, afterClock m rate false (s, .succeeded) = .next (t, initProgress s.cfg rate) ∧ HwinitEnded m rate s t ∧
      t.sched = s.sched.drop 1 := by
  obtain ⟨u, hu⟩ := boundary_env_next .insideOperation s henv
  have hsteps := boundary_envSteps henv hu
  obtain ⟨t, ht, hended, hsched⟩ := finishInit_ended (m := m) (rate := rate) (s := u) (hsteps.drvWait.trans hd)
  exact ⟨t, by rw [afterClock_succeeded hu, ht, hsteps.cfg], hended.before hsteps, hsched.trans (boundary_sched hu)⟩

section
variable {m rate : Byte} {s t : State}

theorem HwinitEnded.cfg (h : HwinitEnded m rate s t) : t.cfg = s.cfg := by rw [h.same]
theorem HwinitEnded.ds (h : HwinitEnded m rate s t) : t.ds = s.ds := by rw [h.same]
theorem HwinitEnded.shutReq (h : HwinitEnded m rate s t) : t.shutReq = s.shutReq := by rw [h.same]
theorem HwinitEnded.txf (h : HwinitEnded m rate s t) : t.txf = s.txf := by rw [h.same]
theorem HwinitEnded.rxr (h : HwinitEnded m rate s t) : t.rxr = s.rxr := by rw [h.same]
theorem HwinitEnded.inbox (h : HwinitEnded m rate s t) : t.inbox = s.inbox := by rw [h.same]
theorem HwinitEnded.drvWait (h : HwinitEnded m rate s t) : t.drvWait = none := by rw [h.same]

theorem HwinitEnded.hriLog (h : HwinitEnded m rate s t) :
    t.hriLog = s.hriLog ++ [.hwinit m rate false (timingOf s.cfg rate).isSome] := by rw [h.same]

/-- Under the configured rate, if it is supported, the controller is as R161 says of ActiveOperation. -/
theorem HwinitEnded.operating (h : HwinitEnded m s.cfg.cfgRate s t) (hok : (timingOf s.cfg s.cfg.cfgRate).isSome = true) :
    t.Operating := by
  obtain ⟨v, hv⟩ := Option.isSome_iff_exists.1 hok
  obtain ⟨hmode, hlock, hrules, hie, hnbt, hfd⟩ := h.configured.operating v hv
  have hcfg := h.cfg
  exact ⟨hmode, hlock, hcfg ▸ hrules, hie, by rw [hcfg, hnbt, hv], hfd⟩

theorem HwinitEnded.configuration_of_unsupported (h : HwinitEnded m rate s t)
    (hok : (timingOf s.cfg rate).isSome = false) : t.ctl.mode = .configuration :=
  (h.configured.failedClosed (by simpa using hok)).1

end

theorem envOnly_headD_drop {xs : List (List Instr)} (h : ∀ steps ∈ xs, EnvOnly steps) (k : Nat) :
    EnvOnly ((xs.drop k).headD []) := by
  cases hx : xs.drop k with
  | nil => exact fun _ hi => nomatch hi
  | cons steps later => exact h steps (List.mem_of_mem_drop (hx ▸ List.mem_cons_self))

/-! HWINIT under a bounded clock wait (R122, R162). -/

/-- At most `n` reads: a wait that has seen the clock stable has passed a boundary less than it made reads. -/
theorem clockWait_bounded {n : Nat} {s : State} (hn : s.cfg.clkWaitMax = some n)
    (henv : ∀ steps ∈ s.sched, EnvOnly steps) :
    ∃ u seen k, clockWait s = .next (u, if seen then .succeeded else .failed) ∧ EnvSteps s u ∧
      u.sched = s.sched.drop k ∧ k ≤ n ∧ (seen = true → k < n) := by
  cases n with
  | zero => exact ⟨s, false, 0, by simp [clockWait, hn], .refl s, rfl, Nat.le_refl 0, nofun⟩
  | succ j =>
    obtain ⟨r, hr, hsteps, -⟩ := pollClock_envSteps (n := j) henv
    obtain ⟨k, hk, hsched⟩ := pollClock_sched hr
    exact ⟨r.1, r.2, k, by simp [clockWait, hn, hr], hsteps, hsched, by omega, fun _ => by omega⟩

/-- Settles O17: the wait ends without a read of a stable clock, and HWINIT has changed CTL.MODSEL alone; or it has seen one
and goes on to its end. -/
theorem boundedHwinitAlwaysAnswers : Obligations.BoundedHwinitAlwaysAnswers := by
  intro m r n s hd hm hn henv
  obtain ⟨u, seen, k, hw, hsteps, hsched, hk, hlt⟩ := clockWait_bounded (s := s.setModSel m) hn henv
  have hinit := initHardware_of_clockWait (r := r) hm hw
  cases seen with
  | false =>
    have hlog : u.hriLog = s.hriLog := hsteps.hriLog
    have hexec : exec (.hwinit m r false) s =
        .next (answer (.hwinit m r false) [boolCode false] (u.pushHri (.hwinit m r false false))) :=
      exec_hwinit_of_eq hd hinit
    exact ⟨_, false, hexec, by simp [hlog], List.getLast?_concat, nofun, fun _ => .inr hsteps.mode,
      ⟨k, hk, hsched⟩, fun _ => rfl, hsteps.ds, hsteps.shutReq, hsteps.txf, hsteps.rxr, hsteps.drvWait.trans hd⟩
  | true =>
    obtain ⟨t, ht, hended, hsched'⟩ := afterClock_ended (m := m) (rate := r) (hsteps.drvWait.trans hd)
      (hsched ▸ envOnly_headD_drop henv k)
    have hended := hended.before hsteps
    have hcfg : u.cfg = s.cfg := hsteps.cfg
    have hexec := exec_hwinit_of_eq hd (hinit.trans ht)
    rw [hcfg, answerProgress_initProgress] at hexec
    refine ⟨_, _, hexec, hended.hriLog, List.getLast?_concat, fun hb => ?_,
      fun hb => .inl (hended.configuration_of_unsupported hb), ⟨k + 1, hlt rfl, ?_⟩, fun h0 => absurd (hlt rfl) (by omega),
      hended.ds, hended.shutReq, hended.txf, hended.rxr, hended.drvWait⟩
    · obtain ⟨v, hv⟩ := Option.isSome_iff_exists.1 hb
      obtain ⟨hmode, -, -, -, hnbt, -⟩ := hended.configured.operating v hv
      exact ⟨hmode, hv.trans (congrArg some hnbt.symm)⟩
    · exact hsched'.trans (by rw [hsched, List.drop_drop]; rfl)

end Sys2Proof.Machine
end

section
/-! PROOF of O18 and O19 (00_scope.md R12, 41_hri_ops.md R122, 42_state_machine.md R151, R152, R157; log 9): a DRV that is
stuck in the unbounded clock wait, and how it goes on. The request it is inside ends by `HwinitEnded`, which BUFINIT and the
answer of the request add to. -/

namespace Sys2Proof.Machine

/-! Getting stuck. -/

theorem initDriver_sticks {s : State} (ha : InitAccepted s.cfg) (hn : s.cfg.clkWaitMax = none)
    (hc : s.ctl.clkStable = false) :
    initDriver s = .next ((s.setModSel s.cfg.cfgModule).setDrvWait
      (some (.hwinit s.cfg.cfgModule s.cfg.cfgRate false)), .waiting) := by
  obtain ⟨hm, hfd⟩ := ha
  rw [initDriver, hfd, initHardware_sticks hm hn hc]
  rfl

theorem exec_tick_of_eq {s t : State} (hd : s.drvWait = none) (h : periodicTask s = .next t) :
    exec .tick s = .next (finishTick t) :=
  drvRequest_eq_next.2 ⟨hd, andThen_eq_next.2 ⟨t, h, rfl⟩⟩

/-- A cycle in Init with no shutdown pending is DRVINIT and the move of DS (R150, R151). -/
theorem periodicTask_of_init {s : State} {p : State × Progress} (hds : s.ds = .init) (hq : s.shutReq = false)
    (h : initDriver s = .next p) : periodicTask s = .next (enterActiveOn p.2 p.1) := by
  simp [periodicTask, hq, cycleWork, hds, cycleInit, h]

/-- A TICK in Init gets stuck in the HWINIT that it calls (R232). -/
theorem exec_tick_sticks {s : State} (hd : s.drvWait = none) (hds : s.ds = .init) (hq : s.shutReq = false)
    (ha : InitAccepted s.cfg) (hn : s.cfg.clkWaitMax = none) (hc : s.ctl.clkStable = false) :
    exec .tick s = .next ((s.setModSel s.cfg.cfgModule).setDrvWait (some .tick)) :=
  exec_tick_of_eq hd (periodicTask_of_init hds hq (initDriver_sticks ha hn hc))

/-- Without a request a stuck DRV stays as it is (R122). -/
theorem step_of_stuck {s : State} (hc : s.ctl.clkStable = false) (hi : s.inbox = []) : step s = .next s := by
  rw [step_of_not_ready (by simp [hc]), serveInbox_of_empty hi]

/-- Settles O18. -/
theorem unboundedClockWaitSticks : Obligations.UnboundedClockWaitSticks := by
  intro s hd hds hq ha hn hc
  refine ⟨_, exec_tick_sticks hd hds hq ha hn hc, rfl, exec_driver_busy (.inl rfl) nofun, step_of_stuck hc,
    fun f hw hroom => ?_, fun f hfull => exec_enqtx_of_full (Ring.isFull_eq_true_iff.2 hfull),
    fun m r hm => exec_hwinit_of_eq hd (initHardware_sticks hm hn hc)⟩
  refine ⟨_, exec_enqtx_of_room hw (Ring.isFull_eq_false_iff.2 hroom), rfl, rfl, rfl, rfl, ?_, rfl⟩
  have hid := congrArg CanFrame.id (Ring.read_enqueue s.cfg.cTx s.txf f)
  exact hid

/-! Going on. -/

/-- DRV goes on where the boundary before its read leaves the clock stable. -/
theorem step_of_woken {c : DrvCall} {s u : State} (hc : s.ctl.clkStable = true) (hd : s.drvWait = some c)
    (hu : boundary .insideOperation s = .next u) (hcu : u.ctl.clkStable = true) : step s = resumeRequest c u :=
  (step_of_ready hc hd).trans (goOn_of_stable hu hcu)

theorem HwinitEnded.initBuffers {m rate : Byte} {s t : State} (h : HwinitEnded m rate s t) :
    HwinitEnded m rate (Machine.initBuffers s) (Machine.initBuffers t) :=
  ⟨by rw [h.same]; rfl, h.configured⟩

theorem afterHardware_initProgress {cfg : Config} {rate : Byte} {s u : State} (hu : boundary .betweenCalls s = .next u) :
    afterHardware (s, initProgress cfg rate) = .next (initBuffers u, initProgress cfg rate) := by
  unfold initProgress
  cases timingOf cfg rate <;> simp [afterHardware, hu]

section
variable {s : State}

theorem resumeHardware_ended (m rate : Byte) (henv : ∀ steps ∈ s.sched, EnvOnly steps) :
    ∃ t, resumeHardware m rate false s = .next (t, initProgress s.cfg rate) ∧ HwinitEnded m rate s t ∧
      t.sched = s.sched.drop 1 := by
  obtain ⟨t, ht, hended, hsched⟩ :=
    afterClock_ended (m := m) (rate := rate) (s := s.setDrvWait none) rfl (envOnly_headD_drop henv 0)
  exact ⟨t, ht, ⟨hended.same, hended.configured⟩, hsched⟩

/-- HWINIT and then BUFINIT, with only environment steps between them. -/
theorem resumeHardware_afterHardware_ended (m rate : Byte) (henv : ∀ steps ∈ s.sched, EnvOnly steps) :
    ∃ r t, resumeHardware m rate false s = .next r ∧
      afterHardware r = .next (initBuffers t, initProgress s.cfg rate) ∧ HwinitEnded m rate s t := by
  obtain ⟨t, ht, hended, hsched⟩ := resumeHardware_ended m rate henv
  have henv' : EnvOnly (t.sched.headD []) := hsched ▸ envOnly_headD_drop henv 1
  obtain ⟨u, hu⟩ := boundary_env_next .betweenCalls t henv'
  exact ⟨_, u, ht, afterHardware_initProgress hu, hended.after (boundary_envSteps henv' hu)⟩

theorem resumeRequest_hwinit (m rate : Byte) (henv : ∀ steps ∈ s.sched, EnvOnly steps) :
    ∃ t, resumeRequest (.hwinit m rate false) s =
        .next (answer (.hwinit m rate false) [boolCode (timingOf s.cfg rate).isSome] t) ∧ HwinitEnded m rate s t := by
  obtain ⟨t, ht, hended, -⟩ := resumeHardware_ended m rate henv
  refine ⟨t, ?_, hended⟩
  simp only [resumeRequest, ht, andThen_next, answerProgress_initProgress]
  rfl

variable (hfd : s.cfg.cfgFd = false) (henv : ∀ steps ∈ s.sched, EnvOnly steps)
include hfd henv

theorem resumeRequest_drvinit :
    ∃ t, resumeRequest .drvinit s =
        .next (answer .drvinit [boolCode (timingOf s.cfg s.cfg.cfgRate).isSome] (initBuffers t)) ∧
      HwinitEnded s.cfg.cfgModule s.cfg.cfgRate s t := by
  obtain ⟨r, t, hr, ht, hended⟩ := resumeHardware_afterHardware_ended s.cfg.cfgModule s.cfg.cfgRate henv
  refine ⟨t, ?_, hended⟩
  simp only [resumeRequest, hfd, hr, ht, andThen_next, answerProgress_initProgress]
  rfl

theorem resumeRequest_tick_init (hds : s.ds = .init) :
    ∃ t, resumeRequest .tick s =
        .next (finishTick (enterActiveOn (initProgress s.cfg s.cfg.cfgRate) (initBuffers t))) ∧
      HwinitEnded s.cfg.cfgModule s.cfg.cfgRate s t := by
  obtain ⟨r, t, hr, ht, hended⟩ := resumeHardware_afterHardware_ended s.cfg.cfgModule s.cfg.cfgRate henv
  exact ⟨t, by simp only [resumeRequest, hds, hfd, hr, ht, andThen_next], hended⟩

theorem resumeRequest_tick_errorHandling (hds : s.ds = .errorHandling) :
    ∃ t, resumeRequest .tick s = .next (finishTick (enterActiveOn (initProgress s.cfg s.cfg.cfgRate) t)) ∧
      HwinitEnded s.cfg.cfgModule s.cfg.cfgRate s t := by
  obtain ⟨t, ht, hended, -⟩ := resumeHardware_ended s.cfg.cfgModule s.cfg.cfgRate henv
  exact ⟨t, by simp only [resumeRequest, hds, hfd, ht, andThen_next], hended⟩

end

/-- A TICK that called HWINIT with the configured arguments has ended in `t`, its buffers being those of `s`. -/
structure TickEnded (s t : State) : Prop where
  drvWait : t.drvWait = none
  inbox : t.inbox = s.inbox
  txf : t.txf = s.txf
  rxr : t.rxr = s.rxr
  hriLog : t.hriLog =
    s.hriLog ++ [.hwinit s.cfg.cfgModule s.cfg.cfgRate false (timingOf s.cfg s.cfg.cfgRate).isSome]
  respLog : t.respLog.getLast? = some ⟨0x10#8, [0#32]⟩
  activated : (timingOf s.cfg s.cfg.cfgRate).isSome = true → t.ds = .activeOperation ∧ t.Operating
  remained : (timingOf s.cfg s.cfg.cfgRate).isSome = false → t.ds = s.ds ∧ t.ctl.mode = .configuration

/-- The move of DS and the answer, after HWINIT (R151, R157). -/
theorem HwinitEnded.tickEnded {s t : State} (h : HwinitEnded s.cfg.cfgModule s.cfg.cfgRate s t) :
    TickEnded s (finishTick (enterActiveOn (initProgress s.cfg s.cfg.cfgRate) t)) := by
  unfold initProgress
  cases hok : (timingOf s.cfg s.cfg.cfgRate).isSome with
  | true =>
    have hfree : (enterActiveOn .succeeded t).drvWait = none := h.drvWait
    rw [if_pos rfl, finishTick_free hfree]
    exact ⟨h.drvWait, h.inbox, h.txf, h.rxr, h.hriLog, List.getLast?_concat, fun _ => ⟨rfl, h.operating hok⟩,
      fun hnot => (nomatch hok.symm.trans hnot)⟩
  | false =>
    have hfree : (enterActiveOn .failed t).drvWait = none := h.drvWait
    rw [if_neg nofun, finishTick_free hfree]
    exact ⟨h.drvWait, h.inbox, h.txf, h.rxr, h.hriLog, List.getLast?_concat, fun hyes => (nomatch hok.symm.trans hyes),
      fun _ => ⟨h.ds, h.configuration_of_unsupported hok⟩⟩

/-- Settles O19: behind the boundary before the read each request ends as `HwinitEnded` says, seen from `s`. -/
theorem clockWaitEndsWhenTheClockIsStable : Obligations.ClockWaitEndsWhenTheClockIsStable := by
  intro s hc hfd henv
  have hhead := envOnly_headD_drop henv 0
  obtain ⟨u, hu⟩ := boundary_env_next .insideOperation s hhead
  have hsteps := boundary_envSteps hhead hu
  have hcfg := hsteps.cfg
  have hufd : u.cfg.cfgFd = false := hcfg ▸ hfd
  have huenv : ∀ steps ∈ u.sched, EnvOnly steps := fun x hx =>
    henv x (List.mem_of_mem_drop (boundary_sched hu ▸ hx))
  refine ⟨u, hu, boundary_eq_self hu, fun hcu c hd => ?_, fun hcu => ⟨fun m r hd => ?_, ?_⟩⟩
  · exact ⟨(step_of_ready hc hd).trans (goOn_of_unstable hu hcu), hsteps.drvWait.trans hd, hsteps.hriLog⟩
  · obtain ⟨t, ht, hended⟩ := resumeRequest_hwinit m r huenv
    have hended := hended.before hsteps
    rw [hcfg] at ht
    refine ⟨_, (step_of_woken hc hd hu hcu).trans ht, hended.drvWait, hended.ds, hended.txf, hended.rxr, hended.inbox,
      hended.hriLog, List.getLast?_concat, fun v hv => ?_, hended.configured.failedClosed⟩
    obtain ⟨hmode, -, -, -, hnbt, -⟩ := hended.configured.operating v hv
    exact ⟨hmode, hnbt⟩
  rintro ok rfl
  refine ⟨fun hd => ?_, fun hd hds => ?_⟩
  · obtain ⟨t, ht, hended⟩ := resumeRequest_drvinit hufd huenv
    rw [hcfg] at ht hended
    have hhardware := hended.before hsteps
    have hended := hhardware.initBuffers
    exact ⟨_, (step_of_woken hc hd hu hcu).trans ht, hended.drvWait, hended.ds, hended.inbox, hended.txf, hended.rxr,
      hended.hriLog, List.getLast?_concat, hhardware.operating,
      hhardware.configuration_of_unsupported⟩
  rcases hds with hds | hds
  · obtain ⟨t, ht, hended⟩ := resumeRequest_tick_init hufd huenv (hsteps.ds.trans hds)
    rw [hcfg] at ht hended
    have hend := HwinitEnded.tickEnded (s := initBuffers s) (hended.before hsteps).initBuffers
    exact ⟨_, (step_of_woken hc hd hu hcu).trans ht, hend.drvWait, hend.inbox, fun _ => ⟨hend.txf, hend.rxr⟩,
      fun hother => (nomatch hds.symm.trans hother), hend.hriLog, hend.respLog, hend.activated, hend.remained⟩
  · obtain ⟨t, ht, hended⟩ := resumeRequest_tick_errorHandling hufd huenv (hsteps.ds.trans hds)
    rw [hcfg] at ht hended
    have hend := HwinitEnded.tickEnded (hended.before hsteps)
    exact ⟨_, (step_of_woken hc hd hu hcu).trans ht, hend.drvWait, hend.inbox, fun hother => (nomatch hds.symm.trans hother),
      fun _ => ⟨hend.txf, hend.rxr⟩, hend.hriLog, hend.respLog, hend.activated, hend.remained⟩

end Sys2Proof.Machine
end

section
/-! SUPPORT. What a TICK can do, said once (42_state_machine.md R150 to R158), and what the steps of other agents at a boundary
leave alone, APP's and HOST's included. -/

namespace Sys2Proof.Machine

/-! Steps of other agents at a boundary. -/

/-- What any number of other agents' steps and boundaries leave alone: CONFIG, DS, HRI_LOG, the request DRV is inside, and the
controller's registers that only the HRI writes (20_memory.md R61). -/
structure OtherSteps (s t : State) : Prop where
  same : t = { s with
    shutReq := t.shutReq, txf := t.txf, rxr := t.rxr, errLog := t.errLog, ctl := t.ctl, busOut := t.busOut
    respLog := t.respLog, appOut := t.appOut, sched := t.sched }
  ctl : t.ctl = { s.ctl with
    clkStable := t.ctl.clkStable, ifl := t.ctl.ifl, rxip := t.ctl.rxip, txReq := t.ctl.txReq
    hwrx := t.ctl.hwrx, bo := t.ctl.bo, tec := t.ctl.tec, recCnt := t.ctl.recCnt }

theorem OtherSteps.refl (s : State) : OtherSteps s s := ⟨rfl, rfl⟩

theorem OtherSteps.trans {s t u : State} (h : OtherSteps s t) (h' : OtherSteps t u) : OtherSteps s u :=
  ⟨by rw [h'.same, h.same], by rw [h'.ctl, h.ctl]⟩

theorem EnvStep.otherSteps {s t : State} (h : EnvStep s t) : OtherSteps s t := ⟨by rw [h.same], h.ctl⟩

theorem TaskStep.otherSteps {s t : State} (h : TaskStep s t) : OtherSteps s t := by
  have hctl : t.ctl = s.ctl := by rw [h.same]
  exact ⟨by rw [h.same], by rw [hctl]⟩

theorem interjectAll_otherSteps {k : Boundary} {steps : List Instr} {s t : State}
    (h : interjectAll k steps s = .next t) : OtherSteps s t := by
  induction steps generalizing s with
  | nil => cases h; exact .refl _
  | cons i rest ih =>
    obtain ⟨u, hu, ht⟩ := andThen_eq_next.1 h
    obtain ⟨he, hi | ⟨hi, -⟩⟩ := interject_eq_next hu
    · exact (exec_env hi he).otherSteps.trans (ih ht)
    · exact (exec_task hi he).otherSteps.trans (ih ht)

theorem boundary_otherSteps {k : Boundary} {s t : State} (h : boundary k s = .next t) : OtherSteps s t := by
  cases hs : s.sched with
  | nil => rw [boundary_nil hs] at h; cases h; exact .refl s
  | cons steps later =>
    rw [boundary_cons hs] at h
    exact OtherSteps.trans (t := s.setSched later) ⟨rfl, rfl⟩ (interjectAll_otherSteps h)

theorem pollClock_otherSteps {n : Nat} {s : State} {r : State × Bool} (h : pollClock n s = .next r) :
    OtherSteps s r.1 := by
  induction n generalizing s with
  | zero => cases h; exact .refl _
  | succ m ih =>
    unfold pollClock at h
    split at h
    · cases h; exact .refl _
    · obtain ⟨u, hu, h⟩ := andThen_eq_next.1 h
      exact (boundary_otherSteps hu).trans (ih h)

/-- The clock wait only reads, and passes boundaries (41_hri_ops.md R122). -/
theorem clockWait_otherSteps {s : State} {w : State × Progress} (h : clockWait s = .next w) : OtherSteps s w.1 := by
  unfold clockWait at h
  split at h
  · cases h; exact .refl s
  · obtain ⟨r, hr, h⟩ := andThen_eq_next.1 h
    cases h; exact pollClock_otherSteps hr
  · cases h; exact .refl s

section
variable {s t : State}

theorem OtherSteps.cfg (h : OtherSteps s t) : t.cfg = s.cfg := by rw [h.same]
theorem OtherSteps.ds (h : OtherSteps s t) : t.ds = s.ds := by rw [h.same]
theorem OtherSteps.hriLog (h : OtherSteps s t) : t.hriLog = s.hriLog := by rw [h.same]
theorem OtherSteps.drvWait (h : OtherSteps s t) : t.drvWait = s.drvWait := by rw [h.same]

end

/-! The work of a TICK. -/

/-- What the work of a TICK can be: the shutdown, or the cycle of the current state. -/
inductive TickWork (s t : State) : Prop
  /-- a pending SHUTREQ wins over the work of the current state (R158) -/
  | shutdown (hq : s.shutReq = true) (hds : s.ds ≠ .shutdown) (ht : t = shutDown s)
  /-- Init: DRVINIT, and on success ActiveOperation (R151) -/
  | init (hds : s.ds = .init) (p : State × Progress) (hp : initDriver s = .next p) (ht : t = enterActiveOn p.2 p.1)
  /-- ActiveOperation: one drain, the burst, the bus-error hook (R154, R155) -/
  | active (hds : s.ds = .activeOperation) (d : State × Status) (u : State) (e : State × Bool)
      (hd : drainTransmit s = .next d) (hu : fillBurst s.cfg.rxBurst d.1 = .next u) (he : busError u = .next e)
      (ht : t = if e.2 then e.1.setDs .errorHandling else e.1)
  /-- ErrorHandling: HWINIT, and on success ActiveOperation (R157) -/
  | recover (hds : s.ds = .errorHandling) (p : State × Progress)
      (hp : initHardware s.cfg.cfgModule s.cfg.cfgRate s.cfg.cfgFd s = .next p) (ht : t = enterActiveOn p.2 p.1)
  /-- Shutdown: nothing (R158) -/
  | idle (hds : s.ds = .shutdown) (ht : t = s)

theorem cycleErrorHandling_eq (s : State) :
    cycleErrorHandling s = andThen (initHardware s.cfg.cfgModule s.cfg.cfgRate s.cfg.cfgFd s) fun r =>
      .next (enterActiveOn r.2 r.1) := by
  unfold cycleErrorHandling
  split
  rfl

theorem tickWork_of_periodicTask {s t : State} (h : periodicTask s = .next t) : TickWork s t := by
  unfold periodicTask at h
  split at h
  · next hc => cases h; exact .shutdown hc.1 hc.2 rfl
  · unfold cycleWork at h
    split at h
    case h_1 hds =>
      obtain ⟨p, hp, h⟩ := andThen_eq_next.1 h
      cases h; exact .init hds p hp rfl
    case h_2 hds =>
      obtain ⟨d, hd, h⟩ := andThen_eq_next.1 h
      obtain ⟨u, hu, h⟩ := andThen_eq_next.1 h
      obtain ⟨e, he, h⟩ := andThen_eq_next.1 h
      cases h; exact .active hds d u e hd hu he rfl
    case h_3 hds =>
      rw [cycleErrorHandling_eq] at h
      obtain ⟨p, hp, h⟩ := andThen_eq_next.1 h
      cases h; exact .recover hds p hp rfl
    case h_4 hds => cases h; exact .idle hds rfl

/-- A TICK that answers, or that leaves DRV stuck inside it, has done the work of a TICK. -/
theorem tickWork_of_exec {s t : State} (h : exec .tick s = .next t) :
    s.drvWait = none ∧ ∃ u, TickWork s u ∧ t = finishTick u := by
  obtain ⟨hd, h⟩ := drvRequest_eq_next.1 h
  obtain ⟨u, hu, h⟩ := andThen_eq_next.1 h
  cases h
  exact ⟨hd, u, tickWork_of_periodicTask hu, rfl⟩

/-- A TICK inside which DRV is stuck has no end yet, and no answer. -/
theorem finishTick_stuck {s : State} (h : s.drvWait ≠ none) : finishTick s = s.setDrvWait (some .tick) := by
  obtain ⟨c, hc⟩ := Option.ne_none_iff_exists'.1 h
  simp only [finishTick, hc]

theorem finishTick_ds (s : State) : (finishTick s).ds = s.ds := by
  unfold finishTick; split <;> rfl

theorem finishTick_hriLog (s : State) : (finishTick s).hriLog = s.hriLog := by
  unfold finishTick; split <;> rfl

theorem enterActiveOn_hriLog (p : Progress) (s : State) : (enterActiveOn p s).hriLog = s.hriLog := by
  cases p <;> rfl

/-- BUSERR_POLICY `Never` makes no call and sees no error; `BusOffFlag` is a boundary and GETERR (R156). -/
theorem busError_eq_next {s : State} {e : State × Bool} :
    busError s = .next e ↔ (s.cfg.busErrPolicy = .never ∧ e = (s, false)) ∨
      (s.cfg.busErrPolicy = .busOffFlag ∧ ∃ u, boundary .betweenCalls s = .next u ∧
        e = (u.pushHri (.geterr u.ctl.errRecord), u.ctl.bo)) := by
  unfold busError
  cases s.cfg.busErrPolicy with
  | never => simp [eq_comm (b := e)]
  | busOffFlag => simp [andThen_eq_next, getErrorFlags, Ctl.errRecord, eq_comm (b := e)]

/-- DRVINIT behind its HWINIT: the end of HWINIT stays as it is, and BUFINIT follows unless DRV is stuck (R152). -/
theorem afterHardware_eq_next {r p : State × Progress} :
    afterHardware r = .next p ↔ (r.2 = .waiting ∧ p = r) ∨
      (r.2 ≠ .waiting ∧ ∃ u, boundary .betweenCalls r.1 = .next u ∧ p = (initBuffers u, r.2)) := by
  obtain ⟨s, q⟩ := r
  cases q <;> simp [afterHardware, andThen_eq_next, eq_comm (b := p)]

end Sys2Proof.Machine
end

section
/-! PROOF of O48 (10_state.md R16, 42_state_machine.md R159). No elementary update writes DS (`preserved_cfg_ds`), so DS moves
only where the work of a TICK says so, at its end. -/

namespace Sys2Proof.Machine

/-- DS is as before, or has moved by a line of the table (R159). -/
inductive DsMove (s t : State) : Prop
  | stay (h : t.ds = s.ds)
  | initialized (hs : s.ds = .init) (ht : t.ds = .activeOperation)
  | busError (hs : s.ds = .activeOperation) (ht : t.ds = .errorHandling) (hp : s.cfg.busErrPolicy = .busOffFlag)
  | recovered (hs : s.ds = .errorHandling) (ht : t.ds = .activeOperation)
  | shutdown (hs : s.ds ≠ .shutdown) (ht : t.ds = .shutdown) (hq : s.shutReq = true)

theorem DsMove.congr {s t t' : State} (h : DsMove s t) (ht : t'.ds = t.ds) : DsMove s t' := by
  cases h with
  | stay h => exact .stay (ht.trans h)
  | initialized hs hm => exact .initialized hs (ht.trans hm)
  | busError hs hm hp => exact .busError hs (ht.trans hm) hp
  | recovered hs hm => exact .recovered hs (ht.trans hm)
  | shutdown hs hm hq => exact .shutdown hs (ht.trans hm) hq

/-- The words in `inbox` have no part in the table. -/
theorem DsMove.of_setInbox {s t : State} {ws : List Word} (h : DsMove (s.setInbox ws) t) : DsMove s t := by
  cases h with
  | stay h => exact .stay h
  | initialized hs ht => exact .initialized hs ht
  | busError hs ht hp => exact .busError hs ht hp
  | recovered hs ht => exact .recovered hs ht
  | shutdown hs ht hq => exact .shutdown hs ht hq

/-- "on success moves to ActiveOperation; on failure remains" (R151, R157). -/
theorem enterActiveOn_ds (p : Progress) (s : State) :
    (enterActiveOn p s).ds = .activeOperation ∨ (enterActiveOn p s).ds = s.ds := by
  cases p
  · exact .inl rfl
  · exact .inr rfl
  · exact .inr rfl

theorem DsMove.enterActive {s t : State} (p : Progress) (hs : s.ds = .init ∨ s.ds = .errorHandling)
    (hst : t.ds = s.ds) : DsMove s (enterActiveOn p t) := by
  rcases enterActiveOn_ds p t with hmoved | hstayed
  · exact hs.elim (.initialized · hmoved) (.recovered · hmoved)
  · exact .stay (hstayed.trans hst)

/-- Within an ActiveOperation cycle nothing before the bus-error hook's verdict moves DS, and only `BusOffFlag` has one. -/
theorem DsMove.cycleActive {s u : State} {d : State × Status} {e : State × Bool} (hds : s.ds = .activeOperation)
    (hd : drainTransmit s = .next d) (hu : fillBurst s.cfg.rxBurst d.1 = .next u)
    (he : Machine.busError u = .next e) : DsMove s (if e.2 then e.1.setDs .errorHandling else e.1) := by
  have hsu := preserved_cfg_ds.trans (preserved_cfg_ds.drain hd) (preserved_cfg_ds.fillBurst (fun _ _ h => h.1) hu)
  have hse := preserved_cfg_ds.trans hsu (preserved_cfg_ds.busError he)
  cases hb : e.2 with
  | false => exact .stay hse.2
  | true =>
    rcases busError_eq_next.1 he with ⟨-, rfl⟩ | ⟨hp, -⟩
    · cases hb
    · exact .busError hds rfl (by rw [← hsu.1, hp])

theorem TickWork.dsMove {s t : State} (h : TickWork s t) : DsMove s t := by
  cases h with
  | shutdown hq hds ht => subst ht; exact .shutdown hds rfl hq
  | init hds p hp ht => subst ht; exact .enterActive p.2 (.inl hds) (preserved_cfg_ds.initDriver hp).2
  | active hds d u e hd hu he ht => subst ht; exact .cycleActive hds hd hu he
  | recover hds p hp ht => subst ht; exact .enterActive p.2 (.inr hds) (preserved_cfg_ds.initHardware hp).2
  | idle hds ht => subst ht; exact .stay rfl

theorem exec_tick_dsMove {s t : State} (h : exec .tick s = .next t) : DsMove s t := by
  obtain ⟨-, u, hu, rfl⟩ := tickWork_of_exec h
  exact hu.dsMove.congr (finishTick_ds u)

/-- A request that DRV takes up again moves DS only as the Init or ErrorHandling cycle of a TICK. -/
theorem resumeRequest_ds {c : DrvCall} {s t : State} (h : resumeRequest c s = .next t) :
    t.ds = s.ds ∨ (c = .tick ∧ (s.ds = .init ∨ s.ds = .errorHandling) ∧ t.ds = .activeOperation) := by
  unfold resumeRequest at h
  split at h
  case h_1 m r fd =>
    obtain ⟨p, hp, h⟩ := andThen_eq_next.1 h
    cases h
    exact .inl (preserved_cfg_ds.trans (preserved_cfg_ds.resumeHardware hp)
      (preserved_cfg_ds.answerProgress (.hwinit m r fd) p.2 p.1)).2
  case h_2 =>
    obtain ⟨p, hp, h⟩ := andThen_eq_next.1 h
    obtain ⟨d, hd, h⟩ := andThen_eq_next.1 h
    cases h
    exact .inl (preserved_cfg_ds.trans (preserved_cfg_ds.trans (preserved_cfg_ds.resumeHardware hp)
      (preserved_cfg_ds.afterHardware hd)) (preserved_cfg_ds.answerProgress .drvinit d.2 d.1)).2
  case h_3 =>
    split at h
    case h_1 hds =>
      obtain ⟨p, hp, h⟩ := andThen_eq_next.1 h
      obtain ⟨d, hd, h⟩ := andThen_eq_next.1 h
      cases h
      have hsd := (preserved_cfg_ds.trans (preserved_cfg_ds.resumeHardware hp) (preserved_cfg_ds.afterHardware hd)).2
      rw [finishTick_ds, ← hsd]
      exact (enterActiveOn_ds d.2 d.1).symm.imp_right fun hmoved => ⟨rfl, .inl (hsd.trans hds), hmoved⟩
    case h_2 hds =>
      obtain ⟨p, hp, h⟩ := andThen_eq_next.1 h
      cases h
      have hsp := (preserved_cfg_ds.resumeHardware hp).2
      rw [finishTick_ds, ← hsp]
      exact (enterActiveOn_ds p.2 p.1).symm.imp_right fun hmoved => ⟨rfl, .inr (hsp.trans hds), hmoved⟩
    case h_3 => cases h; exact .inl rfl
    case h_4 => cases h; exact .inl rfl

/-- DRV going on with the request `c` moves DS only where `c` is a TICK that called HWINIT. -/
theorem goOn_dsMove {c : DrvCall} {s t : State} (h : goOn c s = .next t) : DsMove s t ∧ (t.ds ≠ s.ds → c = .tick) := by
  obtain ⟨u, hu, h⟩ := goOn_eq_next.1 h
  have hsu := (preserved_cfg_ds.boundary hu).2
  rcases h with ⟨-, h⟩ | ⟨-, rfl⟩
  · rcases resumeRequest_ds h with hstayed | ⟨hc, hds, hmoved⟩
    · exact ⟨.stay (hstayed.trans hsu), fun hne => absurd (hstayed.trans hsu) hne⟩
    · rw [hsu] at hds
      exact ⟨hds.elim (.initialized · hmoved) (.recovered · hmoved), fun _ => hc⟩
  · exact ⟨.stay hsu, fun hne => absurd hsu hne⟩

/-- Every step moves DS along the table, and only where it serves a TICK or takes one up again. -/
theorem step_dsMove {s t : State} (h : step s = .next t) :
    DsMove s t ∧ (t.ds ≠ s.ds →
      (∃ rest, decode s.inbox = .ok .tick rest) ∨ (s.ctl.clkStable = true ∧ s.drvWait = some .tick)) := by
  rcases step_eq_next.1 h with ⟨c, hc, hd, h⟩ | ⟨-, ⟨-, rfl⟩ | ⟨i, rest, hi, -, h⟩⟩
  · obtain ⟨hmove, htick⟩ := goOn_dsMove h
    exact ⟨hmove, fun hne => .inr ⟨hc, htick hne ▸ hd⟩⟩
  · exact ⟨.stay rfl, fun hne => absurd rfl hne⟩
  · by_cases htick : i = .tick
    · subst htick
      exact ⟨(exec_tick_dsMove h).of_setInbox, fun _ => .inl ⟨rest, hi⟩⟩
    · have hds : t.ds = s.ds := (preserved_cfg_ds.exec_other (fun _ _ hst => hst.1) htick h).2
      exact ⟨.stay hds, fun hne => absurd hds hne⟩

/-- Settles O48: a move of DS is a line of the table. -/
theorem driverStateFollowsTheTable : Obligations.DriverStateFollowsTheTable := by
  intro s t hst hne
  obtain ⟨hmove, hserved⟩ := step_dsMove hst
  refine ⟨?_, hserved hne⟩
  cases hmove with
  | stay h => exact absurd h hne
  | initialized hs ht => exact .inl ⟨hs, ht⟩
  | busError hs ht hp => exact .inr (.inl ⟨hs, ht, hp⟩)
  | recovered hs ht => exact .inr (.inr (.inl ⟨hs, ht⟩))
  | shutdown hs ht hq => exact .inr (.inr (.inr ⟨hs, ht, hq⟩))

end Sys2Proof.Machine
end

section
/-! PROOF of O47 (42_state_machine.md R161; log 9). What R161 says of the controller is about registers that only HWINIT, SETBAUD,
CFGFLT and DEINIT write. All else that a TICK does, and every step of another agent, keeps them (`Steady`); of HWINIT it is
enough to know how it ended (`InitOutcome`). -/

namespace Sys2Proof.Machine

/-! What keeps the registers of R161. -/

/-- CONFIG, DS, the request DRV is inside and the registers that R161 speaks of are as before. -/
structure Steady (s t : State) : Prop where
  cfg : t.cfg = s.cfg
  ds : t.ds = s.ds
  drvWait : t.drvWait = s.drvWait
  ctl : t.ctl = { s.ctl with
    modSel := t.ctl.modSel, clkStable := t.ctl.clkStable, ifl := t.ctl.ifl, rxip := t.ctl.rxip, txmb := t.ctl.txmb
    txReq := t.ctl.txReq, hwrx := t.ctl.hwrx, bo := t.ctl.bo, tec := t.ctl.tec, recCnt := t.ctl.recCnt }

theorem Steady.refl (s : State) : Steady s s := ⟨rfl, rfl, rfl, rfl⟩

theorem Steady.trans {s t u : State} (h : Steady s t) (h' : Steady t u) : Steady s u :=
  ⟨h'.cfg.trans h.cfg, h'.ds.trans h.ds, h'.drvWait.trans h.drvWait, by rw [h'.ctl, h.ctl]⟩

theorem OtherSteps.steady {s t : State} (h : OtherSteps s t) : Steady s t :=
  ⟨h.cfg, h.ds, h.drvWait, by rw [h.ctl]⟩

theorem boundary_steady {k : Boundary} {s t : State} (h : boundary k s = .next t) : Steady s t :=
  (boundary_otherSteps h).steady

theorem Steady.operating {s t : State} (h : Steady s t) (hs : s.Operating) : t.Operating := by
  unfold State.Operating
  rw [h.ctl, h.cfg]
  exact hs

theorem Steady.quiet {s t : State} (h : Steady s t) (hs : s.Quiet) : t.Quiet := by
  unfold State.Quiet
  rw [h.ctl]
  exact hs

theorem Steady.lifecycle {s t : State} (h : Steady s t) (hs : s.Lifecycle) : t.Lifecycle := by
  obtain ⟨hactive, hshut, hwait⟩ := hs
  refine ⟨fun hds => h.operating (hactive (h.ds ▸ hds)), fun hds => h.quiet (hshut (h.ds ▸ hds)), ?_⟩
  rw [h.drvWait, h.cfg, h.ds]
  exact hwait

theorem drainTransmit_steady {s : State} {r : State × Status} (h : drainTransmit s = .next r) : Steady s r.1 := by
  rcases drainTransmit_eq_next.1 h with ⟨-, rfl⟩ | ⟨-, -, -, rfl⟩ | ⟨-, -, -, rfl⟩ <;> exact ⟨rfl, rfl, rfl, rfl⟩

theorem fillReceive_steady {s : State} {r : State × Status} (h : fillReceive s = .next r) : Steady s r.1 := by
  rcases fillReceive_eq_next.1 h with ⟨-, rfl⟩ | ⟨-, u, hu, hr⟩
  · exact .refl s
  · have hsu : Steady s u := Steady.trans (t := s.setRxip false) ⟨rfl, rfl, rfl, rfl⟩ (boundary_steady hu)
    rcases hr with ⟨-, rfl⟩ | ⟨g, rest, -, -, rfl⟩
    · exact hsu.trans ⟨rfl, rfl, rfl, rfl⟩
    · exact hsu.trans ⟨rfl, rfl, rfl, rfl⟩

theorem fillBurst_steady {n : Nat} {s t : State} (h : fillBurst n s = .next t) : Steady s t := by
  induction n generalizing s with
  | zero => cases h; exact .refl _
  | succ m ih =>
    obtain ⟨u, hu, h⟩ := andThen_eq_next.1 h
    obtain ⟨r, hr, h⟩ := andThen_eq_next.1 h
    have hsr := (boundary_steady hu).trans (fillReceive_steady hr)
    split at h
    · exact hsr.trans (ih h)
    · cases h; exact hsr

theorem busError_steady {s : State} {e : State × Bool} (h : busError s = .next e) : Steady s e.1 := by
  rcases busError_eq_next.1 h with ⟨-, rfl⟩ | ⟨-, u, hu, rfl⟩
  · exact .refl s
  · exact (boundary_steady hu).trans ⟨rfl, rfl, rfl, rfl⟩

/-! How HWINIT with the configured arguments ends, whatever other agents do inside it. -/

/-- HWINIT, from a state in which DRV is inside nothing, has succeeded with the controller operating, or has failed, or DRV is
stuck inside it. -/
structure InitOutcome (s : State) (p : State × Progress) : Prop where
  cfg : p.1.cfg = s.cfg
  ds : p.1.ds = s.ds
  operating : p.2 = .succeeded → p.1.Operating
  drvWait : p.2 ≠ .waiting → p.1.drvWait = none
  stuck : p.2 = .waiting → p.1.drvWait ≠ none

theorem InitOutcome.before {s t : State} {p : State × Progress} (h : Steady s t) (h' : InitOutcome t p) :
    InitOutcome s p :=
  { h' with cfg := h'.cfg.trans h.cfg, ds := h'.ds.trans h.ds }

theorem InitOutcome.after {s t : State} {p : State × Progress} (h : InitOutcome s p) (h' : Steady p.1 t) :
    InitOutcome s (t, p.2) where
  cfg := h'.cfg.trans h.cfg
  ds := h'.ds.trans h.ds
  operating hq := h'.operating (h.operating hq)
  drvWait hq := h'.drvWait.trans (h.drvWait hq)
  stuck hq := h'.drvWait ▸ h.stuck hq

theorem finishInit_outcome {m : Byte} {s : State} {p : State × Progress} (hd : s.drvWait = none)
    (h : finishInit m s.cfg.cfgRate false s = .next p) : InitOutcome s p := by
  cases hv : timingOf s.cfg s.cfg.cfgRate with
  | some v =>
    rw [finishInit_of_supported hv] at h
    cases h
    exact ⟨rfl, rfl, fun _ => ⟨rfl, rfl, List.take_left' (filterRegs_length s.cfg), rfl, hv, rfl⟩, fun _ => hd, nofun⟩
  | none =>
    rw [finishInit_of_unsupported hv] at h
    cases h
    exact ⟨rfl, rfl, nofun, fun _ => hd, nofun⟩

theorem afterClock_outcome {m rate : Byte} {w p : State × Progress} (hd : w.1.drvWait = none)
    (hrate : w.1.cfg.cfgRate = rate) (h : afterClock m rate false w = .next p) : InitOutcome w.1 p := by
  unfold afterClock at h
  split at h
  · obtain ⟨u, hu, h⟩ := andThen_eq_next.1 h
    have hsu := boundary_steady hu
    subst hrate
    rw [← hsu.cfg] at h
    exact (finishInit_outcome (hsu.drvWait.trans hd) h).before hsu
  · cases h; exact ⟨rfl, rfl, nofun, fun _ => hd, nofun⟩
  · cases h; exact ⟨rfl, rfl, nofun, fun hq => absurd rfl hq, fun _ => nofun⟩

theorem initHardware_outcome {s : State} {p : State × Progress} (hd : s.drvWait = none)
    (h : initHardware s.cfg.cfgModule s.cfg.cfgRate s.cfg.cfgFd s = .next p) :
    s.cfg.cfgFd = false ∧ InitOutcome s p := by
  obtain ⟨hfd, -, w, hw, h⟩ := initHardware_eq_next.1 h
  have hsw : Steady s w.1 :=
    Steady.trans (t := s.setModSel s.cfg.cfgModule) ⟨rfl, rfl, rfl, rfl⟩ (clockWait_otherSteps hw).steady
  rw [hfd] at h
  exact ⟨hfd, (afterClock_outcome (hsw.drvWait.trans hd) (by rw [hsw.cfg]) h).before hsw⟩

theorem resumeHardware_outcome {s : State} {p : State × Progress} (hfd : s.cfg.cfgFd = false)
    (h : resumeHardware s.cfg.cfgModule s.cfg.cfgRate s.cfg.cfgFd s = .next p) : InitOutcome s p := by
  rw [hfd] at h
  have hend := afterClock_outcome (w := (s.setDrvWait none, .succeeded)) rfl rfl h
  exact { hend with }

theorem afterHardware_outcome {s : State} {r p : State × Progress} (hr : InitOutcome s r)
    (h : afterHardware r = .next p) : InitOutcome s p := by
  rcases afterHardware_eq_next.1 h with ⟨-, rfl⟩ | ⟨-, u, hu, rfl⟩
  · exact hr
  · exact hr.after ((boundary_steady hu).trans ⟨rfl, rfl, rfl, rfl⟩)

theorem initDriver_outcome {s : State} {p : State × Progress} (hd : s.drvWait = none) (h : initDriver s = .next p) :
    s.cfg.cfgFd = false ∧ InitOutcome s p := by
  obtain ⟨r, hr, h⟩ := andThen_eq_next.1 h
  exact (initHardware_outcome hd hr).imp_right (afterHardware_outcome · h)

/-! The invariant. -/

/-- Outside ActiveOperation and Shutdown R161 asks nothing of the controller. -/
theorem lifecycle_of_ds {s : State} (hds : s.ds = .init ∨ s.ds = .errorHandling)
    (hwait : s.drvWait = none ∨ (s.drvWait = some .tick ∧ s.cfg.cfgFd = false)) : s.Lifecycle := by
  refine ⟨fun h => ?_, fun h => ?_, hwait.imp_right fun ⟨htick, hfd⟩ => ⟨htick, hfd, hds⟩⟩
  · rw [h] at hds; simp at hds
  · rw [h] at hds; simp at hds

theorem lifecycle_of_active {s : State} (hds : s.ds = .activeOperation) (hop : s.Operating) (hd : s.drvWait = none) :
    s.Lifecycle :=
  ⟨fun _ => hop, fun h => (nomatch hds.symm.trans h), .inl hd⟩

/-- The end of a TICK with DRV inside nothing: an answer, which the invariant does not read. -/
theorem finishTick_lifecycle {s : State} (hd : s.drvWait = none) (h : s.Lifecycle) : (finishTick s).Lifecycle := by
  rw [finishTick_free hd]
  exact h

/-- A cycle that has called HWINIT enters ActiveOperation only with the controller operating. -/
theorem InitOutcome.lifecycle {s : State} {p : State × Progress} (h : InitOutcome s p) (hfd : s.cfg.cfgFd = false)
    (hds : s.ds = .init ∨ s.ds = .errorHandling) : (finishTick (enterActiveOn p.2 p.1)).Lifecycle := by
  obtain ⟨t, q⟩ := p
  have hdt : t.ds = .init ∨ t.ds = .errorHandling := by rw [h.ds]; exact hds
  cases q with
  | succeeded =>
    have hd : t.drvWait = none := h.drvWait nofun
    exact finishTick_lifecycle hd (lifecycle_of_active rfl (h.operating rfl) hd)
  | failed =>
    have hd : t.drvWait = none := h.drvWait nofun
    exact finishTick_lifecycle hd (lifecycle_of_ds hdt (.inl hd))
  | waiting =>
    have hfdt : t.cfg.cfgFd = false := h.cfg ▸ hfd
    exact finishTick_stuck (h.stuck rfl) ▸ lifecycle_of_ds (s := t.setDrvWait (some .tick)) hdt (.inr ⟨rfl, hfdt⟩)

/-- The work of a TICK keeps the invariant: DEINIT before Shutdown, a HWINIT that succeeded before ActiveOperation, and in
ActiveOperation nothing that writes the registers. -/
theorem TickWork.lifecycle {s t : State} (h : TickWork s t) (hd : s.drvWait = none) (hs : s.Lifecycle) :
    (finishTick t).Lifecycle := by
  cases h with
  | shutdown hq hds ht =>
    subst ht
    exact finishTick_lifecycle hd ⟨nofun, fun _ => ⟨rfl, rfl⟩, .inl hd⟩
  | init hds p hp ht =>
    subst ht
    obtain ⟨hfd, hout⟩ := initDriver_outcome hd hp
    exact hout.lifecycle hfd (.inl hds)
  | active hds d u e hdr hu he ht =>
    subst ht
    have hse := ((drainTransmit_steady hdr).trans (fillBurst_steady hu)).trans (busError_steady he)
    have hde := hse.drvWait.trans hd
    split
    · exact finishTick_lifecycle hde (lifecycle_of_ds (.inr rfl) (.inl hde))
    · exact finishTick_lifecycle hde (hse.lifecycle hs)
  | recover hds p hp ht =>
    subst ht
    obtain ⟨hfd, hout⟩ := initHardware_outcome hd hp
    exact hout.lifecycle hfd (.inr hds)
  | idle hds ht =>
    subst ht
    exact finishTick_lifecycle hd hs

/-- A TICK that is taken up again ends as the HWINIT it is inside does. -/
theorem resumeTick_lifecycle {s t : State} (hfd : s.cfg.cfgFd = false) (hds : s.ds = .init ∨ s.ds = .errorHandling)
    (h : resumeRequest .tick s = .next t) : t.Lifecycle := by
  rcases hds with hds | hds
  · simp only [resumeRequest, hds] at h
    obtain ⟨r, hr, h⟩ := andThen_eq_next.1 h
    obtain ⟨p, hp, h⟩ := andThen_eq_next.1 h
    cases h
    exact (afterHardware_outcome (resumeHardware_outcome hfd hr) hp).lifecycle hfd (.inl hds)
  · simp only [resumeRequest, hds] at h
    obtain ⟨r, hr, h⟩ := andThen_eq_next.1 h
    cases h
    exact (resumeHardware_outcome hfd hr).lifecycle hfd (.inr hds)

/-- Under the invariant a DRV that goes on is inside a TICK. -/
theorem goOn_lifecycle {c : DrvCall} {s t : State} (hs : s.Lifecycle) (hd : s.drvWait = some c)
    (h : goOn c s = .next t) : t.Lifecycle := by
  obtain ⟨u, hu, h⟩ := goOn_eq_next.1 h
  have hsu := boundary_steady hu
  rcases h with ⟨-, h⟩ | ⟨-, rfl⟩
  · rcases hs with ⟨-, -, hnone | ⟨htick, hfd, hds⟩⟩
    · exact nomatch hd.symm.trans hnone
    · obtain rfl : c = .tick := Option.some.inj (hd.symm.trans htick)
      exact resumeTick_lifecycle (hsu.cfg ▸ hfd) (hsu.ds ▸ hds) h
  · exact hsu.lifecycle hs

/-- A request is the environment's, a task's, a TICK or one of DRV's own. -/
theorem isEnv_or_isTask_or_tick {i : Instr} (h : i.agent ≠ .drv) : isEnv i = true ∨ isTask i = true ∨ i = .tick := by
  cases i <;> simp [isEnv, isTask, Instr.agent] at h ⊢

theorem exec_lifecycle {i : Instr} {s t : State} (hi : i.agent ≠ .drv) (hs : s.Lifecycle) (h : exec i s = .next t) :
    t.Lifecycle := by
  rcases isEnv_or_isTask_or_tick hi with henv | htask | rfl
  · exact (exec_env henv h).otherSteps.steady.lifecycle hs
  · exact (exec_task htask h).otherSteps.steady.lifecycle hs
  · obtain ⟨hd, u, hu, rfl⟩ := tickWork_of_exec h
    exact hu.lifecycle hd hs

/-- Settles O47. -/
theorem everyStepKeepsTheLifecycle : Obligations.EveryStepKeepsTheLifecycle := by
  intro s t hs hagent hst
  rcases step_eq_next.1 hst with ⟨c, -, hd, h⟩ | ⟨-, ⟨-, rfl⟩ | ⟨i, rest, hi, -, h⟩⟩
  · exact goOn_lifecycle hs hd h
  · exact hs
  · exact exec_lifecycle (s := s.setInbox rest) (hagent i rest hi) hs h

end Sys2Proof.Machine
end

section
/-! PROOF of O39 (42_state_machine.md R162, 40_buffer_ops.md R104, R105). Which HRI calls each part of a TICK makes, and how many
at most; boundaries make none, because no other agent issues one. -/

namespace Sys2Proof.Machine

/-- From `s` to `t` at most `n` HRI calls were made, each of the kind `P`. -/
def Calls (P : HriCall → Prop) (n : Nat) (s t : State) : Prop :=
  ∃ l, t.hriLog = s.hriLog ++ l ∧ l.length ≤ n ∧ ∀ c ∈ l, P c

theorem Calls.none {P : HriCall → Prop} {n : Nat} {s t : State} (h : t.hriLog = s.hriLog) : Calls P n s t :=
  ⟨[], by rw [h, List.append_nil], Nat.zero_le n, nofun⟩

theorem Calls.one {P : HriCall → Prop} {s t : State} {c : HriCall} (h : t.hriLog = s.hriLog ++ [c]) (hc : P c) :
    Calls P 1 s t :=
  ⟨[c], h, Nat.le_refl 1, fun _ hd => List.mem_singleton.1 hd ▸ hc⟩

theorem Calls.trans {P : HriCall → Prop} {m n : Nat} {s t u : State} (h : Calls P m s t) (h' : Calls P n t u) :
    Calls P (m + n) s u := by
  obtain ⟨l, hl, hlen, hP⟩ := h
  obtain ⟨l', hl', hlen', hP'⟩ := h'
  refine ⟨l ++ l', by rw [hl', hl, List.append_assoc], by rw [List.length_append]; omega, fun c hc => ?_⟩
  exact (List.mem_append.1 hc).elim (hP c) (hP' c)

theorem Calls.weaken {P : HriCall → Prop} {m n : Nat} {s t : State} (h : Calls P m s t) (hmn : m ≤ n) : Calls P n s t := by
  obtain ⟨l, hl, hlen, hP⟩ := h
  exact ⟨l, hl, Nat.le_trans hlen hmn, hP⟩

/-- Calls seen from a state with the same log, to a state with the same log. -/
theorem Calls.congr {P : HriCall → Prop} {n : Nat} {s s' t t' : State} (h : Calls P n s t) (hs : s.hriLog = s'.hriLog)
    (ht : t'.hriLog = t.hriLog) : Calls P n s' t' := by
  unfold Calls
  rw [ht, ← hs]
  exact h

def HriCall.IsTx1 (c : HriCall) : Prop := ∃ f b, c = .tx1 f b

def HriCall.IsRx1 (c : HriCall) : Prop := ∃ o, c = .rx1 o

def HriCall.IsGeterr (c : HriCall) : Prop := ∃ e, c = .geterr e

/-- A HWINIT with the arguments that CONFIG gives (42_state_machine.md R152). -/
def HriCall.IsConfiguredInit (cfg : Config) (c : HriCall) : Prop :=
  ∃ b, c = .hwinit cfg.cfgModule cfg.cfgRate cfg.cfgFd b

/-! The calls of each part of a TICK. -/

theorem drainTransmit_calls {s : State} {r : State × Status} (h : drainTransmit s = .next r) :
    Calls HriCall.IsTx1 1 s r.1 := by
  rcases drainTransmit_eq_next.1 h with ⟨-, rfl⟩ | ⟨-, -, -, rfl⟩ | ⟨-, -, -, rfl⟩
  · exact .none rfl
  · exact .one rfl ⟨_, true, rfl⟩
  · exact .one rfl ⟨_, false, rfl⟩

theorem fillReceive_calls {s : State} {r : State × Status} (h : fillReceive s = .next r) :
    Calls HriCall.IsRx1 1 s r.1 := by
  rcases fillReceive_eq_next.1 h with ⟨-, rfl⟩ | ⟨-, u, hu, hr⟩
  · exact .none rfl
  · have hlog : u.hriLog = s.hriLog := (boundary_otherSteps hu).hriLog
    rcases hr with ⟨-, rfl⟩ | ⟨g, rest, -, -, rfl⟩
    · exact (Calls.one (s := u) rfl ⟨none, rfl⟩).congr hlog rfl
    · exact (Calls.one (s := u) rfl ⟨some _, rfl⟩).congr hlog rfl

theorem fillBurst_calls {n : Nat} {s t : State} (h : fillBurst n s = .next t) : Calls HriCall.IsRx1 n s t := by
  induction n generalizing s with
  | zero => cases h; exact .none rfl
  | succ m ih =>
    obtain ⟨u, hu, h⟩ := andThen_eq_next.1 h
    obtain ⟨r, hr, h⟩ := andThen_eq_next.1 h
    have hone := (fillReceive_calls hr).congr (boundary_otherSteps hu).hriLog rfl
    split at h
    · exact (hone.trans (ih h)).weaken (by omega)
    · cases h; exact hone.weaken (by omega)

theorem busError_calls {s : State} {e : State × Bool} (h : busError s = .next e) : Calls HriCall.IsGeterr 1 s e.1 := by
  rcases busError_eq_next.1 h with ⟨-, rfl⟩ | ⟨-, u, hu, rfl⟩
  · exact .none rfl
  · exact (Calls.one (s := u) rfl ⟨_, rfl⟩).congr (boundary_otherSteps hu).hriLog rfl

theorem afterClock_calls {m r : Byte} {fd : Bool} {w p : State × Progress} (h : afterClock m r fd w = .next p) :
    Calls (fun c => ∃ b, c = .hwinit m r fd b) 1 w.1 p.1 := by
  unfold afterClock at h
  split at h
  · obtain ⟨u, hu, h⟩ := andThen_eq_next.1 h
    have hlog := (boundary_otherSteps hu).hriLog
    rw [finishInit_eq] at h
    split at h <;> cases h <;> exact (Calls.one (s := u) rfl ⟨_, rfl⟩).congr hlog rfl
  · cases h; exact .one rfl ⟨false, rfl⟩
  · cases h; exact .none rfl

theorem initHardware_calls {m r : Byte} {fd : Bool} {s : State} {p : State × Progress}
    (h : initHardware m r fd s = .next p) : Calls (fun c => ∃ b, c = .hwinit m r fd b) 1 s p.1 := by
  obtain ⟨-, -, w, hw, h⟩ := initHardware_eq_next.1 h
  exact (afterClock_calls h).congr (clockWait_otherSteps hw).hriLog rfl

theorem afterHardware_hriLog {r p : State × Progress} (h : afterHardware r = .next p) : p.1.hriLog = r.1.hriLog := by
  rcases afterHardware_eq_next.1 h with ⟨-, rfl⟩ | ⟨-, u, hu, rfl⟩
  · rfl
  · exact (boundary_otherSteps hu).hriLog

theorem initDriver_calls {s : State} {p : State × Progress} (h : initDriver s = .next p) :
    Calls (HriCall.IsConfiguredInit s.cfg) 1 s p.1 := by
  obtain ⟨r, hr, h⟩ := andThen_eq_next.1 h
  exact (initHardware_calls hr).congr rfl (afterHardware_hriLog h)

/-- The calls of one TICK, in their order, as the statement lists them. -/
def TickCalls (cfg : Config) (l : List HriCall) : Prop :=
  l = [] ∨ l = [.deinit] ∨ (∃ b, l = [.hwinit cfg.cfgModule cfg.cfgRate cfg.cfgFd b]) ∨
    ∃ txs rxs errs, l = txs ++ rxs ++ errs ∧ txs.length ≤ 1 ∧ rxs.length ≤ cfg.rxBurst ∧ errs.length ≤ 1 ∧
      (∀ c ∈ txs, ∃ f b, c = .tx1 f b) ∧ (∀ c ∈ rxs, ∃ o, c = .rx1 o) ∧ (∀ c ∈ errs, ∃ e, c = .geterr e)

/-- At most one HWINIT is none or one. -/
theorem Calls.tickCalls_of_init {s t : State} (h : Calls (HriCall.IsConfiguredInit s.cfg) 1 s t) :
    ∃ l, t.hriLog = s.hriLog ++ l ∧ TickCalls s.cfg l := by
  obtain ⟨l, hl, hlen, hP⟩ := h
  refine ⟨l, hl, ?_⟩
  match l, hlen with
  | [], _ => exact .inl rfl
  | [c], _ =>
    obtain ⟨b, rfl⟩ := hP c (List.mem_singleton.2 rfl)
    exact .inr (.inr (.inl ⟨b, rfl⟩))

theorem TickWork.calls {s t : State} (h : TickWork s t) : ∃ l, t.hriLog = s.hriLog ++ l ∧ TickCalls s.cfg l := by
  cases h with
  | shutdown hq hds ht => subst ht; exact ⟨[.deinit], rfl, .inr (.inl rfl)⟩
  | init hds p hp ht => subst ht; exact ((initDriver_calls hp).congr rfl (enterActiveOn_hriLog p.2 p.1)).tickCalls_of_init
  | active hds d u e hd hu he ht =>
    obtain ⟨txs, htx, htxLen, htxKind⟩ := drainTransmit_calls hd
    obtain ⟨rxs, hrx, hrxLen, hrxKind⟩ := fillBurst_calls hu
    obtain ⟨errs, herr, herrLen, herrKind⟩ := busError_calls he
    have hlog : t.hriLog = e.1.hriLog := by rw [ht]; split <;> rfl
    refine ⟨txs ++ rxs ++ errs, ?_,
      .inr (.inr (.inr ⟨txs, rxs, errs, rfl, htxLen, hrxLen, herrLen, htxKind, hrxKind, herrKind⟩))⟩
    rw [hlog, herr, hrx, htx, List.append_assoc, List.append_assoc, List.append_assoc]
  | recover hds p hp ht =>
    subst ht
    exact ((initHardware_calls hp).congr rfl (enterActiveOn_hriLog p.2 p.1)).tickCalls_of_init
  | idle hds ht => subst ht; exact ⟨[], (List.append_nil _).symm, .inl rfl⟩

/-- Settles O39. -/
theorem tickWorkIsBounded : Obligations.TickWorkIsBounded := by
  intro s t h
  obtain ⟨-, u, hu, rfl⟩ := tickWork_of_exec h
  rw [finishTick_hriLog]
  exact hu.calls

end Sys2Proof.Machine
end

section
/-! PROOF of O42 (42_state_machine.md R159, R162; log 1, log 9). With the buffer indices in range and only environment steps
scheduled, every part of a TICK answers, and leaves a state of the same kind; that the state at the end is sound is O45's
closure argument. -/

namespace Sys2Proof.Machine

/-- The outcome is a next state, or a result with one, of which `Q` holds. -/
def Answers {α : Type} (Q : α → Prop) (x : Res α) : Prop := ∃ a, x = .next a ∧ Q a

theorem Answers.next {α : Type} {Q : α → Prop} {a : α} (h : Q a) : Answers Q (.next a) := ⟨a, rfl, h⟩

theorem Answers.of_eq {α : Type} {Q : α → Prop} {x : Res α} {a : α} (hx : x = .next a) (h : Q a) : Answers Q x :=
  ⟨a, hx, h⟩

theorem Answers.andThen {α β : Type} {Q : α → Prop} {P : β → Prop} {x : Res α} {f : α → Res β} (hx : Answers Q x)
    (hf : ∀ a, Q a → Answers P (f a)) : Answers P (Machine.andThen x f) := by
  obtain ⟨a, rfl, ha⟩ := hx
  exact hf a ha

/-- The buffer indices name slots, and what is scheduled at boundaries are steps of the environment (R71 (h)). -/
structure State.Ready (s : State) : Prop where
  indices : s.IndicesInRange
  env : ∀ steps ∈ s.sched, EnvOnly steps

theorem State.Ready.congr {s t : State} (h : s.Ready) (hcfg : t.cfg = s.cfg) (htx : t.txf = s.txf) (hrx : t.rxr = s.rxr)
    (hsched : t.sched = s.sched) : t.Ready := by
  refine ⟨?_, hsched ▸ h.env⟩
  unfold State.IndicesInRange
  rw [hcfg, htx, hrx]
  exact h.indices

theorem boundary_answers (k : Boundary) {s : State} (h : s.Ready) :
    Answers (fun t => t.Ready ∧ t.cfg = s.cfg) (boundary k s) := by
  have henv : EnvOnly (s.sched.headD []) := envOnly_headD_drop h.env 0
  obtain ⟨t, ht⟩ := boundary_env_next k s henv
  have hsteps := boundary_envSteps henv ht
  have hsched : ∀ steps ∈ t.sched, EnvOnly steps := fun x hx => h.env x (List.mem_of_mem_drop (boundary_sched ht ▸ hx))
  exact .of_eq ht ⟨⟨preserved_indicesInRange.boundary ht h.indices, hsched⟩, hsteps.cfg⟩

theorem drainTransmit_answers {s : State} (h : s.Ready) : Answers (fun r => r.1.Ready) (drainTransmit s) := by
  have hready {r : State × Status} (hr : drainTransmit s = .next r) : r.1.Ready :=
    ⟨drainTransmit_indicesInRange hr h.indices, (drainTransmit_drvMove hr).1.sched ▸ h.env⟩
  cases he : s.txf.isEmpty with
  | true =>
    have hr := drainTransmit_eq_next.2 (.inl ⟨he, rfl⟩)
    exact .of_eq hr (hready hr)
  | false =>
    cases hq : s.ctl.txReq with
    | false =>
      have hr := drainTransmit_eq_next.2 (.inr (.inl ⟨he, h.indices.1.2, hq, rfl⟩))
      exact .of_eq hr (hready hr)
    | true =>
      have hr := drainTransmit_eq_next.2 (.inr (.inr ⟨he, h.indices.1.2, hq, rfl⟩))
      exact .of_eq hr (hready hr)

theorem fillReceive_answers {s : State} (h : s.Ready) : Answers (fun r => r.1.Ready) (fillReceive s) := by
  cases hf : s.rxr.isFull s.cfg.cRx with
  | true => exact .of_eq (fillReceive_eq_next.2 (.inl ⟨hf, rfl⟩)) h
  | false =>
    obtain ⟨u, hu, hready, hcfg⟩ := boundary_answers .insideOperation (s := s.setRxip false) (h.congr rfl rfl rfl rfl)
    cases hq : u.ctl.hwrx with
    | nil =>
      have hr := fillReceive_eq_next.2 (.inr ⟨hf, u, hu, .inl ⟨hq, rfl⟩⟩)
      exact .of_eq hr ⟨fillReceive_indicesInRange hr h.indices, hready.env⟩
    | cons g rest =>
      have hlt : s.rxr.wr < u.cfg.cRx := hcfg ▸ h.indices.2.1
      have hr := fillReceive_eq_next.2 (.inr ⟨hf, u, hu, .inr ⟨g, rest, hq, hlt, rfl⟩⟩)
      exact .of_eq hr ⟨fillReceive_indicesInRange hr h.indices, hready.env⟩

theorem fillBurst_answers (n : Nat) {s : State} (h : s.Ready) : Answers State.Ready (fillBurst n s) := by
  induction n generalizing s with
  | zero => exact .next h
  | succ m ih =>
    refine (boundary_answers .betweenCalls h).andThen fun u hu => ?_
    refine (fillReceive_answers hu.1).andThen fun r hr => ?_
    split
    · exact ih hr
    · exact .next hr

theorem busError_answers {s : State} (h : s.Ready) : Answers (fun e => e.1.Ready) (busError s) := by
  unfold busError
  split
  · exact .next h
  · exact (boundary_answers .betweenCalls h).andThen fun u hu => .next (hu.1.congr rfl rfl rfl rfl)

/-- A bounded wait makes its reads, an unbounded one answers at once: the flag is set, or DRV is stuck (R122). -/
theorem clockWait_answers {s : State} (h : s.Ready) : Answers (fun w => w.1.Ready) (clockWait s) := by
  cases hn : s.cfg.clkWaitMax with
  | some n =>
    obtain ⟨u, seen, k, hw, hsteps, hsched, -, -⟩ := clockWait_bounded hn h.env
    have henv : ∀ steps ∈ u.sched, EnvOnly steps := fun x hx => h.env x (List.mem_of_mem_drop (hsched ▸ hx))
    exact .of_eq hw ⟨preserved_indicesInRange.clockWait hw h.indices, henv⟩
  | none =>
    unfold clockWait
    rw [hn]
    exact .next h

theorem finishInit_answers (m r : Byte) (fd : Bool) {s : State} (h : s.Ready) :
    Answers (fun p => p.1.Ready) (finishInit m r fd s) := by
  rw [finishInit_eq]
  split <;> exact .next (h.congr rfl rfl rfl rfl)

theorem afterClock_answers (m r : Byte) (fd : Bool) {w : State × Progress} (h : w.1.Ready) :
    Answers (fun p => p.1.Ready) (afterClock m r fd w) := by
  unfold afterClock
  split
  · exact (boundary_answers .insideOperation h).andThen fun u hu => finishInit_answers m r fd hu.1
  · exact .next (h.congr rfl rfl rfl rfl)
  · exact .next (h.congr rfl rfl rfl rfl)

theorem initHardware_answers {s : State} (ha : InitAccepted s.cfg) (h : s.Ready) :
    Answers (fun p => p.1.Ready) (initHardware s.cfg.cfgModule s.cfg.cfgRate s.cfg.cfgFd s) := by
  obtain ⟨hm, hfd⟩ := ha
  obtain ⟨w, hw, hready⟩ := clockWait_answers (s := s.setModSel s.cfg.cfgModule) (h.congr rfl rfl rfl rfl)
  rw [hfd, initHardware_of_clockWait hm hw]
  exact afterClock_answers _ _ _ hready

theorem afterHardware_answers {r : State × Progress} (h : r.1.Ready) : Answers (fun p => p.1.Ready) (afterHardware r) := by
  have hempty {u : State} (hu : u.Ready) : (initBuffers u).Ready :=
    ⟨preserved_indicesInRange.initBuffers u hu.indices, hu.env⟩
  unfold afterHardware
  split
  · exact .next h
  · exact (boundary_answers .betweenCalls h).andThen fun u hu => .next (hempty hu.1)
  · exact (boundary_answers .betweenCalls h).andThen fun u hu => .next (hempty hu.1)

theorem cycleActive_answers {s : State} (h : s.Ready) : Answers (fun _ => True) (cycleActive s) := by
  refine (drainTransmit_answers h).andThen fun d hd => ?_
  refine (fillBurst_answers _ hd).andThen fun u hu => ?_
  exact (busError_answers hu).andThen fun _ _ => .next trivial

theorem periodicTask_answers {s : State} (ha : InitAccepted s.cfg) (h : s.Ready) :
    Answers (fun _ => True) (periodicTask s) := by
  unfold periodicTask
  split
  · exact .next trivial
  · unfold cycleWork
    split
    · exact ((initHardware_answers ha h).andThen fun _ => afterHardware_answers).andThen fun _ _ => .next trivial
    · exact cycleActive_answers h
    · rw [cycleErrorHandling_eq]
      exact (initHardware_answers ha h).andThen fun _ _ => .next trivial
    · exact .next trivial

/-- Settles O42. -/
theorem tickIsAcceptedInEveryState : Obligations.TickIsAcceptedInEveryState := by
  intro s hs hd ha henv
  obtain ⟨u, hu, -⟩ := periodicTask_answers ha ⟨hs.indicesInRange, henv⟩
  have htick := exec_tick_of_eq hd hu
  exact ⟨_, htick, preserved_sound.exec dsMoves_sound htick hs⟩

end Sys2Proof.Machine
end

section
/-! PROOF of O9, O35, O36, O37, O40 and O41 (42_state_machine.md R151 to R153, R157, R158, R160): TICK and DRVINIT with no other
agent stepping. HWINIT then has one equation per outcome (Laws/Init.lean), and so have DRVINIT and the cycles that call it. -/

namespace Sys2Proof.Machine

/-! The shutdown (R158, R160). -/

theorem exec_tick_of_shutdown {s : State} (hd : s.drvWait = none) (hq : s.shutReq = true) (hds : s.ds ≠ .shutdown) :
    exec .tick s = .next (answer .tick [voidCode] (shutDown s)) := by
  have hwork : periodicTask s = .next (shutDown s) := by simp [periodicTask, hq, hds]
  rw [exec_tick_of_eq hd hwork, finishTick_free (s := shutDown s) hd]

/-- "In state Shutdown a TICK does nothing" (R158): SHUTREQ or not, it only answers. -/
theorem exec_tick_of_idle {s : State} (hd : s.drvWait = none) (hds : s.ds = .shutdown) :
    exec .tick s = .next (answer .tick [voidCode] s) := by
  have hwork : periodicTask s = .next s := by simp [periodicTask, cycleWork, hds]
  rw [exec_tick_of_eq hd hwork, finishTick_free hd]

/-- Settles O35. -/
theorem tickShutsDown : Obligations.TickShutsDown := fun _ hd =>
  ⟨exec_tick_of_shutdown hd, exec_tick_of_idle hd⟩

/-- REQSHUT served a number of times sets SHUTREQ and answers each time. -/
theorem serve_reqshut (n : Nat) (is : List Instr) (s : State) :
    ∃ u, serve (List.replicate (n + 1) .reqshut ++ is) s = serve is u ∧
      u = { s with shutReq := true, respLog := u.respLog } := by
  induction n generalizing s with
  | zero => exact ⟨_, serve_cons rfl, rfl⟩
  | succ n ih =>
    obtain ⟨u, hu, hsame⟩ := ih (answer .reqshut [voidCode] (s.setShutReq true))
    exact ⟨u, (serve_cons rfl).trans hu, hsame⟩

/-- Settles O9. -/
theorem reqshutSetsTheLatch : Obligations.ReqshutSetsTheLatch := by
  refine ⟨by decide, rfl, fun _ => rfl, fun n s hd hds => ?_⟩
  obtain ⟨u, hu, hsame⟩ := serve_reqshut n [.tick] s
  have htick : exec .tick u = _ := exec_tick_of_shutdown (by rw [hsame]; exact hd) (by rw [hsame]) (by rw [hsame]; exact hds)
  refine ⟨_, hu.trans (serve_cons htick), rfl, rfl, ?_, ?_, ?_⟩ <;> rw [hsame] <;> rfl

/-! HWINIT with the configured arguments, one equation per outcome (R120, R124, R152). -/

section
variable {s : State} (ha : InitAccepted s.cfg)
include ha

theorem configuredInit_succeeds {v : Word} (hs : s.sched = []) (hc : s.ctl.clkStable = true)
    (h0 : s.cfg.clkWaitMax ≠ some 0) (hv : timingOf s.cfg s.cfg.cfgRate = some v) :
    initHardware s.cfg.cfgModule s.cfg.cfgRate s.cfg.cfgFd s =
      .next (((s.setModSel s.cfg.cfgModule).setCtl
        ((s.setModSel s.cfg.cfgModule).ctl.operating s.cfg v false)).pushHri
          (.hwinit s.cfg.cfgModule s.cfg.cfgRate false true), .succeeded) := by
  obtain ⟨hm, hfd⟩ := ha
  rw [hfd]
  exact initHardware_succeeds hm hc h0 hv hs

theorem configuredInit_failsClosed (hs : s.sched = []) (hc : s.ctl.clkStable = true)
    (h0 : s.cfg.clkWaitMax ≠ some 0) (hv : timingOf s.cfg s.cfg.cfgRate = none) :
    initHardware s.cfg.cfgModule s.cfg.cfgRate s.cfg.cfgFd s =
      .next ((s.setCtl (failedInit s.cfg s.cfg.cfgModule s.ctl)).pushHri
        (.hwinit s.cfg.cfgModule s.cfg.cfgRate false false), .failed) := by
  obtain ⟨hm, hfd⟩ := ha
  rw [hfd]
  exact initHardware_failsClosed hm hc h0 hv hs

theorem configuredInit_timesOut {n : Nat} (hs : s.sched = []) (hn : s.cfg.clkWaitMax = some n)
    (h : n = 0 ∨ s.ctl.clkStable = false) :
    initHardware s.cfg.cfgModule s.cfg.cfgRate s.cfg.cfgFd s =
      .next ((s.setModSel s.cfg.cfgModule).pushHri (.hwinit s.cfg.cfgModule s.cfg.cfgRate false false), .failed) := by
  obtain ⟨hm, hfd⟩ := ha
  rw [hfd]
  exact initHardware_timesOut hm hn (h.imp_right fun hc => ⟨hc, hs⟩)

end

/-- A TICK whose HWINIT has ended answers. -/
theorem finishTick_enterActiveOn (q : Progress) {t : State} (h : t.drvWait = none) :
    finishTick (enterActiveOn q t) = answer .tick [voidCode] (enterActiveOn q t) := by
  cases q <;> exact finishTick_free h

/-! The three requests that call it, from an end `(t, q)` of HWINIT on. -/

section
variable {s t : State} {q : Progress}
  (h : initHardware s.cfg.cfgModule s.cfg.cfgRate s.cfg.cfgFd s = .next (t, q)) (hq : q ≠ .waiting)
include h hq

theorem initDriver_of_initHardware (hs : s.sched = []) : initDriver s = .next (initBuffers t, q) := by
  have ht : t.sched = [] := (initHardware_sameRings hs h).sched.trans hs
  exact andThen_eq_next.2 ⟨_, h, afterHardware_eq_next.2 (.inr ⟨hq, t, boundary_nil ht, rfl⟩)⟩

/-- An Init cycle (R151): both buffers are emptied whatever HWINIT returned. -/
theorem exec_tick_of_init (hs : s.sched = []) (hd : s.drvWait = none) (hds : s.ds = .init) (hr : s.shutReq = false) :
    exec .tick s = .next (answer .tick [voidCode] (enterActiveOn q (initBuffers t))) := by
  have ht : (initBuffers t).drvWait = none := (initHardware_outcome hd h).2.drvWait hq
  rw [exec_tick_of_eq hd (periodicTask_of_init hds hr (initDriver_of_initHardware h hq hs)), finishTick_enterActiveOn q ht]

/-- An ErrorHandling cycle (R157). -/
theorem exec_tick_of_errorHandling (hd : s.drvWait = none) (hds : s.ds = .errorHandling) (hr : s.shutReq = false) :
    exec .tick s = .next (answer .tick [voidCode] (enterActiveOn q t)) := by
  have ht : t.drvWait = none := (initHardware_outcome hd h).2.drvWait hq
  have hwork : periodicTask s = .next (enterActiveOn q t) := by
    simp [periodicTask, hr, cycleWork, hds, cycleErrorHandling_eq, h]
  rw [exec_tick_of_eq hd hwork, finishTick_enterActiveOn q ht]

theorem exec_drvinit_of_init (hs : s.sched = []) (hd : s.drvWait = none) :
    exec .drvinit s = .next (answerProgress .drvinit q (initBuffers t)) :=
  drvRequest_eq_next.2 ⟨hd, andThen_eq_next.2 ⟨_, initDriver_of_initHardware h hq hs, rfl⟩⟩

end

/-! The statements. -/

/-- Settles O36. -/
theorem tickInitializesTheDriver : Obligations.TickInitializesTheDriver := by
  intro v s hd hds hr ha hc h0 hv hs
  have hinit := configuredInit_succeeds ha hs hc h0 hv
  exact ⟨_, exec_tick_of_init hinit nofun hs hd hds hr, (initHardware_outcome hd hinit).2.operating rfl, rfl⟩

/-- Settles O37. -/
theorem tickRetriesInit : Obligations.TickRetriesInit := fun _ hd hds hr ha hs =>
  ⟨fun _ hn hwait => exec_tick_of_init (configuredInit_timesOut ha hs hn hwait) nofun hs hd hds hr,
    fun hc h0 hv => exec_tick_of_init (configuredInit_failsClosed ha hs hc h0 hv) nofun hs hd hds hr⟩

/-- Settles O40. -/
theorem recoveryKeepsTheBuffers : Obligations.RecoveryKeepsTheBuffers := by
  intro s hd hds hr ha hs
  refine ⟨fun v hc h0 hv => ?_,
    fun _ hn hwait => exec_tick_of_errorHandling (configuredInit_timesOut ha hs hn hwait) nofun hd hds hr,
    fun hc h0 hv => exec_tick_of_errorHandling (configuredInit_failsClosed ha hs hc h0 hv) nofun hd hds hr⟩
  have hinit := configuredInit_succeeds ha hs hc h0 hv
  exact ⟨_, exec_tick_of_errorHandling hinit nofun hd hds hr, (initHardware_outcome hd hinit).2.operating rfl, rfl, rfl,
    rfl, rfl, rfl, rfl, rfl, rfl⟩

/-- Settles O41. -/
theorem drvinitInitializesBothHalves : Obligations.DrvinitInitializesBothHalves := by
  intro s hd ha hs
  refine ⟨fun v hc h0 hv => ?_,
    fun _ hn hwait => exec_drvinit_of_init (configuredInit_timesOut ha hs hn hwait) nofun hs hd,
    fun hc h0 hv => exec_drvinit_of_init (configuredInit_failsClosed ha hs hc h0 hv) nofun hs hd⟩
  have hinit := configuredInit_succeeds ha hs hc h0 hv
  exact ⟨_, exec_drvinit_of_init hinit nofun hs hd, (initHardware_outcome hd hinit).2.operating rfl, rfl, rfl, rfl, rfl,
    rfl⟩

end Sys2Proof.Machine
end

section
/-! PROOF of O38 (42_state_machine.md R154 to R156, 40_buffer_ops.md R105, R108): an ActiveOperation cycle with no other agent
stepping is one drain (`Drained`), the burst (`Filled`, by induction on the calls it may make) and the bus-error hook. -/

namespace Sys2Proof.Machine

/-! The drain (R103 to R105). -/

/-- DRAINTX has offered the oldest queued frame of `s`, if there is one, to the mailbox. -/
structure Drained (s t : State) : Prop where
  same : t = { s with
    txf := t.txf, ctl := { s.ctl with txmb := t.ctl.txmb, txReq := t.ctl.txReq }, hriLog := t.hriLog }
  queue : t.txQueue = if s.ctl.txReq = true then s.txQueue else s.txQueue.tail
  log : t.hriLog = s.hriLog ++ (s.txQueue.take 1).map fun f => .tx1 f (!s.ctl.txReq)
  pending : t.ctl.txReq = (s.ctl.txReq || !s.txQueue.isEmpty)
  kept : s.ctl.txReq = true ∨ s.txQueue = [] → t.ctl.txmb = s.ctl.txmb
  loaded : ∀ f rest, s.ctl.txReq = false → s.txQueue = f :: rest → t.ctl.txmb = Mailbox.ofFrame f

theorem drainTransmit_drained {s : State} (hs : s.IndicesInRange) :
    ∃ d r, drainTransmit s = .next (d, r) ∧ Drained s d := by
  cases he : s.txf.isEmpty with
  | true =>
    have hnil : s.txQueue = [] := Ring.queue_of_empty (Ring.isEmpty_iff.1 he)
    refine ⟨_, _, drainTransmit_eq_next.2 (.inl ⟨he, rfl⟩), rfl, ?_, ?_, ?_, fun _ => rfl, ?_⟩ <;> simp [hnil]
  | false =>
    have hcons : s.txQueue = s.cell .transmit s.txf.rd :: _ := Ring.queue_eq_cons hs.1 he
    cases hq : s.ctl.txReq with
    | false =>
      refine ⟨_, _, drainTransmit_eq_next.2 (.inr (.inl ⟨he, hs.1.2, hq, rfl⟩)), rfl, ?_, ?_, ?_, ?_, ?_⟩
      · rw [if_neg (by simp [hq]), hcons]; rfl
      · rw [hcons, hq]; rfl
      · rw [hcons, hq]; rfl
      · rw [hcons, hq]; simp
      · rw [hcons]; rintro f rest - hf; cases hf; rfl
    | true =>
      refine ⟨_, _, drainTransmit_eq_next.2 (.inr (.inr ⟨he, hs.1.2, hq, rfl⟩)), rfl, ?_, ?_, ?_, fun _ => rfl, ?_⟩
      · rw [if_pos hq]; rfl
      · rw [hcons, hq]; rfl
      · rw [hq]; exact hq
      · rw [hq]; nofun

/-! The burst (R106 to R108). -/

/-- FILLRX calls have moved `frames` from the head of the controller's FIFO into the ring, and then made the HRI calls `last`,
which moved none. -/
structure Filled (frames : List CanFrame) (last : List HriCall) (s t : State) : Prop where
  same : t = { s with
    rxr := t.rxr, ctl := { s.ctl with rxip := t.ctl.rxip, hwrx := s.ctl.hwrx.drop frames.length }
    hriLog := s.hriLog ++ frames.map (fun g => .rx1 (some (delivered g))) ++ last }
  queue : t.rxQueue = s.rxQueue ++ frames.map delivered

theorem Filled.nothing (s : State) : Filled [] [] s s := ⟨by simp, by simp⟩

theorem Filled.cons {g : CanFrame} {frames : List CanFrame} {last : List HriCall} {s t u : State} (h : Filled [g] [] s t)
    (h' : Filled frames last t u) : Filled (g :: frames) last s u := by
  refine ⟨?_, by rw [h'.queue, h.queue]; simp⟩
  rw [h'.same, h.same]
  simp

/-- The free slots of the receive ring, one slot staying empty (10_state.md R26). -/
def State.rxFree (s : State) : Nat := s.cfg.cRx - 1 - s.rxQueue.length

/-- The frames that a burst of at most `b` FILLRX calls moves. -/
def State.burst (b : Nat) (s : State) : Nat := min b (min s.ctl.hwrx.length s.rxFree)

theorem State.rxFree_eq_zero_iff {s : State} (hs : s.IndicesInRange) : s.rxFree = 0 ↔ s.rxr.isFull s.cfg.cRx = true := by
  have hle : s.rxQueue.length ≤ s.cfg.cRx - 1 := Ring.queue_length_le hs.2
  have hfull : s.rxr.isFull s.cfg.cRx = true ↔ s.rxQueue.length = s.cfg.cRx - 1 := Ring.isFull_iff_queue hs.2
  rw [hfull, State.rxFree]
  omega

section
variable {s : State} (hs : s.sched = [])
include hs

theorem fillReceive_of_noFrame (hf : s.rxr.isFull s.cfg.cRx = false) (hq : s.ctl.hwrx = []) :
    ∃ t, fillReceive s = .next (t, .empty) ∧ Filled [] [.rx1 none] s t := by
  refine ⟨_, fillReceive_eq_next.2 (.inr ⟨hf, _, boundary_nil (s := s.setRxip false) hs, .inl ⟨hq, rfl⟩⟩), ?_,
    (List.append_nil _).symm⟩
  simp
  rfl

/-- FILLRX with room for the frame at the head of the FIFO moves that frame. -/
theorem fillReceive_of_frame {g : CanFrame} {rest : List CanFrame} (hidx : s.IndicesInRange)
    (hf : s.rxr.isFull s.cfg.cRx = false) (hq : s.ctl.hwrx = g :: rest) :
    ∃ t, fillReceive s = .next (t, .success) ∧ Filled [g] [] s t := by
  refine ⟨_, fillReceive_eq_next.2 (.inr ⟨hf, _, boundary_nil (s := s.setRxip false) hs,
    .inr ⟨g, rest, hq, hidx.2.1, rfl⟩⟩), ?_, Ring.queue_store hidx.2 hf (delivered g)⟩
  rw [hq]
  simp [delivered_eq]
  rfl

end

/-- A burst of at most `b` calls moves as many frames as the burst, the FIFO and the free slots allow; a call of RX1 that finds
no frame ends it early, a full ring without a call. -/
theorem fillBurst_filled (b : Nat) {s : State} (hidx : s.IndicesInRange) (hs : s.sched = []) :
    ∃ t, fillBurst b s = .next t ∧ Filled (s.ctl.hwrx.take (s.burst b))
      (if s.burst b < b ∧ s.burst b < s.rxFree then [.rx1 none] else []) s t := by
  induction b generalizing s with
  | zero => exact ⟨s, rfl, by simpa [State.burst] using Filled.nothing s⟩
  | succ m ih =>
    rw [fillBurst, boundary_nil hs, andThen_next]
    cases hf : s.rxr.isFull s.cfg.cRx with
    | true =>
      have hfree := (State.rxFree_eq_zero_iff hidx).2 hf
      have hnone : s.burst (m + 1) = 0 := by simp [State.burst, hfree]
      rw [fillReceive_eq_next.2 (.inl ⟨hf, rfl⟩), hnone, hfree]
      exact ⟨s, rfl, by simpa using Filled.nothing s⟩
    | false =>
      have hfree : 0 < s.rxFree := Nat.pos_of_ne_zero (by simp [State.rxFree_eq_zero_iff hidx, hf])
      cases hq : s.ctl.hwrx with
      | nil =>
        have hnone : s.burst (m + 1) = 0 := by simp [State.burst, hq]
        obtain ⟨t, ht, hfilled⟩ := fillReceive_of_noFrame hs hf hq
        rw [ht, hnone, if_pos ⟨Nat.succ_pos m, hfree⟩]
        exact ⟨t, rfl, hfilled⟩
      | cons g rest =>
        obtain ⟨t, ht, hfilled⟩ := fillReceive_of_frame hs hidx hf hq
        have hcfg : t.cfg = s.cfg := by rw [hfilled.same]
        have hfifo : t.ctl.hwrx = rest := by rw [hfilled.same, hq]; rfl
        have hlen : t.rxQueue.length = s.rxQueue.length + 1 := by rw [hfilled.queue]; simp
        have hroom : s.rxFree = t.rxFree + 1 := by
          unfold State.rxFree at hfree ⊢
          rw [hcfg, hlen]
          omega
        have hburst : s.burst (m + 1) = t.burst m + 1 := by
          simp only [State.burst, hq, hfifo, hroom, List.length_cons]
          omega
        obtain ⟨u, hu, hrest⟩ := ih (fillReceive_indicesInRange ht hidx) (by rw [hfilled.same]; exact hs)
        refine ⟨u, by rw [ht]; exact hu, ?_⟩
        rw [hfifo] at hrest
        simpa only [hburst, hroom, List.take_succ_cons, Nat.add_lt_add_iff_right] using hfilled.cons hrest

/-! The bus-error hook (R156), and the cycle. -/

/-- The state behind the hook: GETERR is called under BusOffFlag alone, and CTL.BO then decides. -/
def State.hooked (s : State) : State :=
  { s with
    ds := if s.cfg.busErrPolicy = .busOffFlag ∧ s.ctl.bo = true then .errorHandling else s.ds
    hriLog := s.hriLog ++ if s.cfg.busErrPolicy = .busOffFlag then [.geterr s.ctl.errRecord] else [] }

theorem busError_hooked {s : State} (hs : s.sched = []) :
    ∃ e, busError s = .next e ∧ (if e.2 then e.1.setDs .errorHandling else e.1) = s.hooked := by
  cases hp : s.cfg.busErrPolicy with
  | never => exact ⟨_, busError_eq_next.2 (.inl ⟨hp, rfl⟩), by simp [State.hooked, hp]⟩
  | busOffFlag =>
    refine ⟨_, busError_eq_next.2 (.inr ⟨hp, s, boundary_nil hs, rfl⟩), ?_⟩
    cases hb : s.ctl.bo <;> simp [State.hooked, hp, hb] <;> rfl

/-- An ActiveOperation cycle with no other agent stepping: the drain to `d`, the burst to `u`, the hook and the answer. -/
theorem exec_tick_of_active {s : State} (hidx : s.IndicesInRange) (hd : s.drvWait = none) (hds : s.ds = .activeOperation)
    (hr : s.shutReq = false) (hs : s.sched = []) :
    ∃ d u, Drained s d ∧
      Filled (d.ctl.hwrx.take (d.burst s.cfg.rxBurst))
        (if d.burst s.cfg.rxBurst < s.cfg.rxBurst ∧ d.burst s.cfg.rxBurst < d.rxFree then [.rx1 none] else []) d u ∧
      exec .tick s = .next (answer .tick [voidCode] u.hooked) := by
  obtain ⟨d, r, hdrain, hdrained⟩ := drainTransmit_drained hidx
  have hdsched : d.sched = [] := by rw [hdrained.same]; exact hs
  obtain ⟨u, hburst, hfilled⟩ := fillBurst_filled s.cfg.rxBurst (drainTransmit_indicesInRange hdrain hidx) hdsched
  have husched : u.sched = [] := by rw [hfilled.same]; exact hdsched
  obtain ⟨e, he, hhook⟩ := busError_hooked husched
  have hwait : u.hooked.drvWait = none := by
    show u.drvWait = none
    rw [hfilled.same, hdrained.same]
    exact hd
  have hwork : periodicTask s = .next u.hooked := by
    simp [periodicTask, hr, cycleWork, hds, cycleActive, hdrain, hburst, he, ← hhook]
  exact ⟨d, u, hdrained, hfilled, by rw [exec_tick_of_eq hd hwork, finishTick_free hwait]⟩

/-- Settles O38: the fields of the end state are read off the drain, the burst and the hook. -/
theorem activeCycleDrainsAndFills : Obligations.ActiveCycleDrainsAndFills := by
  intro n free s hsound hd hds hr hs hfree hn
  obtain ⟨d, u, hdrained, hfilled, htick⟩ := exec_tick_of_active hsound.indicesInRange hd hds hr hs
  have hfifo : d.ctl.hwrx = s.ctl.hwrx := by rw [hdrained.same]
  have hqueue : d.rxQueue = s.rxQueue := by rw [hdrained.same]; rfl
  have hroom : d.rxFree = free := by
    rw [hfree, State.rxFree, hqueue, State.rxQueue, Ring.queue_length, hdrained.same]
  have hburst : d.burst s.cfg.rxBurst = n := by rw [State.burst, hfifo, hroom, hn]
  have hlen : (s.ctl.hwrx.take n).length = n := by rw [List.length_take]; omega
  rw [hburst, hfifo, hroom] at hfilled
  have hsame := hfilled.same
  rw [hlen, hdrained.log, hfifo] at hsame
  have hctl : u.ctl = { s.ctl with
      txmb := d.ctl.txmb, txReq := d.ctl.txReq, rxip := u.ctl.rxip, hwrx := s.ctl.hwrx.drop n } := by
    rw [hsame, hdrained.same]
  have hcfg : u.cfg = s.cfg := by rw [hsame, hdrained.same]
  have hsent : u.txQueue = d.txQueue := by rw [hsame]; rfl
  refine ⟨_, htick, hsent.trans hdrained.queue, ?_, fun hidle => ?_, fun f rest hq hf => ?_,
    hfilled.queue.trans (by rw [hqueue]), ?_, ?_, ?_, ?_, ?_, ?_, ?_, ?_⟩
  · show u.ctl.txReq = _
    rw [hctl]; exact hdrained.pending
  · show u.ctl.txmb = _
    rw [hctl]; exact hdrained.kept hidle
  · show u.ctl.txmb = _
    rw [hctl]; exact hdrained.loaded f rest hq hf
  · show u.ctl.hwrx = _
    rw [hctl]
  · show u.hooked.ds = _
    rw [State.hooked, hcfg, hctl, hsame, hdrained.same, hds]
  · show u.hooked.hriLog = _
    rw [State.hooked, hcfg, hctl, hsame]; rfl
  · show u.respLog ++ _ = _
    rw [hsame, hdrained.same]; rfl
  · show u.ctl.mode = _
    rw [hctl]
  · show u.ctl.bo = _
    rw [hctl]
  · show u.busOut = _
    rw [hsame, hdrained.same]
  · show u.appOut = _
    rw [hsame, hdrained.same]

end Sys2Proof.Machine
end

section
/-! PROOF of O52 (43_controller_events.md R179, 10_state.md R48; log 8). One relation says that an update keeps bus-off or
has logged a call that enters Reset mode; the closure principle of Laws/Closure.lean carries it to every step. -/

namespace Sys2Proof.Machine

/-- The calls that enter Reset mode (R123, R144). -/
def HriCall.EntersReset (c : HriCall) : Prop := c = .deinit ∨ c.IsHwinit

/-- HRI_LOG only grows from `s` to `t`, and bus-off ends only by a call logged there. -/
structure BusOffMove (s t : State) : Prop where
  log : s.hriLog <+: t.hriLog
  stays : s.ctl.bo = true → t.ctl.bo = true ∨ Logged HriCall.EntersReset s t

theorem BusOffMove.trans {s t u : State} (h : BusOffMove s t) (h' : BusOffMove t u) : BusOffMove s u where
  log := h.log.trans h'.log
  stays hs := Logged.or_trans h.log h'.log (h.stays hs) h'.stays fun _ hu => hu

/-- An update that logs no call and leaves bus-off alone. -/
theorem BusOffMove.quiet {s t : State} (hbo : t.ctl.bo = s.ctl.bo) (hlog : t.hriLog = s.hriLog) : BusOffMove s t :=
  ⟨hlog ▸ List.prefix_refl _, fun hs => .inl (hbo.trans hs)⟩

/-- A call that is logged and leaves bus-off alone. -/
theorem BusOffMove.call {s t : State} {c : HriCall} (hbo : t.ctl.bo = s.ctl.bo) (hlog : t.hriLog = s.hriLog ++ [c]) :
    BusOffMove s t :=
  ⟨hlog ▸ List.prefix_append _ _, fun hs => .inl (hbo.trans hs)⟩

/-- A logged call that enters Reset mode may end bus-off. -/
theorem BusOffMove.reset {s t : State} {c : HriCall} (hc : c.EntersReset) (hlog : t.hriLog = s.hriLog ++ [c]) :
    BusOffMove s t :=
  ⟨hlog ▸ List.prefix_append _ _, fun _ => .inr (.of_append hlog hc)⟩

theorem BusOffMove.hwinit {s t : State} {m r : Byte} {fd b : Bool} (hlog : t.hriLog = s.hriLog ++ [.hwinit m r fd b]) :
    BusOffMove s t :=
  .reset (.inr ⟨m, r, fd, b, rfl⟩) hlog

/-- No event ends bus-off (R179). -/
theorem EnvStep.busOffMove {s t : State} (h : EnvStep s t) : BusOffMove s t :=
  have ⟨_, hlog, _⟩ := h.extends
  ⟨hlog, fun hs => .inl (h.bo hs)⟩

theorem TaskStep.busOffMove {s t : State} (h : TaskStep s t) : BusOffMove s t := by
  rw [h.same]; exact .quiet rfl rfl

theorem transmitOne_busOffMove (f : CanFrame) (s : State) : BusOffMove s (transmitOne f s).1 := by
  cases hq : s.ctl.txReq
  · rw [transmitOne_of_free hq]; exact .call rfl rfl
  · rw [transmitOne_of_pending hq]; exact .call rfl rfl

theorem drainTransmit_busOffMove {s : State} {r : State × Status} (h : drainTransmit s = .next r) :
    BusOffMove s r.1 := by
  rcases drainTransmit_eq_next.1 h with ⟨-, rfl⟩ | ⟨-, -, -, rfl⟩ | ⟨-, -, -, rfl⟩
  · exact .quiet rfl rfl
  · exact .call rfl rfl
  · exact .call rfl rfl

/-- Every elementary update keeps bus-off, but for HWINIT's and DEINIT's. -/
theorem preserved_busOffMove : Preserved BusOffMove where
  refl _ := .quiet rfl rfl
  trans := BusOffMove.trans
  env hi h := (exec_env hi h).busOffMove
  task hi h := (exec_task hi h).busOffMove
  setSched _ _ := .quiet rfl rfl
  setInbox _ _ := .quiet rfl rfl
  setDrvWait _ _ := .quiet rfl rfl
  respond _ _ _ := .quiet rfl rfl
  clearRxip _ := .quiet rfl rfl
  receiveNone _ := .call rfl rfl
  receiveSome _ _ _ _ := .call rfl rfl
  storeFrame _ _ _ _ _ := .quiet rfl rfl
  setHriOut _ _ := .quiet rfl rfl
  setErrOut _ _ := .quiet rfl rfl
  setModSel _ _ := .quiet rfl rfl
  operating _ _ _ _ _ _ := .hwinit rfl
  failedClosed _ _ _ _ _ := .hwinit rfl
  timedOut _ _ _ _ := .hwinit rfl
  initBuffers _ := .quiet rfl rfl
  drain := drainTransmit_busOffMove
  transmit := transmitOne_busOffMove
  readErrors _ := .call rfl rfl
  deinit _ := .reset (.inl rfl) rfl
  setbaud _ _ _ _ _ := .call rfl rfl
  cfgflt _ _ _ := .call rfl rfl

/-- The moves of DS touch no controller register. -/
theorem dsMoves_busOffMove : DsMoves BusOffMove where
  activate _ _ := .quiet rfl rfl
  error _ _ _ := .quiet rfl rfl
  shutdown _ _ _ := .quiet rfl rfl

/-- Settles O52, by the closure principle. -/
theorem busOffEndsOnlyByResetEntry : Obligations.BusOffEndsOnlyByResetEntry := fun _ _ hst hs ht =>
  ((preserved_busOffMove.step dsMoves_busOffMove hst).stays hs).resolve_left (Bool.eq_false_iff.1 ht)

end Sys2Proof.Machine
end

section
/-! PROOF of O27 to O32 (43_controller_events.md R170 to R181). When an event is enabled is said once, in the form of the
statements; an enabled event then has its effect, and a disabled one none. -/

namespace Sys2Proof.Machine

/-! When an event is enabled, and when a frame from the bus is accepted. -/

theorem Ctl.inNormal_iff {c : Ctl} : c.inNormal = true ↔ c.mode = .normal := by simp [Ctl.inNormal]

theorem Ctl.onBus_iff {c : Ctl} : c.onBus = true ↔ c.mode = .normal ∧ c.bo = false := by simp [Ctl.onBus]

theorem Ctl.txDoneEnabled_iff {c : Ctl} :
    c.txDoneEnabled = true ↔ c.mode = .normal ∧ c.txReq = true ∧ c.bo = false := by
  simp only [Ctl.txDoneEnabled, Bool.and_eq_true, Ctl.onBus_iff, and_assoc, and_comm (a := c.bo = false)]

/-- An identifier is accepted where one of the first CTL.FLT_N rule registers matches it (R175). -/
theorem Ctl.accepts_iff {c : Ctl} {x : Word} :
    c.accepts x = true ↔ ∃ i, i < c.fltN ∧ ∃ r, c.flt[i]? = some r ∧ x &&& r.mask = r.id &&& r.mask := by
  simp only [Ctl.accepts, List.any_eq_true, FilterReg.accepts, decide_eq_true_iff, List.mem_iff_getElem?,
    List.getElem?_take, Option.ite_none_right_eq_some]
  constructor
  · rintro ⟨r, ⟨i, hi, hr⟩, hmatch⟩
    exact ⟨i, hi, r, hr, hmatch⟩
  · rintro ⟨i, hi, r, hr, hmatch⟩
    exact ⟨r, ⟨i, hi, hr⟩, hmatch⟩

/-- EV_RXFRAME has an effect, in the form of its statement (R174, R175). -/
theorem rxframeEffective_iff {g : CanFrame} {s : State} :
    (s.ctl.onBus = true ∧ s.ctl.accepts g.id = true) ↔ s.ctl.mode = .normal ∧ s.ctl.bo = false ∧
      ∃ i, i < s.ctl.fltN ∧ ∃ r, s.ctl.flt[i]? = some r ∧ g.id &&& r.mask = r.id &&& r.mask := by
  rw [Ctl.onBus_iff, Ctl.accepts_iff, and_assoc]

/-- A mailbox puts on the bus the first `min(dlc, 8)` bytes of the payload its data words hold (R172). -/
theorem Mailbox.busFrame_data {m : Mailbox} {p : Payload} (h0 : p.window0 = m.data0) (h1 : p.window1 = m.data1) :
    m.busFrame.data = p.bytes.take (min m.dlc.toNat 8) := by
  rw [Mailbox.busFrame, ← h0, ← h1, Payload.ofWindows_windows, clampDlc_toNat]

/-! EV_TXDONE and EV_RXFRAME where they have no effect, and a frame that is lost. -/

theorem exec_evTxdone_of_disabled {s : State} (h : ¬ s.ctl.txDoneEnabled = true) : exec .evTxdone s = .next s :=
  if_neg h

/-- An accepted frame is lost on a full FIFO, and CTL.IF.ML tells so (R176). -/
theorem exec_evRxframe_of_lost {g : CanFrame} {s : State} (hbus : s.ctl.onBus = true)
    (hacc : s.ctl.accepts g.id = true) (hfull : ¬ s.ctl.hwrx.length < s.cfg.hwrxDepth) :
    exec (.evRxframe g) s = .next (answer (.evRxframe g) [voidCode]
      (s.setCtl { s.ctl with ifl := { s.ctl.ifl with ml := true } })) := by
  simp only [exec, execEvRxframe, frameArrives_eq, if_pos (And.intro hbus hacc), if_neg hfull]

/-- A frame off the bus, or one that no rule accepts, changes nothing (R174, R175). -/
theorem exec_evRxframe_of_dropped {g : CanFrame} {s : State} (h : ¬ (s.ctl.onBus = true ∧ s.ctl.accepts g.id = true)) :
    exec (.evRxframe g) s = .next (answer (.evRxframe g) [voidCode] s) := by
  simp only [exec, execEvRxframe, frameArrives_eq, if_neg h]

/-! Bus-off takes the controller off the bus (R178). -/

theorem exec_evTxdone_of_busOff {s : State} (h : s.ctl.bo = true) : exec .evTxdone s = .next s :=
  exec_evTxdone_of_disabled (by simp [Ctl.txDoneEnabled_iff, h])

theorem exec_evRxframe_of_busOff {s : State} (h : s.ctl.bo = true) (g : CanFrame) :
    exec (.evRxframe g) s = .next (answer (.evRxframe g) [voidCode] s) :=
  exec_evRxframe_of_dropped (by simp [Ctl.onBus_iff, h])

/-! The statements. -/

/-- Settles O27. -/
theorem evClkSetsTheClockFlag : Obligations.EvClkSetsTheClockFlag := fun _ _ => rfl

/-- Settles O28. -/
theorem evTxdoneSendsTheMailboxFrame : Obligations.EvTxdoneSendsTheMailboxFrame := fun s =>
  ⟨fun h => ⟨_, s.ctl.txmb.busFrame, exec_evTxdone_of_enabled (Ctl.txDoneEnabled_iff.2 h), rfl, rfl,
      clampDlc_toNat _, fun _ => Mailbox.busFrame_data⟩,
    fun h => exec_evTxdone_of_disabled (mt Ctl.txDoneEnabled_iff.1 h)⟩

/-- Settles O29. -/
theorem evRxframeStoresAcceptedFrames : Obligations.EvRxframeStoresAcceptedFrames := by
  refine fun g s => ⟨fun h => ?_, fun h => exec_evRxframe_of_dropped (mt rxframeEffective_iff.1 h)⟩
  obtain ⟨hbus, hacc⟩ := rxframeEffective_iff.2 h
  exact ⟨exec_evRxframe_of_stored hbus hacc, fun hfull =>
    exec_evRxframe_of_lost hbus hacc (Nat.not_lt.2 (Nat.le_of_eq hfull.symm))⟩

/-- Settles O30. -/
theorem evErrcntSetsTheCounters : Obligations.EvErrcntSetsTheCounters := fun _ _ _ =>
  ⟨fun h => if_pos (Ctl.inNormal_iff.2 h), fun h => if_neg (mt Ctl.inNormal_iff.1 h)⟩

/-- Settles O31: RX1 does not ask whether the controller is on the bus. -/
theorem evBusoffSetsTheStatus : Obligations.EvBusoffSetsTheStatus := by
  refine ⟨rfl, rfl, fun s => ⟨fun h => ?_, fun h => if_neg (mt Ctl.onBus_iff.1 h)⟩⟩
  have hexec : exec .evBusoff s = .next (answer .evBusoff [voidCode] (s.setBo true)) := if_pos (Ctl.onBus_iff.2 h)
  exact ⟨_, hexec, rfl, exec_evTxdone_of_busOff rfl, exec_evRxframe_of_busOff rfl,
    fun _ _ hd hsched hq => ⟨_, exec_rx1_of_frame hd (boundary_nil hsched) hq, rfl, rfl⟩⟩

/-- Settles O32. -/
theorem evThlAndEvDlcerrRaiseTheirFlags : Obligations.EvThlAndEvDlcerrRaiseTheirFlags := by
  refine ⟨rfl, rfl, rfl, rfl, fun s => ⟨fun h => ?_, fun h => ?_⟩⟩
  · have hon := Ctl.inNormal_iff.2 h
    exact ⟨if_pos hon, if_pos hon⟩
  · have hoff := mt Ctl.inNormal_iff.1 h
    exact ⟨if_neg hoff, if_neg hoff⟩

end Sys2Proof.Machine
end

section
/-! PROOF of O33 and O34 (60_exceptions.md R200 to R204). The sources that ISR serves are those set and enabled; while the
line is deasserted there are none, so one expression says what ISR writes, enabled or not. -/

namespace Sys2Proof.Machine

/-! Latching and clearing the sources that are set and enabled (R203). -/

theorem IrqBits.any_eq_false_iff {a : IrqBits} : a.any = false ↔ a = ⟨false, false, false⟩ := by
  cases a
  simp [IrqBits.any, and_assoc]

theorem IrqBits.latch_none (log : IrqBits) : log.latch ⟨false, false, false⟩ = log := by simp [IrqBits.latch]

theorem IrqBits.clear_none (flags : IrqBits) : flags.clear ⟨false, false, false⟩ = flags := by simp [IrqBits.clear]

/-- A flag outlasts the clearing exactly where it is not enabled. -/
theorem IrqBits.clear_both (flags enable : IrqBits) :
    flags.clear (flags.both enable) = ⟨flags.th && !enable.th, flags.ml && !enable.ml, flags.de && !enable.de⟩ := by
  have kept : ∀ f e : Bool, (f && !(f && e)) = (f && !e) := by decide
  simp only [IrqBits.clear, IrqBits.both, kept]

/-- What outlasts the clearing does not assert the line (R200). -/
theorem IrqBits.any_clear_both (flags enable : IrqBits) :
    ((flags.clear (flags.both enable)).both enable).any = false := by
  rw [IrqBits.clear_both]
  simp [IrqBits.both, IrqBits.any]

/-! ISR, enabled and disabled. -/

theorem takeInterrupt_irqLine (s : State) : (takeInterrupt s).ctl.irqLine = false :=
  IrqBits.any_clear_both s.ctl.ifl s.ctl.ie

theorem exec_isr_of_enabled {s : State} (h : s.ctl.irqLine = true) :
    exec .isr s = .next (answer .isr [voidCode] (takeInterrupt s)) := if_pos h

theorem exec_isr_of_disabled {s : State} (h : s.ctl.irqLine = false) : exec .isr s = .next s :=
  if_neg (Bool.eq_false_iff.1 h)

/-- With the line deasserted there is nothing to serve. -/
theorem takeInterrupt_of_disabled {s : State} (h : s.ctl.irqLine = false) : takeInterrupt s = s := by
  rw [takeInterrupt_eq, IrqBits.any_eq_false_iff.1 h, IrqBits.latch_none, IrqBits.clear_none]

/-- Enabled or disabled, ISR does what taking the interrupt does, and may answer. -/
theorem exec_isr_eq_takeInterrupt {s t : State} (h : exec .isr s = .next t) :
    ∃ r, t = { takeInterrupt s with respLog := r } := by
  cases hline : s.ctl.irqLine with
  | true =>
    cases (exec_isr_of_enabled hline).symm.trans h
    exact ⟨_, rfl⟩
  | false =>
    cases (exec_isr_of_disabled hline).symm.trans h
    exact ⟨s.respLog, by rw [takeInterrupt_of_disabled hline]⟩

/-! The statements. -/

/-- Settles O33. -/
theorem isrServesEveryEnabledFlag : Obligations.IsrServesEveryEnabledFlag := by
  rintro s th ml de rfl rfl rfl
  refine ⟨fun hline => ⟨_, exec_isr_of_enabled hline, ?_, takeInterrupt_irqLine s⟩, exec_isr_of_disabled⟩
  rw [takeInterrupt_eq, IrqBits.clear_both]
  rfl

/-- Settles O34. -/
theorem isrTouchesOnlyItsFlags : Obligations.IsrTouchesOnlyItsFlags := fun s t s' t' h h' => by
  obtain ⟨r, rfl⟩ := exec_isr_eq_takeInterrupt h
  obtain ⟨r', rfl⟩ := exec_isr_eq_takeInterrupt h'
  refine ⟨rfl, fun hifl hie hlog => ?_⟩
  simp only [takeInterrupt_eq, hifl, hie, hlog, and_self]

end Sys2Proof.Machine
end

section
/-! PROOF of O50 (10_state.md R27, R29, 42_state_machine.md R158, R221). SHUTREQ is written by REQSHUT alone, ERRLOG by the
interrupt handler alone, and both only set; the closure principle of Laws/Closure.lean carries that to every step. That
Shutdown stays is the table of R159, which has no line that leaves it (`step_dsMove`). -/

namespace Sys2Proof.Machine

/-- SHUTREQ and each flag of ERRLOG, where set in `s`, are still set in `t`. -/
structure LatchesStay (s t : State) : Prop where
  shutReq : s.shutReq = true → t.shutReq = true
  th : s.errLog.th = true → t.errLog.th = true
  ml : s.errLog.ml = true → t.errLog.ml = true
  de : s.errLog.de = true → t.errLog.de = true

theorem LatchesStay.trans {s t u : State} (h : LatchesStay s t) (h' : LatchesStay t u) : LatchesStay s u :=
  ⟨h'.shutReq ∘ h.shutReq, h'.th ∘ h.th, h'.ml ∘ h.ml, h'.de ∘ h.de⟩

/-- An update that writes neither SHUTREQ nor ERRLOG. -/
theorem LatchesStay.of_eq {s t : State} (hq : t.shutReq = s.shutReq) (hlog : t.errLog = s.errLog) : LatchesStay s t := by
  constructor <;> simp [hq, hlog]

/-- An environment step may latch flags into ERRLOG (R29), and does not write SHUTREQ. -/
theorem EnvStep.latchesStay {s t : State} (h : EnvStep s t) : LatchesStay s t := by
  obtain ⟨hth, hml, hde⟩ := h.latched
  have hq : t.shutReq = s.shutReq := by rw [h.same]
  exact ⟨hq.trans, hth, hml, hde⟩

/-- A task's step may set SHUTREQ (R27), and does not write ERRLOG. -/
theorem TaskStep.latchesStay {s t : State} (h : TaskStep s t) : LatchesStay s t := by
  have hlog : t.errLog = s.errLog := by rw [h.same]
  exact ⟨h.latch, by simp [hlog], by simp [hlog], by simp [hlog]⟩

theorem drainTransmit_latchesStay {s : State} {r : State × Status} (h : drainTransmit s = .next r) :
    LatchesStay s r.1 := by
  rcases drainTransmit_eq_next.1 h with ⟨-, rfl⟩ | ⟨-, -, -, rfl⟩ | ⟨-, -, -, rfl⟩ <;> exact .of_eq rfl rfl

theorem transmitOne_latchesStay (f : CanFrame) (s : State) : LatchesStay s (transmitOne f s).1 := by
  cases hq : s.ctl.txReq
  · rw [transmitOne_of_free hq]; exact .of_eq rfl rfl
  · rw [transmitOne_of_pending hq]; exact .of_eq rfl rfl

/-- Every elementary update keeps the latches; DRV's own write neither. -/
theorem preserved_latchesStay : Preserved LatchesStay where
  refl _ := .of_eq rfl rfl
  trans := LatchesStay.trans
  env hi h := (exec_env hi h).latchesStay
  task hi h := (exec_task hi h).latchesStay
  setSched _ _ := .of_eq rfl rfl
  setInbox _ _ := .of_eq rfl rfl
  setDrvWait _ _ := .of_eq rfl rfl
  respond _ _ _ := .of_eq rfl rfl
  clearRxip _ := .of_eq rfl rfl
  receiveNone _ := .of_eq rfl rfl
  receiveSome _ _ _ _ := .of_eq rfl rfl
  storeFrame _ _ _ _ _ := .of_eq rfl rfl
  setHriOut _ _ := .of_eq rfl rfl
  setErrOut _ _ := .of_eq rfl rfl
  setModSel _ _ := .of_eq rfl rfl
  operating _ _ _ _ _ _ := .of_eq rfl rfl
  failedClosed _ _ _ _ _ := .of_eq rfl rfl
  timedOut _ _ _ _ := .of_eq rfl rfl
  initBuffers _ := .of_eq rfl rfl
  drain := drainTransmit_latchesStay
  transmit := transmitOne_latchesStay
  readErrors _ := .of_eq rfl rfl
  deinit _ := .of_eq rfl rfl
  setbaud _ _ _ _ _ := .of_eq rfl rfl
  cfgflt _ _ _ := .of_eq rfl rfl

/-- The moves of DS write no latch; entering Shutdown leaves SHUTREQ set. -/
theorem dsMoves_latchesStay : DsMoves LatchesStay where
  activate _ _ := .of_eq rfl rfl
  error _ _ _ := .of_eq rfl rfl
  shutdown _ _ _ := .of_eq rfl rfl

/-- No line of the table leaves Shutdown (R158, R159). -/
theorem DsMove.shutdown_stays {s t : State} (h : DsMove s t) (hs : s.ds = .shutdown) : t.ds = .shutdown := by
  cases h with
  | stay h => exact h.trans hs
  | initialized hi _ => exact absurd (hs.symm.trans hi) nofun
  | busError ha _ _ => exact absurd (hs.symm.trans ha) nofun
  | recovered he _ => exact absurd (hs.symm.trans he) nofun
  | shutdown hn _ _ => exact absurd hs hn

/-- Settles O50: the latches by the closure principle, Shutdown by the table of DS. -/
theorem latchesAndShutdownStay : Obligations.LatchesAndShutdownStay := fun _ _ hst =>
  have hlatch := preserved_latchesStay.step dsMoves_latchesStay hst
  ⟨hlatch.shutReq, hlatch.th, hlatch.ml, hlatch.de, (step_dsMove hst).1.shutdown_stays⟩

end Sys2Proof.Machine
end
